-- ==== Sys2Proof/Word.lean ====
section
/-! DEFINITION. The word types of HUFF-CORE and its symbol-indexed tables. -/

namespace Sys2Proof

/-- A register or command word: every access to the register window is 32 bits wide (20_memory.md R60). -/
abbrev Word := BitVec 32

/-- A byte of a stream (20_memory.md R62). -/
abbrev Byte := BitVec 8

/-- A table with one entry per symbol, MAX_SYM = 257 of them (00_scope.md R5). -/
abbrev Table (α : Type) := Vector α 257

end Sys2Proof
end

