-- ==== Sys2Proof/Config.lean ====
section
/-! DEFINITION. The parameters of HUFF-CORE (00_scope.md R5 to R13) and the model's free values. -/

namespace Sys2Proof.Config

/-- MAX_SYM (00_scope.md R5): the table capacity and the largest symbol limit. -/
abbrev maxSym : Nat := 257

/-- EOF_SYM (00_scope.md R6): the end-of-stream symbol of both protocols. -/
abbrev eofSym : Nat := 256

/-- EPOCH (00_scope.md R7): the adaptive protocol's epoch length, 2^18. -/
abbrev epoch : Nat := 262144

/-- HDR_LEN_LIMIT (00_scope.md R8): a code length in the static header is below it. -/
abbrev hdrLenLimit : Nat := 256

/-- FREQ_BITS (00_scope.md R9). -/
abbrev freqBits : Nat := 32

/-- COUNT_BITS (00_scope.md R11). -/
abbrev countBits : Nat := 64

/-- IN_DEPTH less one: an OPEN parameter (00_scope.md R12), so it has no body (log 5). -/
opaque inDepthLess : Nat

/-- OUT_DEPTH less one: an OPEN parameter (00_scope.md R12), so it has no body (log 5). -/
opaque outDepthLess : Nat

/-- IN_DEPTH, at least 1 (00_scope.md R12). -/
def inDepth : Nat := inDepthLess + 1

/-- OUT_DEPTH, at least 1 (00_scope.md R12). -/
def outDepth : Nat := outDepthLess + 1

/-- HC_BASE divided by 64: an OPEN parameter of the platform (00_scope.md R13), so it has no body (log 5). -/
opaque hcBaseUnit : Nat

/-- HC_BASE, a multiple of 64 (00_scope.md R13). -/
def hcBase : Nat := 64 * hcBaseUnit

/-- A FREE VALUE: what the n-th undefined read of the window returns, any 32-bit value (20_memory.md R60; log 4).
It has no body: nothing can be proved of it. -/
opaque busDraw : Nat → Word

/-- A FREE VALUE: what IN_LEVEL and OUT_LEVEL read while their queue holds `n` items, 2^32 or more. 20_memory.md R65 has
32 bits for the level and 00_scope.md R12 no upper bound for the depths, and the spec states no value there (log 12).
It has no body: nothing can be proved of it. -/
opaque longLevel (n : Nat) : Word

end Sys2Proof.Config
end

