-- ==== Sys2Proof/Syntax.lean ====
section
/-! DEFINITION. The 30 commands of HUFF-CORE (30_encoding.md R96), one constructor per row of spec/opcode_table.json. -/

namespace Sys2Proof

/-- A command. `sym` is the SYM operand and `widx` the WIDX operand, both unsigned integers
(30_encoding.md R91, R92). The ARG operand is no part of the word: it is latched beside it (R93). -/
inductive Instr where
  | ftFill
  | ftGet (sym : Nat)
  | ftSet (sym : Nat)
  | ftInc (sym : Nat)
  | ftBuild
  | ctGetlen (sym : Nat)
  | ctGetcode (sym : Nat) (widx : Nat)
  | ctClear
  | clGet (sym : Nat)
  | clSet (sym : Nat)
  | ccCheck
  | ccFromTree
  | ccToTree
  | encSym (sym : Nat)
  | decSym
  | boWrite
  | boClose
  | biRead
  | biReadNoeof
  | streamReset
  | inSkip
  | scScan
  | scHeader
  | scEncode
  | sdDecode
  | acEncode
  | adDecode
  | nop
  | errClear
  | setSymlim
  deriving DecidableEq, Repr

end Sys2Proof
end

