-- ==== Sys2Proof/WellFormed.lean ====
section
/-! DEFINITION. Which instruction terms a command word can carry: SYM has 9 bits and WIDX 3 (30_encoding.md R90). -/

namespace Sys2Proof

/-- The SYM operand of a command, 0 where it takes none (30_encoding.md R91, R94). -/
def Instr.symField : Instr → Nat
  | .ftGet sym | .ftSet sym | .ftInc sym | .ctGetlen sym | .ctGetcode sym _ | .clGet sym | .clSet sym
  | .encSym sym => sym
  | .ftFill | .ftBuild | .ctClear | .ccCheck | .ccFromTree | .ccToTree | .decSym | .boWrite | .boClose | .biRead
  | .biReadNoeof | .streamReset | .inSkip | .scScan | .scHeader | .scEncode | .sdDecode | .acEncode | .adDecode
  | .nop | .errClear | .setSymlim => 0

/-- The WIDX operand of a command, 0 for every command but CT_GETCODE (30_encoding.md R92). -/
def Instr.widxField : Instr → Nat
  | .ctGetcode _ widx => widx
  | .ftGet _ | .ftSet _ | .ftInc _ | .ctGetlen _ | .clGet _ | .clSet _ | .encSym _
  | .ftFill | .ftBuild | .ctClear | .ccCheck | .ccFromTree | .ccToTree | .decSym | .boWrite | .boClose | .biRead
  | .biReadNoeof | .streamReset | .inSkip | .scScan | .scHeader | .scEncode | .sdDecode | .acEncode | .adDecode
  | .nop | .errClear | .setSymlim => 0

/-- Both operands fit their fields: 0 ≤ SYM ≤ 511 and 0 ≤ WIDX ≤ 7 (30_encoding.md R90). -/
abbrev Instr.WellFormed (i : Instr) : Prop := i.symField < 512 ∧ i.widxField < 8

end Sys2Proof
end

