-- ==== Sys2Proof/Decode.lean ====
section
/-! DEFINITION. The opcode map of 30_encoding.md R96, the decoder of R98 and the encoder of R99.
A command word is one 32-bit register write: no bytes are fetched and no byte order arises (R77, R73). -/

namespace Sys2Proof

/-- Why a word is no command (30_encoding.md R98): each becomes an ILLEGAL error of that name. -/
inductive DecodeError where
  /-- w[7:0] is no opcode of R96: ILLEGAL(OPCODE, w). -/
  | opcode
  /-- A reserved or unused bit is set: ILLEGAL(RESERVED, w). -/
  | reserved
  deriving DecidableEq, Repr

/-- A row of the opcode map (30_encoding.md R96). `make` takes the SYM and WIDX operands. -/
structure Row where
  op : Byte
  mask : Word
  bits : Word
  make : Nat → Nat → Instr

/-- The commands without SYM and WIDX operands: every bit of the word is fixed (30_encoding.md R96). -/
def plainRow (op : Byte) (i : Instr) : Row := ⟨op, 0xFFFFFFFF, op.setWidth 32, fun _ _ => i⟩

/-- The commands with a SYM operand (30_encoding.md R96). -/
def symRow (op : Byte) (make : Nat → Instr) : Row := ⟨op, 0xFFFE00FF, op.setWidth 32, fun sym _ => make sym⟩

/-- CT_GETCODE, the one command with SYM and WIDX (30_encoding.md R96). -/
def symWidxRow (op : Byte) (make : Nat → Nat → Instr) : Row := ⟨op, 0xFFF000FF, op.setWidth 32, make⟩

/-- The opcode map (30_encoding.md R96). -/
def opTable : List Row :=
  [ plainRow 0x10 .ftFill, symRow 0x11 .ftGet, symRow 0x12 .ftSet, symRow 0x13 .ftInc, plainRow 0x14 .ftBuild,
    symRow 0x20 .ctGetlen, symWidxRow 0x21 .ctGetcode, plainRow 0x22 .ctClear,
    symRow 0x30 .clGet, symRow 0x31 .clSet, plainRow 0x32 .ccCheck, plainRow 0x33 .ccFromTree,
    plainRow 0x34 .ccToTree ] ++
  [ symRow 0x40 .encSym, plainRow 0x41 .decSym,
    plainRow 0x50 .boWrite, plainRow 0x51 .boClose, plainRow 0x52 .biRead, plainRow 0x53 .biReadNoeof,
    plainRow 0x54 .streamReset, plainRow 0x55 .inSkip,
    plainRow 0x60 .scScan, plainRow 0x61 .scHeader, plainRow 0x62 .scEncode, plainRow 0x63 .sdDecode,
    plainRow 0x70 .acEncode, plainRow 0x71 .adDecode,
    plainRow 0x00 .nop, plainRow 0x01 .errClear, plainRow 0x02 .setSymlim ]

/-- OP, bits 7:0 (30_encoding.md R90). -/
def opOf (w : Word) : Byte := w.extractLsb' 0 8

/-- SYM, bits 16:8, zero-extended (30_encoding.md R91). -/
def symOf (w : Word) : Nat := (w.extractLsb' 8 9).toNat

/-- WIDX, bits 19:17, zero-extended (30_encoding.md R92). -/
def widxOf (w : Word) : Nat := (w.extractLsb' 17 3).toNat

/-- The decoder, in the order of 30_encoding.md R98: the opcode, then the reserved bits, then the operands. -/
def decode (w : Word) : Except DecodeError Instr :=
  match opTable.find? (fun r => r.op == opOf w) with
  | none => .error .opcode
  | some r => if w &&& r.mask = r.bits then .ok (r.make (symOf w) (widxOf w)) else .error .reserved

/-- The OP value of a command (30_encoding.md R96). -/
def Instr.opcode : Instr → Byte
  | .ftFill => 0x10 | .ftGet _ => 0x11 | .ftSet _ => 0x12 | .ftInc _ => 0x13 | .ftBuild => 0x14
  | .ctGetlen _ => 0x20 | .ctGetcode _ _ => 0x21 | .ctClear => 0x22
  | .clGet _ => 0x30 | .clSet _ => 0x31 | .ccCheck => 0x32 | .ccFromTree => 0x33 | .ccToTree => 0x34
  | .encSym _ => 0x40 | .decSym => 0x41
  | .boWrite => 0x50 | .boClose => 0x51 | .biRead => 0x52 | .biReadNoeof => 0x53 | .streamReset => 0x54
  | .inSkip => 0x55
  | .scScan => 0x60 | .scHeader => 0x61 | .scEncode => 0x62 | .sdDecode => 0x63
  | .acEncode => 0x70 | .adDecode => 0x71
  | .nop => 0x00 | .errClear => 0x01 | .setSymlim => 0x02

/-- The word of a command: OP | sym << 8 | widx << 17 (30_encoding.md R99). -/
def encode (i : Instr) : Word :=
  i.opcode.setWidth 32 ||| (BitVec.ofNat 32 i.symField <<< 8) ||| (BitVec.ofNat 32 i.widxField <<< 17)

/-- What the decoder reads from a word whose bits, numbered as spec/opcode_table.json numbers them, are `w`;
bits above `nbits` are 0. -/
def decodeTableWord (nbits w : Nat) : Option Instr :=
  match decode (BitVec.ofNat 32 (w % 2 ^ nbits)) with
  | .ok i => some i
  | .error _ => none

end Sys2Proof
end

