-- ==== Sys2Proof/Machine/State.lean ====
section
/-! DEFINITION. The state of HUFF-CORE (10_state.md), its reset value, and why a step can stop. -/

namespace Sys2Proof.Machine

/-- A tree value (10_state.md R26): in `node l r`, `l` is the child reached by bit 0 and `r` by bit 1. -/
inductive CodeTree where
  | leaf (sym : Nat)
  | node (l r : CodeTree)
  deriving DecidableEq, Repr

/-- An item of the IN or OUT queue (20_memory.md R62). -/
inductive Item where
  | byte (b : Byte)
  /-- END: the end of one byte stream. -/
  | endItem
  deriving DecidableEq, Repr

/-- A PopIn of some command's pseudocode, with the locals that outlive it (10_state.md R35). -/
inductive PopPoint where
  /-- `it <- PopIn()` at the head of the loop of SC_SCAN, SC_ENCODE and AC_ENCODE. -/
  | item
  /-- The PopIn of GetBit() in BI_READ and BI_READ_NOEOF. -/
  | bit
  /-- The PopIn of DrainIn() in IN_SKIP, SD_DECODE and AD_DECODE. -/
  | drain
  /-- The PopIn of GetBit() in SD_DECODE's header: `left` header bits remain after the one awaited, and `v` is the
  length read so far. The pseudocode's s and k are read off `left` (log 8). -/
  | header (left v : Nat)
  /-- The PopIn of GetBit() in Decode(): the walk stands at the tree node `node l r`. -/
  | walk (l r : CodeTree)
  deriving DecidableEq, Repr

/-- A PushOut of some command's pseudocode, with the locals that outlive it (10_state.md R35). -/
inductive PushPoint where
  /-- The PushOut of PutBit() in BO_WRITE. -/
  | bit
  /-- The PushOut of PutBit(0) in CloseOut(). -/
  | pad
  /-- PushOut(END) in CloseOut(). -/
  | close
  /-- The PushOut of PutBit() in Encode(sym): `rest` are the code's bits not yet put. -/
  | code (sym : Nat) (rest : List Bool)
  /-- The PushOut of PutBit() in SC_HEADER: `rest` are the bits of the current entry not yet put and `left` entries
  follow it. The pseudocode's s is 256 - `left` (log 8). -/
  | header (left : Nat) (rest : List Bool)
  /-- PushOut(Byte(sym)) of a decoded symbol in SD_DECODE and AD_DECODE. -/
  | data (sym : Nat)
  /-- PushOut(END) at the end of SD_DECODE and AD_DECODE. -/
  | finish
  deriving DecidableEq, Repr

/-- A position of the sequencer: the start of the pseudocode, or a blocking point not yet performed
(10_state.md R35; 20_memory.md R69). The item of a PushOut is fixed before the wait begins (R67). -/
inductive Pos where
  | start
  | popIn (k : PopPoint)
  | pushOut (it : Item) (k : PushPoint)
  deriving DecidableEq, Repr

/-- The command sequencer (10_state.md R35): IDLE, or RUNNING with the accepted word, the latched argument and the
position with its locals. -/
inductive Seq where
  | idle
  | running (w a : Word) (p : Pos)
  deriving DecidableEq, Repr

/-- The errors a command can raise (60_exceptions.md R261), one per detail of each class. -/
inductive ErrKind where
  | tooFewSymbols | negFreq | negLen | oddLevel | rootZero | rootMany
  | symbol | bitValue | capacity
  | noTree | noCode
  | codeTooLong | badLengths
  | unexpectedEof
  | freq | count
  | opcode | reserved | symlimNot257
  deriving DecidableEq, Repr

/-- A host access to the register window (20_memory.md R60), at the address HC_BASE + `off`, of `size` bytes. -/
inductive Access where
  | read (off size : Nat)
  | write (off size : Nat) (v : Word)
  deriving DecidableEq, Repr

/-- Who moves next (20_memory.md R61; log 1). -/
inductive Turn where
  /-- The engine, which takes one step if one is enabled. -/
  | engine
  /-- The host, with one register access. -/
  | host (a : Access)
  /-- The host with one IN_PUSH write of `v`, made once IN has room: the `push` of 30_encoding.md R99, in an order that
  respects the queue capacity (R100; log 3). -/
  | push (v : Word)
  /-- The host polling STATUS until BUSY = 0, the `wait` of 30_encoding.md R99 (log 3). -/
  | poll
  /-- The platform's reset input (70_reset_and_hazards.md R290). -/
  | resetInput
  deriving DecidableEq, Repr

/-- Why the machine stops with a fault. -/
inductive Fault where
  /-- Raised by the meaning of a command when the sequencer is idle or stands at a position that command does not
  have. No run reaches it (log 7). Safe: the model stops. -/
  | badPosition
  /-- Raised by a host access at an offset of 64 or more: it lies outside the one address space the spec gives
  (20_memory.md R78; log 6). Safe: the model stops. -/
  | outsideWindow
  deriving DecidableEq, Repr

/-- Why an instruction has no meaning. -/
inductive Refusal where
  /-- Raised by an arm of `exec` whose command has no meaning yet; no arm is. Safe: the model stops. -/
  | notModelled (mnemonic : String)
  deriving DecidableEq, Repr

/-- The state: everything 10_state.md R20 lists, under the name it has there, then the model's own fields. -/
structure State where
  /-- SYMLIM (R22). -/
  symLim : BitVec 9
  /-- FT, the frequency table (R23). -/
  ft : Table Word
  /-- CL, the code lengths, each in [0, 2^31 - 1] (R24). -/
  cl : Table (BitVec 31)
  /-- TREE, the active tree (R25). -/
  tree : Option CodeTree
  /-- CNT, the adaptive data-symbol counter (R29). -/
  cnt : BitVec 64
  /-- BO_BUF and BO_NBITS, the bit output cursor (R30). -/
  boBuf : Byte
  boNbits : Fin 8
  /-- BI_BYTE, BI_NREM and BI_EOF, the bit input cursor (R31). -/
  biByte : Byte
  biNrem : Fin 8
  biEof : Bool
  /-- ARG (R32). -/
  arg : Word
  /-- RESULT (R33). -/
  result : Word
  /-- ERR, ERRCODE, ERRDETAIL and ERRINFO, the error state (R34). -/
  err : Bool
  errCode : BitVec 4
  errDetail : BitVec 4
  errInfo : Word
  /-- IN_OVF (R36). -/
  inOvf : Bool
  /-- The command sequencer and CUR_OP (R35). -/
  seq : Seq
  curOp : Byte
  /-- The IN and OUT queues, head first (20_memory.md R62). -/
  inQ : List Item
  outQ : List Item
  /-- The model's own: the turns to come (log 1). -/
  script : List Turn
  /-- The model's own: what the host's reads returned, each with its offset, oldest first (log 1). -/
  reads : List (Nat × Word)
  /-- The model's own: how many free values have been drawn (log 4). -/
  draws : Nat
  deriving DecidableEq, Repr

/-- The reset state (10_state.md R44; 70_reset_and_hazards.md R290). -/
def State.reset : State where
  symLim := 257
  ft := Vector.replicate 257 0
  cl := Vector.replicate 257 0
  tree := none
  cnt := 0
  boBuf := 0
  boNbits := 0
  biByte := 0
  biNrem := 0
  biEof := false
  arg := 0
  result := 0
  err := false
  errCode := 0
  errDetail := 0
  errInfo := 0
  inOvf := false
  seq := .idle
  curOp := 0
  inQ := []
  outQ := []
  script := []
  reads := []
  draws := 0

end Sys2Proof.Machine
end

