-- ==== Sys2Proof/Machine/Ops.lean ====
section
/-! DEFINITION. The named operations every command is written over: the sequencer, raising an error and the return from
one, the tables, the queues and the bit adapters. -/

namespace Sys2Proof.Machine

/-- What one engine or host step answers. -/
abbrev Out := Host.Outcome State Fault Refusal

/-! ## Tables (00_scope.md R15: `FT[s]`, `CL[s]`) -/

/-- Entry `k` of a table, the given default beyond its 257 entries. -/
def tableGet {α : Type} (t : Table α) (k : Nat) (d : α) : α := if h : k < 257 then t[k] else d

/-- Entry `k` of a table replaced; nothing is written beyond its 257 entries. -/
def tableSet {α : Type} (t : Table α) (k : Nat) (v : α) : Table α := if h : k < 257 then t.set k v else t

/-- `for s in 0 .. lim-1: T[s] <- f s`. -/
def tableFill {α : Type} (lim : Nat) (f : Nat → α) (t : Table α) : Table α :=
  ⟨⟨(List.range (min lim 257)).map f ++ t.toList.drop lim⟩, by simp; omega⟩

/-- SYMLIM as an integer (10_state.md R22). -/
def State.limit (s : State) : Nat := s.symLim.toNat

/-- FT[k] (10_state.md R23). -/
def State.freq (s : State) (k : Nat) : Word := tableGet s.ft k 0

/-- CL[k] (10_state.md R24). -/
def State.len (s : State) (k : Nat) : BitVec 31 := tableGet s.cl k 0

/-- FT[k] <- v. -/
def State.setFreq (s : State) (k : Nat) (v : Word) : State := { s with ft := tableSet s.ft k v }

/-- CL[k] <- v. -/
def State.setLen (s : State) (k : Nat) (v : BitVec 31) : State := { s with cl := tableSet s.cl k v }

/-- `for s in 0 .. lim-1: FT[s] <- v`. -/
def State.fillFreq (s : State) (lim : Nat) (v : Word) : State := { s with ft := tableFill lim (fun _ => v) s.ft }

/-- `for s in 0 .. SYMLIM-1: CL[s] <- len[s]`. -/
def State.fillLen (s : State) (len : Nat → Nat) : State :=
  { s with cl := tableFill s.limit (fun k => BitVec.ofNat 31 (len k)) s.cl }

/-- CL[0 .. SYMLIM-1] as integers, in symbol order. -/
def State.lengthList (s : State) : List Nat := (s.cl.toList.take s.limit).map BitVec.toNat

/-! ## The sequencer (10_state.md R35; 20_memory.md R69, R70) -/

/-- The position of the running command, none when IDLE. -/
def State.pos (s : State) : Option Pos :=
  match s.seq with
  | .idle => none
  | .running _ _ p => some p

/-- The latched argument (20_memory.md R68), 0 when IDLE. -/
def State.argument (s : State) : Word :=
  match s.seq with
  | .idle => 0
  | .running _ a _ => a

/-- A running sequencer at position `p`; IDLE stays IDLE. -/
def Seq.moved (p : Pos) : Seq → Seq
  | .idle => .idle
  | .running w a _ => .running w a p

/-- The sequencer moved to position `p` of the command that runs. -/
def State.park (p : Pos) (s : State) : State := { s with seq := s.seq.moved p }

/-- The sequencer set to IDLE. -/
def State.toIdle (s : State) : State := { s with seq := .idle }

/-- The segment ends at the blocking point `p`, not yet performed (20_memory.md R69). -/
def parkAt (p : Pos) (s : State) : Out := .next (s.park p)

/-- `complete` (20_memory.md R70). -/
def complete (s : State) : Out := .next s.toIdle

/-- RESULT <- v, then `complete`. -/
def completeWith (v : Word) (s : State) : Out := complete { s with result := v }

/-- The first segment of a command, given its latched argument. -/
def atStart (s : State) (k : Word → State → Out) : Out :=
  match s.pos with
  | some .start => k s.argument s
  | _ => .fault .badPosition

/-! ## Errors (60_exceptions.md) -/

/-- ERRCODE of an error (60_exceptions.md R261). -/
def ErrKind.code : ErrKind → BitVec 4
  | .tooFewSymbols | .negFreq | .negLen | .oddLevel | .rootZero | .rootMany => 1
  | .symbol | .bitValue | .capacity => 2
  | .noTree | .noCode => 3
  | .codeTooLong | .badLengths => 4
  | .unexpectedEof => 5
  | .freq | .count => 6
  | .opcode | .reserved | .symlimNot257 => 7

/-- ERRDETAIL of an error (60_exceptions.md R261). -/
def ErrKind.detail : ErrKind → BitVec 4
  | .tooFewSymbols => 1 | .negFreq => 2 | .negLen => 3 | .oddLevel => 4 | .rootZero => 5 | .rootMany => 6
  | .symbol => 1 | .bitValue => 2 | .capacity => 3
  | .noTree => 1 | .noCode => 2
  | .codeTooLong => 1 | .badLengths => 2
  | .unexpectedEof => 1
  | .freq => 1 | .count => 2
  | .opcode => 1 | .reserved => 2 | .symlimNot257 => 3

/-- The error recorded and the command ended (60_exceptions.md R262): everything else stays (R264, R265). -/
def State.failed (e : ErrKind) (info : Word) (s : State) : State :=
  { s with err := true, errCode := e.code, errDetail := e.detail, errInfo := info, seq := .idle }

/-- `raise CLASS(DETAIL, info)` (60_exceptions.md R262): the one way an error is taken. -/
def raise (e : ErrKind) (info : Word) (s : State) : Out := .next (s.failed e info)

/-- The recorded error and IN_OVF cleared (47_control.md R241): the return from an error (60_exceptions.md R268). -/
def State.clearError (s : State) : State :=
  { s with err := false, errCode := 0, errDetail := 0, errInfo := 0, inOvf := false }

/-! ## The queues (20_memory.md R62, R66, R67) -/

/-- PopIn(): enabled when IN holds an item; otherwise the engine has no step and nothing changes (R66; log 2). -/
def popIn (s : State) (k : Item → State → Out) : Out :=
  match s.inQ with
  | [] => .next s
  | it :: rest => k it { s with inQ := rest }

/-- PushOut(it): enabled when OUT is not full; otherwise the engine has no step and nothing changes (R67; log 2). -/
def pushOut (it : Item) (s : State) (k : State → Out) : Out :=
  if s.outQ.length < Config.outDepth then k { s with outQ := s.outQ ++ [it] } else .next s

/-- One item met by DrainIn() (44_bitstream.md R185): the drain goes on until END. -/
def drained (k : State → Out) (it : Item) (s : State) : Out :=
  match it with
  | .endItem => k s
  | .byte _ => parkAt (.popIn .drain) s

/-! ## The bit output adapter (44_bitstream.md R180, R181, R184) -/

/-- ResetBO(). -/
def State.resetBO (s : State) : State := { s with boBuf := 0, boNbits := 0 }

/-- PutBit(b) up to its PushOut: the byte to push when the bit completes one (44_bitstream.md R180). -/
def putBit (b : Bool) (s : State) : State × Option Byte :=
  let buf := (s.boBuf <<< 1) ||| (BitVec.ofBool b).setWidth 8
  if h : s.boNbits.val + 1 < 8 then ({ s with boBuf := buf, boNbits := ⟨s.boNbits.val + 1, h⟩ }, none)
  else (s.resetBO, some buf)

/-- PutBit for each bit in order, up to the first PushOut: the byte to push and the bits still to put. -/
def putBits : List Bool → State → State × Option (Byte × List Bool)
  | [], s => (s, none)
  | b :: bs, s =>
    match putBit b s with
    | (s', none) => putBits bs s'
    | (s', some v) => (s', some (v, bs))

/-- `while BO_NBITS != 0: PutBit(0)` up to its PushOut; `fuel` bounds the loop, which ends within 7 bits. -/
def padOut : (fuel : Nat) → State → State × Option Byte
  | 0, s => (s, none)
  | fuel + 1, s =>
    if s.boNbits = 0 then (s, none) else
    match putBit false s with
    | (s', none) => padOut fuel s'
    | (s', some v) => (s', some v)

/-- CloseOut() up to its next PushOut (44_bitstream.md R181). -/
def closeOut (s : State) : Out :=
  match padOut 8 s with
  | (s', some v) => parkAt (.pushOut (.byte v) .pad) s'
  | (s', none) => parkAt (.pushOut .endItem .close) s'

/-! ## The bit input adapter (44_bitstream.md R182 to R184) -/

/-- ResetBI(). -/
def State.resetBI (s : State) : State := { s with biByte := 0, biNrem := 0, biEof := false }

/-- What GetBit() comes to: a bit, the end of the stream, or its PopIn. -/
inductive Got where
  | bit (b : Bool) (s : State)
  | eof (s : State)
  | need (s : State)

/-- GetBit() up to its PopIn (44_bitstream.md R182). -/
def getBit (s : State) : Got :=
  if s.biEof then .eof s
  else if h : s.biNrem.val = 0 then .need s
  else .bit (s.biByte.getLsbD (s.biNrem.val - 1)) { s with biNrem := ⟨s.biNrem.val - 1, by omega⟩ }

/-- GetBit() from its PopIn on, given the item popped (44_bitstream.md R182): a byte's first bit is its bit 7. -/
def gotItem (it : Item) (s : State) : Got :=
  match it with
  | .endItem => .eof { s with biEof := true }
  | .byte b => .bit (b.getLsbD 7) { s with biByte := b, biNrem := 7 }

/-- What follows GetBit(): park at `p` for its PopIn, or go on with the end or the bit. -/
def Got.andThen (g : Got) (p : Pos) (onEof : State → Out) (onBit : Bool → State → Out) : Out :=
  match g with
  | .need s => parkAt p s
  | .eof s => onEof s
  | .bit b s => onBit b s

/-- The end of the stream where GetBitNoEof() meets it (44_bitstream.md R183). -/
def unexpectedEof (s : State) : Out := raise .unexpectedEof 0 s

end Sys2Proof.Machine
end

