-- ==== Sys2Proof/Machine/Operands.lean ====
section
/-! DEFINITION. The operand forms: SYM with its range check, ARG as a signed integer, the SYMLIM = 257 check
(30_encoding.md R91, R93; 60_exceptions.md R266). -/

namespace Sys2Proof.Machine

/-- A symbol as the 32-bit ERRINFO value (60_exceptions.md R263). -/
def symWord (sym : Nat) : Word := BitVec.ofNat 32 sym

/-- `if sym >= SYMLIM: raise RANGE(SYMBOL, sym)` (30_encoding.md R91). -/
def checkSym (sym : Nat) (s : State) (k : State → Out) : Out :=
  if s.limit ≤ sym then raise .symbol (symWord sym) s else k s

/-- `v <- s32(a)`, with the raise of `e` when v < 0 (30_encoding.md R93). -/
def checkNonneg (a : Word) (e : ErrKind) (s : State) (k : State → Out) : Out :=
  if a.toInt < 0 then raise e a s else k s

/-- `if SYMLIM != 257: raise ILLEGAL(SYMLIM_NOT_257, SYMLIM)` (60_exceptions.md R266). -/
def checkByteAlphabet (s : State) (k : State → Out) : Out :=
  if s.limit = 257 then k s else raise .symlimNot257 (s.symLim.setWidth 32) s

end Sys2Proof.Machine
end

