-- ==== Sys2Proof/Machine/Coding.lean ====
section
/-! DEFINITION. The coding procedures: the tree build (40_freq_table.md R110), the code table (41_code_tree.md R130),
lengths, Check() and ToTree() (42_canonical_code.md R150 to R152), Encode() and Decode() (43_codec.md R170, R171). -/

namespace Sys2Proof.Machine

/-! ## Build() (40_freq_table.md R110) -/

/-- An entry (w, r, t) of the queue Q; the weight is an exact integer. -/
structure Entry where
  w : Nat
  r : Nat
  t : CodeTree
  deriving DecidableEq, Repr

/-- (w, r) of `x` is below that of `y` in lexicographic order. -/
def Entry.before (x y : Entry) : Bool := Nat.blt x.w y.w || (Nat.beq x.w y.w && Nat.blt x.r y.r)

/-- The in-range symbols with their frequencies, ascending. -/
def freqCells (ft : Table Word) (lim : Nat) : List (Nat × Word) := (List.range lim).zip ft.toList

/-- Step 1: a leaf for every symbol with a positive frequency. -/
def buildLeaves (cells : List (Nat × Word)) : List Entry :=
  cells.filterMap fun c => if c.2 = 0 then none else some ⟨c.2.toNat, c.1, .leaf c.1⟩

/-- Step 2 for one symbol: padding while Q has fewer than two entries. -/
def padEntry (q : List Entry) (c : Nat × Word) : List Entry :=
  match q with
  | _ :: _ :: _ => q
  | _ => if c.2 = 0 then q ++ [⟨0, c.1, .leaf c.1⟩] else q

/-- ExtractMin(Q): the entry whose (w, r) is least, and the others. -/
def extractMin : List Entry → Option (Entry × List Entry)
  | [] => none
  | e :: q =>
    match extractMin q with
    | none => some (e, [])
    | some (m, rest) => bif e.before m then some (e, q) else some (m, e :: rest)

/-- The entry that replaces x and y: x, extracted first, is the 0-child. -/
def Entry.merge (x y : Entry) : Entry := ⟨x.w + y.w, min x.r y.r, .node x.t y.t⟩

/-- Steps 3 and 4: merge until one entry is left; `fuel` is |Q|, which each merge lessens by one. -/
def mergeAll : (fuel : Nat) → List Entry → Option CodeTree
  | 0, _ => none
  | fuel + 1, q =>
    match extractMin q with
    | none => none
    | some (x, q1) =>
      match extractMin q1 with
      | none => some x.t
      | some (y, q2) => mergeAll fuel (x.merge y :: q2)

/-- The queue after steps 1 and 2. -/
def buildQueue (ft : Table Word) (lim : Nat) : List Entry :=
  (freqCells ft lim).foldl padEntry (buildLeaves (freqCells ft lim))

/-- Build() over FT[0 .. lim-1]: none only for an empty queue, which 2 ≤ SYMLIM rules out (R111; log 9). -/
def buildTree (ft : Table Word) (lim : Nat) : Option CodeTree := mergeAll (buildQueue ft lim).length (buildQueue ft lim)

/-- `TREE <- Build()`. -/
def State.rebuild (s : State) : State := { s with tree := buildTree s.ft s.limit }

/-! ## The code table and the lengths (41_code_tree.md R130; 42_canonical_code.md R150) -/

/-- CODE(s): the path from the root to the leaf carrying s, false for bit 0 and true for bit 1 (41_code_tree.md R130). -/
def CodeTree.code : CodeTree → Nat → Option (List Bool)
  | .leaf x, sym => if x = sym then some [] else none
  | .node l r, sym =>
    match l.code sym with
    | some p => some (false :: p)
    | none =>
      match r.code sym with
      | some p => some (true :: p)
      | none => none

/-- The symbols of a tree's leaves, left to right. -/
def CodeTree.symbols : CodeTree → List Nat
  | .leaf x => [x]
  | .node l r => l.symbols ++ r.symbols

/-- Lengths(t)[sym]: the depth of sym's leaf, 0 where it has none (42_canonical_code.md R150). -/
def treeLength (t : Option CodeTree) (sym : Nat) : Nat :=
  match t with
  | none => 0
  | some t =>
    match t.code sym with
    | some p => p.length
    | none => 0

/-- The three checks of a symbol's code, in order: NO_TREE, RANGE(SYMBOL), NO_CODE (41_code_tree.md R132). -/
def withCode (sym : Nat) (s : State) (k : List Bool → State → Out) : Out :=
  match s.tree with
  | none => raise .noTree 0 s
  | some t =>
    checkSym sym s fun s =>
      match t.code sym with
      | none => raise .noCode (symWord sym) s
      | some c => k c s

/-- The word of a code that CT_GETCODE reads: `v[31 - j] <- c[32*widx + j]` (41_code_tree.md R133). -/
def codeWord (c : List Bool) (widx : Nat) : Word :=
  (List.range 32).foldl (fun v j => if c.getD (32 * widx + j) false then v ||| (1#32 <<< (31 - j)) else v) 0

/-! ## Check() (42_canonical_code.md R151) -/

/-- An error with its ERRINFO value. -/
abbrev Failure := ErrKind × Word

/-- `c` put into a list in descending order. -/
def insertDesc (c : Nat) : List Nat → List Nat
  | [] => [c]
  | x :: xs => if x ≤ c then c :: x :: xs else x :: insertDesc c xs

/-- A list sorted in descending order. -/
def sortDesc (l : List Nat) : List Nat := l.foldr insertDesc []

/-- `while c < level`: halve the node count at each level, from `level` up to `c`. -/
def climb (c : Nat) : (level n : Nat) → Except Failure Nat
  | 0, n => .ok n
  | level + 1, n =>
    if c < level + 1 then
      if n % 2 = 1 then .error (.oddLevel, BitVec.ofNat 32 (level + 1)) else climb c level (n / 2)
    else .ok n

/-- `for each c in L`: the level and the node count after the list is consumed. -/
def countLevels : List Nat → (level n : Nat) → Except Failure (Nat × Nat)
  | [], level, n => .ok (level, n)
  | c :: rest, level, n =>
    if c = 0 then .ok (level, n) else
    match climb c level n with
    | .error e => .error e
    | .ok n' => countLevels rest (min c level) (n' + 1)

/-- Check() over the lengths `L` (42_canonical_code.md R151). -/
def checkLengths (L : List Nat) : Except Failure Unit :=
  match countLevels (sortDesc L) ((sortDesc L).headD 0) 0 with
  | .error e => .error e
  | .ok (level, n) =>
    match climb 0 level n with
    | .error e => .error e
    | .ok n => if n < 1 then .error (.rootZero, 0) else if 1 < n then .error (.rootMany, BitVec.ofNat 32 n) else .ok ()

/-! ## ToTree() (42_canonical_code.md R152) -/

/-- The fresh leaves of depth `i`, in ascending symbol order. -/
def leavesAt (L : List Nat) (i : Nat) : List CodeTree :=
  L.zipIdx.filterMap fun c => if c.1 = i then some (.leaf c.2) else none

/-- The carried nodes paired two at a time, the first of each pair the 0-child. -/
def pairUp : List CodeTree → List CodeTree
  | a :: b :: rest => .node a b :: pairUp rest
  | _ => []

/-- `for i from m down to 0`: the nodes after iteration 0, or the odd node count met. -/
def treeLevels (L : List Nat) : (i : Nat) → List CodeTree → Except Nat (List CodeTree)
  | 0, nodes => if nodes.length % 2 = 1 then .error nodes.length else .ok (pairUp nodes)
  | i + 1, nodes =>
    if nodes.length % 2 = 1 then .error nodes.length else treeLevels L i (leavesAt L (i + 1) ++ pairUp nodes)

/-- ToTree() over the lengths `L`, or the |nodes| of FORMAT(BAD_LENGTHS, |nodes|). -/
def toTree (L : List Nat) : Except Nat CodeTree :=
  match treeLevels L (L.foldl max 0) [] with
  | .error n => .error n
  | .ok [t] => .ok t
  | .ok nodes => .error nodes.length

/-- `Check()` with what follows it. -/
def checking (k : State → Out) (s : State) : Out :=
  match checkLengths s.lengthList with
  | .error (e, info) => raise e info s
  | .ok () => k s

/-- `TREE <- ToTree()` with what follows it: TREE is unchanged on error (42_canonical_code.md R159). -/
def installing (k : State → Out) (s : State) : Out :=
  match toTree s.lengthList with
  | .error n => raise .badLengths (BitVec.ofNat 32 n) s
  | .ok t => k { s with tree := some t }

/-! ## Encode() and Decode() (43_codec.md R170, R171) -/

/-- The bits of sym's code put in order, up to the next PushOut; `k` follows the last bit. -/
def emitCode (sym : Nat) (k : State → Out) (bits : List Bool) (s : State) : Out :=
  match putBits bits s with
  | (s', none) => k s'
  | (s', some (v, rest)) => parkAt (.pushOut (.byte v) (.code sym rest)) s'

/-- Encode(sym) (43_codec.md R170). -/
def encodeSym (sym : Nat) (k : State → Out) (s : State) : Out := withCode sym s fun c s => emitCode sym k c s

/-- The walk of Decode() from a tree node, up to its PopIn; `k` takes the leaf's symbol. -/
def walk (k : Nat → State → Out) : CodeTree → State → Out
  | .leaf x, s => k x s
  | .node l r, s =>
    (getBit s).andThen (.popIn (.walk l r)) unexpectedEof fun b s' => if b then walk k r s' else walk k l s'

/-- The walk of Decode() resumed with the item its PopIn took. -/
def resumeWalk (k : Nat → State → Out) (l r : CodeTree) (it : Item) (s : State) : Out :=
  (gotItem it s).andThen (.popIn (.walk l r)) unexpectedEof fun b s' => if b then walk k r s' else walk k l s'

/-- Decode() (43_codec.md R171). -/
def decodeSym (k : Nat → State → Out) (s : State) : Out :=
  match s.tree with
  | none => raise .noTree 0 s
  | some t => walk k t s

end Sys2Proof.Machine
end

