-- ==== Sys2Proof/Machine/StaticProtocol.lean ====
section
/-! DEFINITION. The static coding protocol commands (45_static_protocol.md). -/

namespace Sys2Proof.Machine

/-- SC_SCAN (R200): one item of the session counted, or the session ended. -/
def scanItem (it : Item) (s : State) : Out :=
  match it with
  | .endItem => complete s
  | .byte b =>
    if s.freq b.toNat = 0xFFFFFFFF then raise .freq (symWord b.toNat) s
    else parkAt (.popIn .item) (s.setFreq b.toNat (s.freq b.toNat + 1))

/-- SC_SCAN (R200). -/
def execScScan (s : State) : Out :=
  match s.pos with
  | some .start => checkByteAlphabet s fun s => parkAt (.popIn .item) (s.fillFreq Config.maxSym 0)
  | some (.popIn .item) => popIn s scanItem
  | _ => .fault .badPosition

/-- The eight bits of a header entry, bit 7 first (R201; 20_memory.md R72). -/
def headerBits (v : BitVec 31) : List Bool := (List.range 8).map fun j => v.getLsbD (7 - j)

/-- SC_HEADER's loop (R201): the bits left of the current entry, then the `left` entries after it, up to the next
PushOut; the next entry is symbol 257 - `left`. -/
def emitHeader : (left : Nat) → List Bool → State → Out
  | 0, bits, s =>
    match putBits bits s with
    | (s', some (v, rest)) => parkAt (.pushOut (.byte v) (.header 0 rest)) s'
    | (s', none) => complete s'
  | left + 1, bits, s =>
    match putBits bits s with
    | (s', some (v, rest)) => parkAt (.pushOut (.byte v) (.header (left + 1) rest)) s'
    | (s', none) =>
      if Config.hdrLenLimit ≤ (s'.len (256 - left)).toNat then raise .codeTooLong (symWord (256 - left)) s'
      else emitHeader left (headerBits (s'.len (256 - left))) s'

/-- `if FT[256] == 0: FT[256] <- 1` (R201). -/
def State.forceEof (s : State) : State :=
  { s with ft := if s.freq Config.eofSym = 0 then tableSet s.ft Config.eofSym 1 else s.ft }

/-- CL <- Lengths(Build()) (R201). -/
def State.optimalLengths (s : State) : State := s.fillLen (treeLength (buildTree s.ft s.limit))

/-- SC_HEADER (R201). -/
def execScHeader (s : State) : Out :=
  match s.pos with
  | some .start => checkByteAlphabet s fun s => installing (emitHeader 257 []) s.resetBO.forceEof.optimalLengths
  | some (.pushOut it (.header left rest)) => pushOut it s (emitHeader left rest)
  | _ => .fault .badPosition

/-- What follows Encode(sym) in SC_ENCODE (R202): the next item, or CloseOut() after symbol 256. -/
def scEncoded (sym : Nat) (s : State) : Out := if sym = Config.eofSym then closeOut s else parkAt (.popIn .item) s

/-- SC_ENCODE (R202): one item of the session encoded; END is encoded as symbol 256. -/
def scEncodeItem (it : Item) (s : State) : Out :=
  match it with
  | .endItem => encodeSym Config.eofSym (scEncoded Config.eofSym) s
  | .byte b => encodeSym b.toNat (scEncoded b.toNat) s

/-- SC_ENCODE (R202). -/
def execScEncode (s : State) : Out :=
  match s.pos with
  | some .start => checkByteAlphabet s (parkAt (.popIn .item))
  | some (.popIn .item) => popIn s scEncodeItem
  | some (.pushOut it (.code sym rest)) => pushOut it s (emitCode sym (scEncoded sym) rest)
  | some (.pushOut it .pad) => pushOut it s closeOut
  | some (.pushOut it .close) => pushOut it s complete
  | _ => .fault .badPosition

/-- A header bit read by SD_DECODE (R203) with `left` bits after it: the length so far, and CL[s] once its eight bits
are read. -/
def headerBit (left v : Nat) (b : Bool) (s : State) : Nat × State :=
  if left % 8 = 0 then (0, s.setLen (256 - left / 8) (BitVec.ofNat 31 (2 * v + b.toNat))) else (2 * v + b.toNat, s)

/-- SD_DECODE's header loop (R203): `left` bits to read, `v` the length so far; `k` follows the last bit. -/
def readHeader (k : State → Out) : (left v : Nat) → State → Out
  | 0, _, s => k s
  | left + 1, v, s =>
    (getBit s).andThen (.popIn (.header left v)) unexpectedEof fun b s' =>
      readHeader k left (headerBit left v b s').1 (headerBit left v b s').2

/-- The end of both decoders after symbol 256 (R203): DrainIn() begins. -/
def startDrain (s : State) : Out := parkAt (.popIn .drain) s

/-- DrainIn() done in both decoders: PushOut(END) is next. -/
def drainDone (s : State) : Out := parkAt (.pushOut .endItem .finish) s

/-- The last step of both decoders: ResetBI(), complete. -/
def decodeDone (s : State) : Out := complete s.resetBI

/-- What follows Decode() in SD_DECODE (R203). -/
def sdDecoded (sym : Nat) (s : State) : Out :=
  if sym = Config.eofSym then startDrain s else parkAt (.pushOut (.byte (BitVec.ofNat 8 sym)) (.data sym)) s

/-- What follows the header in SD_DECODE (R203): Check(), ToTree(), the first Decode(). -/
def sdHeaderRead (s : State) : Out := checking (installing (decodeSym sdDecoded)) s

/-- SD_DECODE's header resumed with the item its PopIn took (R203). -/
def sdHeaderItem (left v : Nat) (it : Item) (s : State) : Out :=
  (gotItem it s).andThen (.popIn (.header left v)) unexpectedEof fun b s' =>
    readHeader sdHeaderRead left (headerBit left v b s').1 (headerBit left v b s').2

/-- SD_DECODE (R203): the header has 257 entries of 8 bits. -/
def execSdDecode (s : State) : Out :=
  match s.pos with
  | some .start => checkByteAlphabet s fun s => readHeader sdHeaderRead 2056 0 s.resetBI.resetBO
  | some (.popIn (.header left v)) => popIn s (sdHeaderItem left v)
  | some (.popIn (.walk l r)) => popIn s (resumeWalk sdDecoded l r)
  | some (.pushOut it (.data _)) => pushOut it s (decodeSym sdDecoded)
  | some (.popIn .drain) => popIn s (drained drainDone)
  | some (.pushOut it .finish) => pushOut it s decodeDone
  | _ => .fault .badPosition

end Sys2Proof.Machine
end

