-- ==== Sys2Proof/Machine/AdaptiveProtocol.lean ====
section
/-! DEFINITION. The adaptive coding protocol commands (46_adaptive_protocol.md). -/

namespace Sys2Proof.Machine

/-- IsPow2(n) (R220). -/
def isPow2 (n : Nat) : Bool := decide (1 ≤ n) && (n &&& (n - 1) == 0)

/-- CNT is a nonzero multiple of EPOCH (R220). -/
def epochEnds (n : Nat) : Bool := n != 0 && n % Config.epoch == 0

/-- Checkpoint() rebuilds at this count (R220, R221). -/
def rebuildsAt (n : Nat) : Bool := (decide (n < Config.epoch) && isPow2 n) || epochEnds n

/-- Checkpoint() (R220): the rebuild uses the table as it is, then a new epoch starts flat. -/
def State.checkpoint (s : State) : State :=
  { s with
    tree := if rebuildsAt s.cnt.toNat then buildTree s.ft s.limit else s.tree
    ft := if epochEnds s.cnt.toNat then tableFill Config.maxSym (fun _ => 1) s.ft else s.ft }

/-- The adaptive start state (R222, R223): the flat table, its tree, CNT = 0. -/
def State.adaptiveStart (s : State) : State := { (s.fillFreq Config.maxSym 1).rebuild with cnt := 0 }

/-- Step 1 of R222: one more occurrence of a symbol. -/
def State.countSym (sym : Nat) (s : State) : State := s.setFreq sym (s.freq sym + 1)

/-- A data symbol counted (R222, R223): CNT, its frequency, Checkpoint(); OVERFLOW(COUNT) at the limit of CNT. -/
def countData (sym : Nat) (k : State → Out) (s : State) : Out :=
  if s.cnt = 0xFFFFFFFFFFFFFFFF then raise .count 0 s
  else k (State.countSym sym { s with cnt := s.cnt + 1 }).checkpoint

/-- What follows Encode(sym) in AC_ENCODE (R222): after symbol 256 only step 1 runs. -/
def acEncoded (sym : Nat) (s : State) : Out :=
  if sym = Config.eofSym then closeOut (s.countSym Config.eofSym) else countData sym (parkAt (.popIn .item)) s

/-- AC_ENCODE (R222): one item of the session encoded; END is encoded as symbol 256. -/
def acEncodeItem (it : Item) (s : State) : Out :=
  match it with
  | .endItem => encodeSym Config.eofSym (acEncoded Config.eofSym) s
  | .byte b => encodeSym b.toNat (acEncoded b.toNat) s

/-- AC_ENCODE (R222). -/
def execAcEncode (s : State) : Out :=
  match s.pos with
  | some .start => checkByteAlphabet s fun s => parkAt (.popIn .item) s.resetBO.adaptiveStart
  | some (.popIn .item) => popIn s acEncodeItem
  | some (.pushOut it (.code sym rest)) => pushOut it s (emitCode sym (acEncoded sym) rest)
  | some (.pushOut it .pad) => pushOut it s closeOut
  | some (.pushOut it .close) => pushOut it s complete
  | _ => .fault .badPosition

/-- What follows Decode() in AD_DECODE (R223). -/
def adDecoded (sym : Nat) (s : State) : Out :=
  if sym = Config.eofSym then startDrain (s.countSym Config.eofSym)
  else parkAt (.pushOut (.byte (BitVec.ofNat 8 sym)) (.data sym)) s

/-- AD_DECODE (R223). -/
def execAdDecode (s : State) : Out :=
  match s.pos with
  | some .start => checkByteAlphabet s fun s => decodeSym adDecoded s.resetBI.resetBO.adaptiveStart
  | some (.popIn (.walk l r)) => popIn s (resumeWalk adDecoded l r)
  | some (.pushOut it (.data sym)) => pushOut it s (countData sym (decodeSym adDecoded))
  | some (.popIn .drain) => popIn s (drained drainDone)
  | some (.pushOut it .finish) => pushOut it s decodeDone
  | _ => .fault .badPosition

end Sys2Proof.Machine
end

