-- ==== Sys2Proof/Machine/BitStream.lean ====
section
/-! DEFINITION. The bit-stream adapter commands (44_bitstream.md). -/

namespace Sys2Proof.Machine

/-- BO_WRITE (R186). -/
def execBoWrite (s : State) : Out :=
  match s.pos with
  | some .start =>
    if s.argument ≠ 0 ∧ s.argument ≠ 1 then raise .bitValue s.argument s else
    match putBit (s.argument == 1) s with
    | (s', none) => complete s'
    | (s', some v) => parkAt (.pushOut (.byte v) .bit) s'
  | some (.pushOut it .bit) => pushOut it s complete
  | _ => .fault .badPosition

/-- BO_CLOSE (R187): CloseOut(), then complete. -/
def execBoClose (s : State) : Out :=
  match s.pos with
  | some .start => closeOut s
  | some (.pushOut it .pad) => pushOut it s closeOut
  | some (.pushOut it .close) => pushOut it s complete
  | _ => .fault .badPosition

/-- A bit in RESULT, then complete. -/
def readDone (b : Bool) (s : State) : Out := completeWith ((BitVec.ofBool b).setWidth 32) s

/-- The sentinel in RESULT, then complete (R188). -/
def readSentinel (s : State) : Out := completeWith 0xFFFFFFFF s

/-- BI_READ (R188). -/
def execBiRead (s : State) : Out :=
  match s.pos with
  | some .start => (getBit s).andThen (.popIn .bit) readSentinel readDone
  | some (.popIn .bit) => popIn s fun it s => (gotItem it s).andThen (.popIn .bit) readSentinel readDone
  | _ => .fault .badPosition

/-- BI_READ_NOEOF (R189). -/
def execBiReadNoeof (s : State) : Out :=
  match s.pos with
  | some .start => (getBit s).andThen (.popIn .bit) unexpectedEof readDone
  | some (.popIn .bit) => popIn s fun it s => (gotItem it s).andThen (.popIn .bit) unexpectedEof readDone
  | _ => .fault .badPosition

/-- STREAM_RESET (R190). -/
def execStreamReset (s : State) : Out :=
  atStart s fun _ s => complete s.resetBI.resetBO

/-- IN_SKIP (R191): DrainIn(), then complete. -/
def execInSkip (s : State) : Out :=
  match s.pos with
  | some .start => parkAt (.popIn .drain) s
  | some (.popIn .drain) => popIn s (drained complete)
  | _ => .fault .badPosition

end Sys2Proof.Machine
end

