-- ==== Sys2Proof/Machine/CanonicalCode.lean ====
section
/-! DEFINITION. The canonical code commands (42_canonical_code.md). -/

namespace Sys2Proof.Machine

/-- CL_GET (R155). -/
def execClGet (sym : Nat) (s : State) : Out :=
  atStart s fun _ s => checkSym sym s fun s => completeWith ((s.len sym).setWidth 32) s

/-- CL_SET (R156). -/
def execClSet (sym : Nat) (s : State) : Out :=
  atStart s fun a s => checkSym sym s fun s => checkNonneg a .negLen s fun s => complete (s.setLen sym (a.setWidth 31))

/-- CC_CHECK (R157). -/
def execCcCheck (s : State) : Out :=
  atStart s fun _ s => checking complete s

/-- CC_FROM_TREE (R158). -/
def execCcFromTree (s : State) : Out :=
  atStart s fun _ s =>
    match s.tree with
    | none => raise .noTree 0 s
    | some t => complete (s.fillLen (treeLength (some t)))

/-- CC_TO_TREE (R159). -/
def execCcToTree (s : State) : Out :=
  atStart s fun _ s => installing complete s

end Sys2Proof.Machine
end

