-- ==== Sys2Proof/Machine/CodeTree.lean ====
section
/-! DEFINITION. The code tree commands (41_code_tree.md). -/

namespace Sys2Proof.Machine

/-- CT_GETLEN (R132). -/
def execCtGetlen (sym : Nat) (s : State) : Out :=
  atStart s fun _ s => withCode sym s fun c s => completeWith (BitVec.ofNat 32 c.length) s

/-- CT_GETCODE (R133). -/
def execCtGetcode (sym widx : Nat) (s : State) : Out :=
  atStart s fun _ s => withCode sym s fun c s => completeWith (codeWord c widx) s

/-- CT_CLEAR (R134). -/
def execCtClear (s : State) : Out :=
  atStart s fun _ s => complete { s with tree := none }

end Sys2Proof.Machine
end

