-- ==== Sys2Proof/Machine/Codec.lean ====
section
/-! DEFINITION. The symbol encoder and decoder commands (43_codec.md). -/

namespace Sys2Proof.Machine

/-- ENC_SYM (R172): Encode(sym), then complete. -/
def execEncSym (sym : Nat) (s : State) : Out :=
  match s.pos with
  | some .start => encodeSym sym complete s
  | some (.pushOut it (.code sym' rest)) => pushOut it s (emitCode sym' complete rest)
  | _ => .fault .badPosition

/-- RESULT <- the decoded symbol, then complete. -/
def decSymDone (sym : Nat) (s : State) : Out := completeWith (symWord sym) s

/-- DEC_SYM (R173): Decode(), then RESULT and complete. -/
def execDecSym (s : State) : Out :=
  match s.pos with
  | some .start => decodeSym decSymDone s
  | some (.popIn (.walk l r)) => popIn s (resumeWalk decSymDone l r)
  | _ => .fault .badPosition

end Sys2Proof.Machine
end

