-- ==== Sys2Proof/Machine/Control.lean ====
section
/-! DEFINITION. The control commands (47_control.md). -/

namespace Sys2Proof.Machine

/-- NOP (R240). -/
def execNop (s : State) : Out := atStart s fun _ s => complete s

/-- ERR_CLEAR (R241). -/
def execErrClear (s : State) : Out := atStart s fun _ s => complete s.clearError

/-- A new symbol limit with empty tables (R242). -/
def State.withLimit (a : Word) (s : State) : State :=
  { (s.fillFreq Config.maxSym 0) with
    symLim := a.setWidth 9, cl := tableFill Config.maxSym (fun _ => 0) s.cl, tree := none, cnt := 0 }

/-- SET_SYMLIM (R242). -/
def execSetSymlim (s : State) : Out :=
  atStart s fun a s =>
    if a.toNat < 2 then raise .tooFewSymbols a s
    else if Config.maxSym < a.toNat then raise .capacity a s
    else complete (s.withLimit a)

end Sys2Proof.Machine
end

