-- ==== Sys2Proof/Machine/FreqTable.lean ====
section
/-! DEFINITION. The frequency table commands (40_freq_table.md). -/

namespace Sys2Proof.Machine

/-- FT_FILL (R112). -/
def execFtFill (s : State) : Out :=
  atStart s fun a s => checkNonneg a .negFreq s fun s => complete (s.fillFreq s.limit a)

/-- FT_GET (R113). -/
def execFtGet (sym : Nat) (s : State) : Out :=
  atStart s fun _ s => checkSym sym s fun s => completeWith (s.freq sym) s

/-- FT_SET (R114). -/
def execFtSet (sym : Nat) (s : State) : Out :=
  atStart s fun a s => checkSym sym s fun s => checkNonneg a .negFreq s fun s => complete (s.setFreq sym a)

/-- FT_INC (R115). -/
def execFtInc (sym : Nat) (s : State) : Out :=
  atStart s fun _ s => checkSym sym s fun s =>
    if s.freq sym = 0xFFFFFFFF then raise .freq (symWord sym) s else complete (s.setFreq sym (s.freq sym + 1))

/-- FT_BUILD (R116). -/
def execFtBuild (s : State) : Out :=
  atStart s fun _ s => complete s.rebuild

end Sys2Proof.Machine
end

