-- ==== Sys2Proof/Machine/Dispatch.lean ====
section
/-! DEFINITION. One engine step of a command: its segment from the sequencer's position (20_memory.md R69). -/

namespace Sys2Proof.Machine

-- Each arm runs one segment of the command the sequencer holds.
def exec (i : Instr) (s : State) : Host.Outcome State Fault Refusal :=
  match i with
  | .ftFill => Sys2Proof.Machine.execFtFill s
  | .ftGet sym => Sys2Proof.Machine.execFtGet sym s
  | .ftSet sym => Sys2Proof.Machine.execFtSet sym s
  | .ftInc sym => Sys2Proof.Machine.execFtInc sym s
  | .ftBuild => Sys2Proof.Machine.execFtBuild s
  | .ctGetlen sym => Sys2Proof.Machine.execCtGetlen sym s
  | .ctGetcode sym widx => Sys2Proof.Machine.execCtGetcode sym widx s
  | .ctClear => Sys2Proof.Machine.execCtClear s
  | .clGet sym => Sys2Proof.Machine.execClGet sym s
  | .clSet sym => Sys2Proof.Machine.execClSet sym s
  | .ccCheck => Sys2Proof.Machine.execCcCheck s
  | .ccFromTree => Sys2Proof.Machine.execCcFromTree s
  | .ccToTree => Sys2Proof.Machine.execCcToTree s
  | .encSym sym => Sys2Proof.Machine.execEncSym sym s
  | .decSym => Sys2Proof.Machine.execDecSym s
  | .boWrite => Sys2Proof.Machine.execBoWrite s
  | .boClose => Sys2Proof.Machine.execBoClose s
  | .biRead => Sys2Proof.Machine.execBiRead s
  | .biReadNoeof => Sys2Proof.Machine.execBiReadNoeof s
  | .streamReset => Sys2Proof.Machine.execStreamReset s
  | .inSkip => Sys2Proof.Machine.execInSkip s
  | .scScan => Sys2Proof.Machine.execScScan s
  | .scHeader => Sys2Proof.Machine.execScHeader s
  | .scEncode => Sys2Proof.Machine.execScEncode s
  | .sdDecode => Sys2Proof.Machine.execSdDecode s
  | .acEncode => Sys2Proof.Machine.execAcEncode s
  | .adDecode => Sys2Proof.Machine.execAdDecode s
  | .nop => Sys2Proof.Machine.execNop s
  | .errClear => Sys2Proof.Machine.execErrClear s
  | .setSymlim => Sys2Proof.Machine.execSetSymlim s

end Sys2Proof.Machine
end

