-- ==== Sys2Proof/Machine/Flags.lean ====
section
/-! DEFINITION. STATUS and the other computed registers (10_state.md R37 to R42). -/

namespace Sys2Proof.Machine

/-- BUSY: the sequencer is RUNNING (10_state.md R35, R37). -/
def State.busy (s : State) : Bool :=
  match s.seq with
  | .idle => false
  | .running _ _ _ => true

/-- WAIT_IN: the sequencer is at a PopIn and IN is empty (10_state.md R37). -/
def State.waitIn (s : State) : Bool :=
  match s.pos with
  | some (.popIn _) => s.inQ.isEmpty
  | _ => false

/-- WAIT_OUT: the sequencer is at a PushOut and OUT is full (10_state.md R37; 20_memory.md R67). -/
def State.waitOut (s : State) : Bool :=
  match s.pos with
  | some (.pushOut _ _) => !decide (s.outQ.length < Config.outDepth)
  | _ => false

/-- TREE_VALID: TREE ≠ none (10_state.md R37). -/
def State.treeValid (s : State) : Bool := s.tree.isSome

/-- The engine has a step: RUNNING, and not waiting at a blocking point (70_reset_and_hazards.md R298). -/
def State.engineEnabled (s : State) : Bool := s.busy && !s.waitIn && !s.waitOut

/-- STATUS (10_state.md R37), its fields from bit 31 down to bit 0. -/
def State.status (s : State) : Word :=
  (0#1 ++ BitVec.ofNat 4 s.biNrem.val ++ BitVec.ofNat 3 s.boNbits.val ++ s.curOp ++ s.errDetail ++ s.errCode ++
    0#1 ++ BitVec.ofBool s.inOvf ++ BitVec.ofBool s.biEof ++ BitVec.ofBool s.treeValid ++ BitVec.ofBool s.waitOut ++
    BitVec.ofBool s.waitIn ++ BitVec.ofBool s.err ++ BitVec.ofBool s.busy : BitVec 32)

/-- CONFIG (10_state.md R41): FREQ_BITS in bits 23:16, SYMLIM in bits 8:0. -/
def State.config (s : State) : Word :=
  (0#8 ++ BitVec.ofNat 8 Config.freqBits ++ 0#7 ++ s.symLim : BitVec 32)

/-- COUNT_LO (10_state.md R40). -/
def State.countLo (s : State) : Word := s.cnt.extractLsb' 0 32

/-- COUNT_HI (10_state.md R40). -/
def State.countHi (s : State) : Word := s.cnt.extractLsb' 32 32

/-- IN_LEVEL or OUT_LEVEL over a queue of `n` items (10_state.md R42; 20_memory.md R65). DESIGN CHOICE: a number of items
that does not fit 32 bits reads as a free value (log 12). -/
def levelWord (n : Nat) : Word := if n < 2 ^ 32 then BitVec.ofNat 32 n else Config.longLevel n

end Sys2Proof.Machine
end

