-- ==== Sys2Proof/Machine/Window.lean ====
section
/-! DEFINITION. The register window: host accesses, command acceptance and reset (10_state.md R32 to R43; 20_memory.md
R60 to R65, R68; 70_reset_and_hazards.md R290, R291). -/

namespace Sys2Proof.Machine

/-! ## The register map (10_state.md R43) -/

abbrev offCmd : Nat := 0x00
abbrev offArg : Nat := 0x04
abbrev offResult : Nat := 0x08
abbrev offStatus : Nat := 0x0C
abbrev offErrInfo : Nat := 0x10
abbrev offConfig : Nat := 0x14
abbrev offCountLo : Nat := 0x18
abbrev offCountHi : Nat := 0x1C
abbrev offInPush : Nat := 0x20
abbrev offInLevel : Nat := 0x24
abbrev offOutPop : Nat := 0x28
abbrev offOutLevel : Nat := 0x2C
abbrev offCtrl : Nat := 0x30

/-- The size of the window in bytes (20_memory.md R78). -/
abbrev windowBytes : Nat := 64

/-- The address of the register at an offset (20_memory.md R60). -/
def regAddress (off : Nat) : Nat := Config.hcBase + off

/-- The offset an address has in the window, none outside it (20_memory.md R78). -/
def windowOffset (addr : Nat) : Option Nat :=
  if Config.hcBase ≤ addr ∧ addr < Config.hcBase + windowBytes then some (addr - Config.hcBase) else none

/-! ## Effects of the accesses -/

/-- The sequencer started on a command word with ARG latched (20_memory.md R68). -/
def State.accept (w : Word) (s : State) : State := { s with curOp := w.setWidth 8, seq := .running w s.arg .start }

/-- A CMD write (20_memory.md R68): ignored while BUSY, and while ERR = 1 unless it is the ERR_CLEAR word. -/
def State.writeCmd (w : Word) (s : State) : State :=
  if s.busy then s else if s.err && w != 0x00000001 then s else s.accept w

/-- An IN_PUSH write (20_memory.md R63). -/
def State.pushIn (v : Word) (s : State) : State :=
  if s.inQ.length = Config.inDepth then { s with inOvf := true }
  else if v.getLsbD 8 then { s with inQ := s.inQ ++ [.endItem] }
  else { s with inQ := s.inQ ++ [.byte (v.setWidth 8)] }

/-- An item as OUT_POP reads it (20_memory.md R64). -/
def Item.word : Item → Word
  | .endItem => 0x00000100
  | .byte b => b.setWidth 32

/-- An OUT_POP read (20_memory.md R64). -/
def State.popOut (s : State) : Word × State :=
  match s.outQ with
  | [] => (0x80000000, s)
  | it :: rest => (it.word, { s with outQ := rest })

/-- The block reset (70_reset_and_hazards.md R290): every piece of its state at the reset value. The script, the reads
and the draws are the host's side, not the block's, and go on. -/
def State.resetBlock (s : State) : State :=
  { State.reset with script := s.script, reads := s.reads, draws := s.draws }

/-- A CTRL write (10_state.md R39; 70_reset_and_hazards.md R291). -/
def State.writeCtrl (v : Word) (s : State) : State := if v.getLsbD 0 then s.resetBlock else s

/-- An aligned 32-bit read at an offset of the window: the value, and the state after its side effect. Write-only
registers and reserved offsets read 0 (10_state.md R43; 20_memory.md R60, R75). A queue level that does not fit 32 bits
reads as a free value (log 12). -/
def readReg (off : Nat) (s : State) : Word × State :=
  match off with
  | 0x04 => (s.arg, s)
  | 0x08 => (s.result, s)
  | 0x0C => (s.status, s)
  | 0x10 => (s.errInfo, s)
  | 0x14 => (s.config, s)
  | 0x18 => (s.countLo, s)
  | 0x1C => (s.countHi, s)
  | 0x24 => (levelWord s.inQ.length, s)
  | 0x28 => s.popOut
  | 0x2C => (levelWord s.outQ.length, s)
  | _ => (0, s)

/-- An aligned 32-bit write at an offset of the window: read-only registers and reserved offsets ignore it
(10_state.md R43; 20_memory.md R60, R75). -/
def writeReg (off : Nat) (v : Word) (s : State) : State :=
  match off with
  | 0x00 => s.writeCmd v
  | 0x04 => { s with arg := v }
  | 0x20 => s.pushIn v
  | 0x30 => s.writeCtrl v
  | _ => s

/-- What a host read returned, recorded for the host (70_reset_and_hazards.md R299; log 1). -/
def State.record (off : Nat) (v : Word) (s : State) : State := { s with reads := s.reads ++ [(off, v)] }

/-- One access of the host (20_memory.md R60): a read of another size or alignment draws a free value without side
effect (log 4), a write of that kind has no effect, and an offset outside the window is a fault (log 6). -/
def hostAccess (a : Access) (s : State) : Out :=
  match a with
  | .read off size =>
    if windowBytes ≤ off then .fault .outsideWindow
    else if size = 4 ∧ off % 4 = 0 then .next ((readReg off s).2.record off (readReg off s).1)
    else .next { s.record off (Config.busDraw s.draws) with draws := s.draws + 1 }
  | .write off size v =>
    if windowBytes ≤ off then .fault .outsideWindow
    else if size = 4 ∧ off % 4 = 0 then .next (writeReg off v s)
    else .next s

end Sys2Proof.Machine
end

