-- ==== Sys2Proof/Machine/Engine.lean ====
section
/-! DEFINITION. The engine's step, and whose turn it is (20_memory.md R61, R69; 30_encoding.md R98). -/

namespace Sys2Proof.Machine

/-- The engine's step: the running word is decoded, then its segment runs; a word that is no command raises ILLEGAL
(30_encoding.md R98). The word never changes (20_memory.md R77), so decoding it at each segment gives what its first
segment got (log 11). With the sequencer IDLE the engine has no step. -/
def engineStep (s : State) : Out :=
  match s.seq with
  | .idle => .next s
  | .running w _ _ =>
    match decode w with
    | .error .opcode => raise .opcode w s
    | .error .reserved => raise .reserved w s
    | .ok i => exec i s

/-- One poll of the host's `wait` (30_encoding.md R99; log 3): STATUS is read, and while BUSY = 1 the engine gets a turn
and the host polls again. -/
def pollStatus (rest : List Turn) (s : State) : Out :=
  .next { s.record offStatus s.status with script := if s.busy then .engine :: .poll :: rest else rest }

/-- One try of the host's `push` (30_encoding.md R99, R100; log 3): the IN_PUSH write is made when IN has room; while IN is
full the engine gets a turn and the host tries again. -/
def pushTurn (v : Word) (rest : List Turn) (s : State) : Out :=
  if s.inQ.length < Config.inDepth then hostAccess (.write offInPush 4 v) s
  else .next { s with script := .engine :: .push v :: rest }

/-- One step of the machine: the agent the script names moves, the engine once the script is empty (log 1). -/
def takeTurn (s : State) : Out :=
  match s.script with
  | [] => engineStep s
  | .engine :: rest => engineStep { s with script := rest }
  | .host a :: rest => hostAccess a { s with script := rest }
  | .push v :: rest => pushTurn v rest { s with script := rest }
  | .poll :: rest => pollStatus rest s
  | .resetInput :: rest => .next { s with script := rest }.resetBlock

/-- A state about to run a command word: accepted as by a CMD write, with the engine's turn next (log 10). -/
def State.withCommand (w : Word) (s : State) : State := { s.accept w with script := .engine :: s.script }

end Sys2Proof.Machine
end

