-- ==== Sys2Proof/Machine/Step.lean ====
section
/-! DEFINITION. The machine's step, and the host's way to place an instruction. -/

namespace Sys2Proof.Machine

/-- One step: one host access or one engine segment (20_memory.md R61). -/
def step (s : State) : Host.Outcome State Fault Refusal := takeTurn s

/-- The state whose next step runs the word `w` (log 10). -/
def State.withFetchWord (s : State) (nbits w : Nat) : State := s.withCommand (BitVec.ofNat 32 (w % 2 ^ nbits))

end Sys2Proof.Machine
end

