-- ==== Sys2Proof/Safety.lean ====
section
/-! DEFINITION. What a legal state is, in the terms the statements use: the invariants of 10_state.md and the
sequencer's positions (10_state.md R35). -/

namespace Sys2Proof.Machine

/-- The six protocol commands, which run only with SYMLIM = 257 (60_exceptions.md R266). -/
def isProtocol : Instr → Bool
  | .scScan | .scHeader | .scEncode | .sdDecode | .acEncode | .adDecode => true
  | .ftFill | .ftGet _ | .ftSet _ | .ftInc _ | .ftBuild | .ctGetlen _ | .ctGetcode _ _ | .ctClear | .clGet _
  | .clSet _ | .ccCheck | .ccFromTree | .ccToTree | .encSym _ | .decSym | .boWrite | .boClose | .biRead
  | .biReadNoeof | .streamReset | .inSkip | .nop | .errClear | .setSymlim => false

/-- The PopIn points of each command. -/
def hasPop (i : Instr) (k : PopPoint) : Bool :=
  match i with
  | .decSym => match k with | .walk _ _ => true | .item | .bit | .drain | .header _ _ => false
  | .biRead | .biReadNoeof => match k with | .bit => true | .item | .drain | .header _ _ | .walk _ _ => false
  | .inSkip => match k with | .drain => true | .item | .bit | .header _ _ | .walk _ _ => false
  | .scScan | .scEncode | .acEncode => match k with | .item => true | .bit | .drain | .header _ _ | .walk _ _ => false
  | .sdDecode => match k with | .header _ _ | .walk _ _ | .drain => true | .item | .bit => false
  | .adDecode => match k with | .walk _ _ | .drain => true | .item | .bit | .header _ _ => false
  | .ftFill | .ftGet _ | .ftSet _ | .ftInc _ | .ftBuild | .ctGetlen _ | .ctGetcode _ _ | .ctClear | .clGet _
  | .clSet _ | .ccCheck | .ccFromTree | .ccToTree | .encSym _ | .boWrite | .boClose | .streamReset | .scHeader
  | .nop | .errClear | .setSymlim => false

/-- The PushOut points of each command. -/
def hasPush (i : Instr) (k : PushPoint) : Bool :=
  match i with
  | .encSym _ => match k with
    | .code _ _ => true
    | .bit | .pad | .close | .header _ _ | .data _ | .finish => false
  | .boWrite => match k with
    | .bit => true
    | .pad | .close | .code _ _ | .header _ _ | .data _ | .finish => false
  | .boClose => match k with
    | .pad | .close => true
    | .bit | .code _ _ | .header _ _ | .data _ | .finish => false
  | .scHeader => match k with
    | .header _ _ => true
    | .bit | .pad | .close | .code _ _ | .data _ | .finish => false
  | .scEncode | .acEncode => match k with
    | .code _ _ | .pad | .close => true
    | .bit | .header _ _ | .data _ | .finish => false
  | .sdDecode | .adDecode => match k with
    | .data _ | .finish => true
    | .bit | .pad | .close | .code _ _ | .header _ _ => false
  | .ftFill | .ftGet _ | .ftSet _ | .ftInc _ | .ftBuild | .ctGetlen _ | .ctGetcode _ _ | .ctClear | .clGet _
  | .clSet _ | .ccCheck | .ccFromTree | .ccToTree | .decSym | .biRead | .biReadNoeof | .streamReset | .inSkip
  | .scScan | .nop | .errClear | .setSymlim => false

/-- The positions a command has: its start and its blocking points (10_state.md R35). -/
def hasPos (i : Instr) : Pos → Bool
  | .start => true
  | .popIn k => hasPop i k
  | .pushOut _ k => hasPush i k

/-- SYMLIM is legal (10_state.md R22). -/
def LimitLegal (s : State) : Prop := 2 ≤ s.limit ∧ s.limit ≤ 257

/-- A running command stands at one of its positions, and a protocol command past its start has SYMLIM = 257
(10_state.md R35; 60_exceptions.md R266). -/
def SeqLegal (s : State) : Prop :=
  match s.seq with
  | .idle => True
  | .running w _ p => p = .start ∨ ∃ i, decode w = .ok i ∧ hasPos i p = true ∧ (isProtocol i = true → s.limit = 257)

/-- Table entries at or above SYMLIM hold 0 (10_state.md R23, R24). -/
def TablesClear (s : State) : Prop := ∀ k, s.limit ≤ k → s.freq k = 0 ∧ s.len k = 0

/-- A tree that may be active: the root is internal, no symbol has two leaves, every symbol is in range
(10_state.md R27). -/
def CodeTree.Legal (lim : Nat) (t : CodeTree) : Prop :=
  (∃ l r, t = .node l r) ∧ t.symbols.Nodup ∧ ∀ x ∈ t.symbols, x < lim

/-- The active tree is legal (10_state.md R27). -/
def TreeLegal (s : State) : Prop := ∀ t, s.tree = some t → t.Legal s.limit

/-- Only the low BO_NBITS bits of BO_BUF can be nonzero (10_state.md R30). -/
def CursorClean (s : State) : Prop := s.boBuf.toNat < 2 ^ s.boNbits.val

/-- While ERR = 0 the error fields are 0 (10_state.md R34), and while ERR = 1 nothing runs but ERR_CLEAR
(60_exceptions.md R267). -/
def ErrorLegal (s : State) : Prop :=
  (s.err = false → s.errCode = 0 ∧ s.errDetail = 0 ∧ s.errInfo = 0) ∧
  (s.err = true → s.seq = .idle ∨ ∃ a, s.seq = .running 0x00000001 a .start)

/-- The queues hold at most IN_DEPTH and OUT_DEPTH items (20_memory.md R62). -/
def QueuesFit (s : State) : Prop := s.inQ.length ≤ Config.inDepth ∧ s.outQ.length ≤ Config.outDepth

/-- Every invariant of a state that a run reaches. -/
def Inv (s : State) : Prop :=
  LimitLegal s ∧ SeqLegal s ∧ TablesClear s ∧ TreeLegal s ∧ CursorClean s ∧ ErrorLegal s ∧ QueuesFit s

/-- The state an error of class code `code` and detail code `detail` leaves: recorded, the command ended, everything
else as it was (60_exceptions.md R262, R265). -/
def State.withError (s : State) (code detail : BitVec 4) (info : Word) : State :=
  { s with err := true, errCode := code, errDetail := detail, errInfo := info, seq := .idle }

/-- The launch premises of a claim (70_reset_and_hazards.md R295): nothing in flight and no error. -/
def LaunchReady (s : State) : Prop := s.err = false ∧ s.seq = .idle ∧ s.inOvf = false

/-- A run has ended: the host has made its last step and the sequencer is IDLE (70_reset_and_hazards.md R299). -/
def RunEnded (s : State) : Prop := s.script = [] ∧ s.seq = .idle

/-- Two states that differ in the bit input cursor alone (10_state.md R31). -/
def SameButBI (s t : State) : Prop := t = { s with biByte := t.biByte, biNrem := t.biNrem, biEof := t.biEof }

/-- Two states that differ in the bit output cursor alone (10_state.md R30). -/
def SameButBO (s t : State) : Prop := t = { s with boBuf := t.boBuf, boNbits := t.boNbits }

/-- The unread bits of BI_BYTE, first read first (10_state.md R31). -/
def State.unreadBits (s : State) : List Bool := (List.range s.biNrem.val).map fun j => s.biByte.getLsbD (s.biNrem.val - 1 - j)

/-- The pending bits of the output stream, first written first (10_state.md R30). -/
def State.pendingBits (s : State) : List Bool :=
  (List.range s.boNbits.val).map fun j => s.boBuf.getLsbD (s.boNbits.val - 1 - j)

/-- The eight bits of a byte in stream order, bit 7 first (20_memory.md R71). -/
def byteBits (b : Byte) : List Bool := (List.range 8).map fun j => b.getLsbD (7 - j)

/-- The Kraft sum of a list of code lengths over its positive entries (42_canonical_code.md R153). -/
def kraftSum (L : List Nat) : ℚ := ((L.filter (fun l => 0 < l)).map fun l => (1 / 2 : ℚ) ^ l).sum

/-! ## What the statements say of codes and lengths -/

/-- The symbol a protocol encodes for an item: its byte, or EOF_SYM for END (45_static_protocol.md R202). -/
def Item.sym : Item → Nat
  | .byte b => b.toNat
  | .endItem => 256

/-- The node a path leads to from a tree's root, none past a leaf (41_code_tree.md R130). -/
def CodeTree.follow : CodeTree → List Bool → Option CodeTree
  | t, [] => some t
  | .node l _, false :: p => l.follow p
  | .node _ r, true :: p => r.follow p
  | .leaf _, _ :: _ => none

/-- A code read as a binary number, first bit highest (42_canonical_code.md R154). -/
def bitsValue (c : List Bool) : Nat := c.foldl (fun v b => 2 * v + b.toNat) 0

/-- Symbols in ascending order of (CL[s], s) (42_canonical_code.md R154). -/
def State.lengthBefore (s : State) (x y : Nat) : Prop :=
  (s.len x).toNat < (s.len y).toNat ∨ ((s.len x).toNat = (s.len y).toNat ∧ x < y)

/-- The canonical assignment of 42_canonical_code.md R154: among the symbols with a positive length, in ascending order
of (CL[s], s), the first has a code of zeros, and the code of `y` that follows `x` is that of `x` plus one, shifted left
by the difference of their lengths. -/
def CanonicalCodes (s : State) (tr : CodeTree) : Prop :=
  (∀ x, x < s.limit → 0 < (s.len x).toNat →
    (∀ z, z < s.limit → 0 < (s.len z).toNat → ¬ s.lengthBefore z x) →
    tr.code x = some (List.replicate (s.len x).toNat false)) ∧
  (∀ x y, x < s.limit → y < s.limit → 0 < (s.len x).toNat → s.lengthBefore x y →
    (∀ z, z < s.limit → 0 < (s.len z).toNat → ¬ (s.lengthBefore x z ∧ s.lengthBefore z y)) →
    ∃ cx cy, tr.code x = some cx ∧ tr.code y = some cy ∧
      bitsValue cy = (bitsValue cx + 1) * 2 ^ ((s.len y).toNat - (s.len x).toNat))

/-- The codes of the flat tree (46_adaptive_protocol.md R226). -/
def FlatCodes (tr : CodeTree) : Prop :=
  (∀ k, 2 ≤ k → k ≤ 256 → tr.code k = some (byteBits (BitVec.ofNat 8 (k - 2)))) ∧
  tr.code 0 = some (List.replicate 8 true ++ [false]) ∧ tr.code 1 = some (List.replicate 9 true)

/-- The number of nodes at depth `d` that the positive lengths of `L` ask for: a leaf of that depth is one, a deeper leaf
its share of the node above it, so the sum is exact where every deeper level is even (42_canonical_code.md R151). -/
def levelSum (L : List Nat) (d : Nat) : ℚ := ((L.filter (fun l => 0 < l ∧ d ≤ l)).map fun l => (1 / 2 : ℚ) ^ (l - d)).sum

/-- Level `d`, not the root's, is the deepest with an odd number of nodes, and it has `n` (42_canonical_code.md R151, R152). -/
def DeepestOdd (L : List Nat) (d n : Nat) : Prop :=
  0 < d ∧ levelSum L d = n ∧ n % 2 = 1 ∧ ∀ e, d < e → ∃ k : Nat, levelSum L e = 2 * k

/-- Every level below the root is even, and the root level has `n` nodes (42_canonical_code.md R151, R152). -/
def RootNodes (L : List Nat) (n : Nat) : Prop := levelSum L 0 = n ∧ ∀ e, 0 < e → ∃ k : Nat, levelSum L e = 2 * k

/-- The error Check() raises over lengths `L`, by its ERRDETAIL and ERRINFO (42_canonical_code.md R151;
60_exceptions.md R261, R263): ODD_LEVEL at the deepest level above the root with an odd number of nodes, ROOT_ZERO
where no length is positive, ROOT_MANY where every level is even and the root level has several nodes. -/
def CheckFails (L : List Nat) (detail : BitVec 4) (info : Word) : Prop :=
  (detail = 4 ∧ ∃ d n, DeepestOdd L d n ∧ info = BitVec.ofNat 32 d) ∨
  (detail = 5 ∧ (∀ l ∈ L, l = 0) ∧ info = 0) ∨
  (detail = 6 ∧ ∃ n, 1 < n ∧ RootNodes L n ∧ info = BitVec.ofNat 32 n)

/-- The list length |nodes| with which ToTree() raises BAD_LENGTHS over lengths `L` (42_canonical_code.md R152;
60_exceptions.md R263): that of the deepest odd level, or that of the root where it is not 1. -/
def BadLengths (L : List Nat) (n : Nat) : Prop := (∃ d, DeepestOdd L d n) ∨ (n ≠ 1 ∧ RootNodes L n)

/-! ## What the statements say of a segment, from the state its blocking point leaves -/

/-- The bits of sym's code put from state `s` by command word `w` with argument `a` (43_codec.md R170; 44_bitstream.md
R180): they join the pending bits where they fill no byte, and `done` says what follows; otherwise the segment ends at
the PushOut of the byte of the first eight, the rest of the bits still to put. -/
def PutOutcome (w a : Word) (sym : Nat) (bits : List Bool) (s : State) (done : State → State → Prop) (t : State) :
    Prop :=
  (s.boNbits.val + bits.length < 8 →
    ∃ u, SameButBO s u ∧ u.pendingBits = s.pendingBits ++ bits ∧ done u t) ∧
  (8 ≤ s.boNbits.val + bits.length → ∃ v rest, byteBits v ++ rest = s.pendingBits ++ bits ∧
    t = { s with boBuf := 0, boNbits := 0, seq := .running w a (.pushOut (.byte v) (.code sym rest)) })

/-- CloseOut() from state `s` (44_bitstream.md R181): the segment ends at the PushOut of END, or of the pending bits
padded with 0 bits to a byte. -/
def CloseOutcome (w a : Word) (s t : State) : Prop :=
  (s.boNbits = 0 → t = { s with seq := .running w a (.pushOut .endItem .close) }) ∧
  (s.boNbits ≠ 0 → ∃ v, byteBits v = s.pendingBits ++ List.replicate (8 - s.boNbits.val) false ∧
    t = { s with boBuf := 0, boNbits := 0, seq := .running w a (.pushOut (.byte v) .pad) })

/-- The walk of Decode() from tree `tr` over the unread bits `bits` (43_codec.md R171): a path of them that leads to a
leaf is consumed, and `done` says what follows with its symbol; bits that end inside the tree are all consumed, and the
segment ends at the PopIn there. -/
def WalkOutcome (w a : Word) (tr : CodeTree) (bits : List Bool) (s : State) (done : Nat → State → State → Prop)
    (t : State) : Prop :=
  (∀ p x, p <+: bits → tr.follow p = some (.leaf x) →
    ∃ u, u = { s with biNrem := u.biNrem } ∧ u.unreadBits = bits.drop p.length ∧ done x u t) ∧
  (∀ l r, tr.follow bits = some (.node l r) →
    t = { s with biNrem := 0, seq := .running w a (.popIn (.walk l r)) })

/-- One more occurrence of a symbol in FT, nothing else changed (46_adaptive_protocol.md R222). -/
def FreqAdded (sym : Nat) (s t : State) : Prop :=
  t = { s with ft := t.ft } ∧ t.freq sym = s.freq sym + 1 ∧ ∀ k, k ≠ sym → t.freq k = s.freq k

/-- A data symbol counted in CNT and FT (46_adaptive_protocol.md R222, R223). -/
def DataCounted (sym : Nat) (s t : State) : Prop := FreqAdded sym { s with cnt := s.cnt + 1 } t

/-- What follows Encode(sym) in SC_ENCODE (45_static_protocol.md R202). -/
def ScEncoded (w a : Word) (sym : Nat) (s t : State) : Prop :=
  (sym ≠ 256 → t = { s with seq := .running w a (.popIn .item) }) ∧ (sym = 256 → CloseOutcome w a s t)

/-- What follows Encode(sym) in AC_ENCODE (46_adaptive_protocol.md R222). -/
def AcEncoded (w a : Word) (sym : Nat) (s t : State) : Prop :=
  (sym ≠ 256 →
    (s.cnt = 0xFFFFFFFFFFFFFFFF → t = s.withError 6 2 0) ∧
    (s.cnt ≠ 0xFFFFFFFFFFFFFFFF →
      ∃ u, DataCounted sym s u ∧ t = { u.checkpoint with seq := .running w a (.popIn .item) })) ∧
  (sym = 256 → ∃ u, FreqAdded 256 s u ∧ CloseOutcome w a u t)

/-- What follows Decode() in SD_DECODE (45_static_protocol.md R203). -/
def SdDecoded (w a : Word) (sym : Nat) (s t : State) : Prop :=
  (sym < 256 → t = { s with seq := .running w a (.pushOut (.byte (BitVec.ofNat 8 sym)) (.data sym)) }) ∧
  (sym = 256 → t = { s with seq := .running w a (.popIn .drain) })

/-- What follows Decode() in AD_DECODE (46_adaptive_protocol.md R223). -/
def AdDecoded (w a : Word) (sym : Nat) (s t : State) : Prop :=
  (sym < 256 → t = { s with seq := .running w a (.pushOut (.byte (BitVec.ofNat 8 sym)) (.data sym)) }) ∧
  (sym = 256 → ∃ u, FreqAdded 256 s u ∧ t = { u with seq := .running w a (.popIn .drain) })

/-- Decode() begun at state `s` (43_codec.md R171): NO_TREE, UNEXPECTED_EOF where the input has ended, or the walk from
the root over the unread bits. -/
def DecodeOutcome (w a : Word) (s : State) (done : Nat → State → State → Prop) (t : State) : Prop :=
  (s.tree = none → t = s.withError 3 1 0) ∧
  (∀ l r, s.tree = some (.node l r) →
    (s.biEof = true → t = s.withError 5 1 0) ∧
    (s.biEof = false → WalkOutcome w a (.node l r) s.unreadBits s done t))

/-- Encode(sym) begun at state `s` (43_codec.md R170): the three checks in order, or the bits put. -/
def EncodeOutcome (w a : Word) (sym : Nat) (s : State) (done : State → State → Prop) (t : State) : Prop :=
  (s.tree = none → t = s.withError 3 1 0) ∧
  (∀ tr, s.tree = some tr →
    (s.limit ≤ sym → t = s.withError 2 1 (BitVec.ofNat 32 sym)) ∧
    (sym < s.limit → tr.code sym = none → t = s.withError 3 2 (BitVec.ofNat 32 sym)) ∧
    (∀ c, sym < s.limit → tr.code sym = some c → PutOutcome w a sym c s done t))

end Sys2Proof.Machine
end

