-- ==== Sys2Proof/Certificates/Slice0/Obligations.lean ====
section
/-! DEFINITION. The statements about HUFF-CORE, from the numbered rules of spec/. -/

open Sys2Proof Sys2Proof.Machine

/-! ## Encoding and the step -/

/-- Decoding the word of a well-formed command gives the command back, and a word that decodes is the word of what it
decodes to, which is well-formed (30_encoding.md R90, R94, R96, R99). -/
def Obligations.DecodeAndEncodeAgree : Prop :=
  (∀ i : Instr, i.WellFormed → decode (encode i) = .ok i) ∧
  (∀ (w : Word) (i : Instr), decode w = .ok i → i.WellFormed ∧ encode i = w)

/-- 30_encoding.md R98: the engine decodes first, the opcode before the reserved bits, then runs the command's rule. -/
def Obligations.FirstSegmentDecodeOrder : Prop :=
  ∀ (s : State) (w a : Word), s.seq = .running w a .start →
    ((∀ r ∈ opTable, r.op ≠ opOf w) → engineStep s = .next (s.withError 7 1 w)) ∧
    (∀ r ∈ opTable, r.op = opOf w →
      (w &&& r.mask ≠ r.bits → engineStep s = .next (s.withError 7 2 w)) ∧
      (w &&& r.mask = r.bits → engineStep s = exec (r.make (symOf w) (widxOf w)) s))

/-- Words written out from the fields of 30_encoding.md R90 and the opcodes of R96, one of each family. -/
def Obligations.WordsOfTheOpcodeMap : Prop :=
  decode 0x00006112 = .ok (.ftSet 97) ∧ decode 0x00066121 = .ok (.ctGetcode 97 3) ∧
  decode 0x0001FF31 = .ok (.clSet 511) ∧ decode 0x00010040 = .ok (.encSym 256) ∧
  decode 0x00000053 = .ok .biReadNoeof ∧ decode 0x00000061 = .ok .scHeader ∧
  decode 0x00000071 = .ok .adDecode ∧ decode 0x00000002 = .ok .setSymlim ∧
  decode 0x00000003 = .error .opcode ∧ decode 0x800000FF = .error .opcode ∧
  decode 0x00000114 = .error .reserved ∧ decode 0x00100011 = .error .reserved ∧ decode 0x00020020 = .error .reserved

/-- Each turn is its agent's move and nothing is added around it but the turn used up. The engine's turn, which an empty
script gives too, is the engine's step whatever the sequencer holds, and where the word decodes that is the decoded
command's segment from the sequencer's position (20_memory.md R61, R69; 30_encoding.md R98); a host turn is its access
(20_memory.md R60); a poll reads STATUS until BUSY = 0 and a push writes IN_PUSH once IN has room, each giving the engine
a turn while it waits (30_encoding.md R99, R100). The script, and one engine turn for each try, are the model's choice
(logs 1 and 3). -/
def Obligations.StepRunsTheDecodedCommand : Prop :=
  ∀ s : State,
    (s.script = [] → step s = engineStep s) ∧
    (∀ rest, s.script = .engine :: rest → step s = engineStep { s with script := rest }) ∧
    (∀ w a p i, s.seq = .running w a p → decode w = .ok i → engineStep s = exec i s ∧
      (s.script = [] → step s = exec i s) ∧
      (∀ rest, s.script = .engine :: rest → step s = exec i { s with script := rest })) ∧
    (∀ a rest, s.script = .host a :: rest → step s = hostAccess a { s with script := rest }) ∧
    (∀ rest, s.script = .poll :: rest → step s = .next { s with
      reads := s.reads ++ [(0x0C, s.status)],
      script := if s.seq = .idle then rest else .engine :: .poll :: rest }) ∧
    (∀ v rest, s.script = .push v :: rest →
      (s.inQ.length < Config.inDepth → step s = hostAccess (.write 0x20 4 v) { s with script := rest }) ∧
      (Config.inDepth ≤ s.inQ.length → step s = .next { s with script := .engine :: .push v :: rest }))

/-- An engine that is not enabled has no step: its turn changes nothing (20_memory.md R66, R67; 70 R298). -/
def Obligations.DisabledEngineHasNoStep : Prop :=
  ∀ s : State, SeqLegal s → s.engineEnabled = false → engineStep s = .next s

/-! ## Frequency table and build -/

/-- 40_freq_table.md R112. -/
def Obligations.FtFillSetsInRangeEntries : Prop :=
  ∀ (s : State) (w a : Word), s.seq = .running w a .start →
    (0 ≤ a.toInt → ∃ t, exec .ftFill s = .next t ∧ t = { s with ft := t.ft, seq := .idle } ∧
      ∀ k, k < 257 → t.freq k = if k < s.limit then a else s.freq k) ∧
    (a.toInt < 0 → exec .ftFill s = .next (s.withError 1 2 a))

/-- 40_freq_table.md R113 and 42_canonical_code.md R155: FT_GET and CL_GET. -/
def Obligations.TableReadsReturnTheEntry : Prop :=
  ∀ (s : State) (w a : Word) (sym : Nat), s.seq = .running w a .start →
    (sym < s.limit →
      exec (.ftGet sym) s = .next { s with result := s.freq sym, seq := .idle } ∧
      exec (.clGet sym) s = .next { s with result := (s.len sym).setWidth 32, seq := .idle }) ∧
    (s.limit ≤ sym →
      exec (.ftGet sym) s = .next (s.withError 2 1 (BitVec.ofNat 32 sym)) ∧
      exec (.clGet sym) s = .next (s.withError 2 1 (BitVec.ofNat 32 sym)))

/-- 40_freq_table.md R114: the range is checked before the sign. -/
def Obligations.FtSetWritesTheFrequency : Prop :=
  ∀ (s : State) (w a : Word) (sym : Nat), LimitLegal s → s.seq = .running w a .start →
    (sym < s.limit → 0 ≤ a.toInt → ∃ t, exec (.ftSet sym) s = .next t ∧ t = { s with ft := t.ft, seq := .idle } ∧
      ∀ k, t.freq k = if k = sym then a else s.freq k) ∧
    (s.limit ≤ sym → exec (.ftSet sym) s = .next (s.withError 2 1 (BitVec.ofNat 32 sym))) ∧
    (sym < s.limit → a.toInt < 0 → exec (.ftSet sym) s = .next (s.withError 1 2 a))

/-- 40_freq_table.md R115. -/
def Obligations.FtIncAddsOne : Prop :=
  ∀ (s : State) (w a : Word) (sym : Nat), LimitLegal s → s.seq = .running w a .start →
    (sym < s.limit → s.freq sym ≠ 0xFFFFFFFF → ∃ t, exec (.ftInc sym) s = .next t ∧
      t = { s with ft := t.ft, seq := .idle } ∧ (t.freq sym).toNat = (s.freq sym).toNat + 1 ∧
      ∀ k, k ≠ sym → t.freq k = s.freq k) ∧
    (s.limit ≤ sym → exec (.ftInc sym) s = .next (s.withError 2 1 (BitVec.ofNat 32 sym))) ∧
    (sym < s.limit → s.freq sym = 0xFFFFFFFF → exec (.ftInc sym) s = .next (s.withError 6 1 (BitVec.ofNat 32 sym)))

/-- FT_BUILD completes with a legal tree, Build()'s (40_freq_table.md R111 b, R116; 10_state.md R27). -/
def Obligations.FtBuildInstallsALegalTree : Prop :=
  ∀ (s : State) (w a : Word), LimitLegal s → s.seq = .running w a .start →
    ∃ tr, buildTree s.ft s.limit = some tr ∧ tr.Legal s.limit ∧
      exec .ftBuild s = .next { s with tree := some tr, seq := .idle }

/-- Every symbol of positive frequency has a leaf, a symbol of frequency 0 has one only when fewer than two are
positive, and a table all positive has SYMLIM leaves (40_freq_table.md R111 c, d). Over two symbols or more the padding
stops at two leaves (R110). -/
def Obligations.BuildGivesLeavesToPositiveSymbols : Prop :=
  ∀ (ft : Table Word) (lim : Nat) (tr : CodeTree), lim ≤ 257 → buildTree ft lim = some tr →
    (∀ sym, sym < lim → tableGet ft sym 0 ≠ 0 → sym ∈ tr.symbols) ∧
    (∀ sym ∈ tr.symbols, tableGet ft sym 0 = 0 →
      ((List.range lim).filter fun k => tableGet ft k 0 ≠ 0).length < 2) ∧
    ((∀ sym, sym < lim → tableGet ft sym 0 ≠ 0) → tr.symbols.length = lim) ∧
    (2 ≤ lim → tr.symbols.length = max 2 ((List.range lim).filter fun k => tableGet ft k 0 ≠ 0).length)

/-- Build() step by step (40_freq_table.md R110): it starts from leaves keyed by (frequency, symbol), padded with the
least zero-frequency symbols first up to two entries and no further; ExtractMin(Q) removes an entry whose (w, r) is least in lexicographic order; the two
entries extracted, x first, give place to one of weight x.w + y.w and symbol min(x.r, y.r) whose 0-child is x's tree;
the last entry's tree is the result. -/
def Obligations.ExtractMinTakesTheLeast : Prop :=
  (∀ (q rest : List Entry) (m : Entry), extractMin q = some (m, rest) →
    q.Perm (m :: rest) ∧ ∀ e ∈ rest, m.w < e.w ∨ (m.w = e.w ∧ m.r ≤ e.r)) ∧
  (∀ (q q1 q2 : List Entry) (x y : Entry), extractMin q = some (x, q1) → extractMin q1 = some (y, q2) →
    mergeAll q.length q = mergeAll (q2.length + 1) (⟨x.w + y.w, min x.r y.r, .node x.t y.t⟩ :: q2)) ∧
  (∀ e : Entry, mergeAll 1 [e] = some e.t) ∧
  (∀ (ft : Table Word) (lim : Nat), lim ≤ 257 → ∃ q : List Entry,
    buildTree ft lim = mergeAll q.length q ∧ (q.map Entry.r).Nodup ∧
    (∀ e ∈ q, e.r < lim ∧ e.t = .leaf e.r ∧ e.w = (tableGet ft e.r 0).toNat) ∧
    (∀ k, k < lim → tableGet ft k 0 ≠ 0 → ∃ e ∈ q, e.r = k) ∧
    (∀ e ∈ q, e.w = 0 → ∀ k, k < e.r → tableGet ft k 0 = 0 → ∃ e' ∈ q, e'.r = k) ∧
    (2 ≤ lim → q.length = max 2 ((List.range lim).filter fun k => tableGet ft k 0 ≠ 0).length))

/-! ## Code tree -/

/-- 41_code_tree.md R132. -/
def Obligations.CtGetlenReadsTheCodeLength : Prop :=
  ∀ (s : State) (w a : Word) (sym : Nat), s.seq = .running w a .start →
    (s.tree = none → exec (.ctGetlen sym) s = .next (s.withError 3 1 0)) ∧
    (∀ tr, s.tree = some tr →
      (s.limit ≤ sym → exec (.ctGetlen sym) s = .next (s.withError 2 1 (BitVec.ofNat 32 sym))) ∧
      (sym < s.limit → tr.code sym = none → exec (.ctGetlen sym) s = .next (s.withError 3 2 (BitVec.ofNat 32 sym))) ∧
      (∀ c, sym < s.limit → tr.code sym = some c →
        exec (.ctGetlen sym) s = .next { s with result := BitVec.ofNat 32 c.length, seq := .idle }))

/-- 41_code_tree.md R133: bit 31 - j of RESULT is code bit 32*widx + j, 0 past the end. -/
def Obligations.CtGetcodeReadsTheCodeBits : Prop :=
  ∀ (s : State) (w a : Word) (sym widx : Nat), s.seq = .running w a .start →
    (s.tree = none → exec (.ctGetcode sym widx) s = .next (s.withError 3 1 0)) ∧
    (∀ tr, s.tree = some tr →
      (s.limit ≤ sym → exec (.ctGetcode sym widx) s = .next (s.withError 2 1 (BitVec.ofNat 32 sym))) ∧
      (sym < s.limit → tr.code sym = none →
        exec (.ctGetcode sym widx) s = .next (s.withError 3 2 (BitVec.ofNat 32 sym))) ∧
      (∀ c, sym < s.limit → tr.code sym = some c →
        ∃ t, exec (.ctGetcode sym widx) s = .next t ∧ t = { s with result := t.result, seq := .idle } ∧
          ∀ j, j < 32 → t.result.getLsbD (31 - j) = c.getD (32 * widx + j) false))

/-- No code of a tree is a prefix of another symbol's code (41_code_tree.md R131 a). -/
def Obligations.CodesArePrefixFree : Prop :=
  ∀ (tr : CodeTree) (x y : Nat) (cx cy : List Bool), tr.code x = some cx → tr.code y = some cy → cx <+: cy → x = y

/-- The codes of a tree without repeated symbols are complete: the sum of 2^-|CODE(s)| is exactly 1
(41_code_tree.md R131 b). -/
def Obligations.CodesAreComplete : Prop :=
  ∀ tr : CodeTree, tr.symbols.Nodup → (tr.symbols.map fun x => (1 / 2 : ℚ) ^ treeLength (some tr) x).sum = 1

/-- A code of a legal tree has at least 1 and at most SYMLIM - 1 bits (41_code_tree.md R130; 00_scope.md R14). -/
def Obligations.CodeLengthsAreBounded : Prop :=
  ∀ (lim : Nat) (tr : CodeTree) (sym : Nat) (c : List Bool), tr.Legal lim → tr.code sym = some c →
    1 ≤ c.length ∧ c.length + 1 ≤ lim

/-! ## Canonical code -/

/-- 42_canonical_code.md R156: the range is checked before the sign. -/
def Obligations.ClSetWritesTheLength : Prop :=
  ∀ (s : State) (w a : Word) (sym : Nat), LimitLegal s → s.seq = .running w a .start →
    (sym < s.limit → 0 ≤ a.toInt → ∃ t, exec (.clSet sym) s = .next t ∧ t = { s with cl := t.cl, seq := .idle } ∧
      (t.len sym).toNat = a.toNat ∧ ∀ k, k ≠ sym → t.len k = s.len k) ∧
    (s.limit ≤ sym → exec (.clSet sym) s = .next (s.withError 2 1 (BitVec.ofNat 32 sym))) ∧
    (sym < s.limit → a.toInt < 0 → exec (.clSet sym) s = .next (s.withError 1 3 a))

/-- CC_CHECK completes, changing nothing, exactly when some length is positive and the Kraft sum is 1; otherwise it
raises CONSTRUCTION with the detail and the ERRINFO of the check that fails first (42_canonical_code.md R151, R153 a,
R157). -/
def Obligations.CcCheckAcceptsCompleteCodes : Prop :=
  ∀ (s : State) (w a : Word), s.seq = .running w a .start →
    ((∃ l ∈ s.lengthList, 0 < l) ∧ kraftSum s.lengthList = 1 → exec .ccCheck s = .next { s with seq := .idle }) ∧
    (¬ ((∃ l ∈ s.lengthList, 0 < l) ∧ kraftSum s.lengthList = 1) →
      ∃ detail info, CheckFails s.lengthList detail info ∧ exec .ccCheck s = .next (s.withError 1 detail info)) ∧
    (∀ detail info, CheckFails s.lengthList detail info → exec .ccCheck s = .next (s.withError 1 detail info))

/-- CC_FROM_TREE writes the depth of each symbol's leaf, 0 where it has none (42_canonical_code.md R150, R158). -/
def Obligations.CcFromTreeWritesDepths : Prop :=
  ∀ (s : State) (w a : Word), LimitLegal s → TreeLegal s → s.seq = .running w a .start →
    (s.tree = none → exec .ccFromTree s = .next (s.withError 3 1 0)) ∧
    (∀ tr, s.tree = some tr → ∃ t, exec .ccFromTree s = .next t ∧ t = { s with cl := t.cl, seq := .idle } ∧
      ∀ k, (t.len k).toNat = if k < s.limit then treeLength (some tr) k else (s.len k).toNat)

/-- CC_TO_TREE installs a legal tree whose codes have the lengths of CL and are assigned canonically, or leaves TREE and
raises BAD_LENGTHS with the number of nodes of the level that fails first (42_canonical_code.md R152, R153 c, R154, R159;
60_exceptions.md R263). -/
def Obligations.CcToTreeInstallsTheLengths : Prop :=
  ∀ (s : State) (w a : Word), LimitLegal s → s.seq = .running w a .start →
    (∀ tr, toTree s.lengthList = .ok tr → exec .ccToTree s = .next { s with tree := some tr, seq := .idle } ∧
      tr.Legal s.limit ∧ (∀ k, k < s.limit → treeLength (some tr) k = (s.len k).toNat) ∧ CanonicalCodes s tr) ∧
    (∀ n, toTree s.lengthList = .error n → BadLengths s.lengthList n) ∧
    (∀ n, BadLengths s.lengthList n → exec .ccToTree s = .next (s.withError 4 2 (BitVec.ofNat 32 n)))

/-- ToTree() returns a tree exactly when Check() returns without error (42_canonical_code.md R153 b). -/
def Obligations.ToTreeSucceedsExactlyWhenCheckDoes : Prop :=
  ∀ L : List Nat, (∃ tr, toTree L = .ok tr) ↔ checkLengths L = .ok ()

/-! ## Encoder and decoder -/

/-- ENC_SYM completes when the code's bits fill no byte: they join the pending bits in order. The first clause is its
start, the second its resumption at a PushOut with room (43_codec.md R170, R172). -/
def Obligations.EncSymPutsTheCodeBits : Prop :=
  ∀ (s : State) (w a : Word) (sym : Nat),
    (∀ tr c, s.seq = .running w a .start → s.tree = some tr → sym < s.limit → tr.code sym = some c →
      s.boNbits.val + c.length < 8 →
      ∃ t, exec (.encSym sym) s = .next t ∧ t = { s with boBuf := t.boBuf, boNbits := t.boNbits, seq := .idle } ∧
        t.pendingBits = s.pendingBits ++ c) ∧
    (∀ it sym' rest, s.seq = .running w a (.pushOut it (.code sym' rest)) → s.outQ.length < Config.outDepth →
      s.boNbits.val + rest.length < 8 →
      ∃ t, exec (.encSym sym) s = .next t ∧
        t = { s with boBuf := t.boBuf, boNbits := t.boNbits, outQ := s.outQ ++ [it], seq := .idle } ∧
        t.pendingBits = s.pendingBits ++ rest)

/-- ENC_SYM whose bits fill a byte parks at the PushOut of that byte, the bits after it still to put: at its start, and
when it goes on after a PushOut with room (43_codec.md R170; 44_bitstream.md R180). -/
def Obligations.EncSymParksAtAFullByte : Prop :=
  ∀ (s : State) (w a : Word) (sym : Nat),
    (∀ tr c, s.seq = .running w a .start → s.tree = some tr → sym < s.limit → tr.code sym = some c →
      8 ≤ s.boNbits.val + c.length →
      ∃ v rest, exec (.encSym sym) s =
          .next { s with boBuf := 0, boNbits := 0, seq := .running w a (.pushOut (.byte v) (.code sym rest)) } ∧
        byteBits v ++ rest = s.pendingBits ++ c) ∧
    (∀ it sym' bits, s.seq = .running w a (.pushOut it (.code sym' bits)) → s.outQ.length < Config.outDepth →
      8 ≤ s.boNbits.val + bits.length →
      ∃ v rest, exec (.encSym sym) s = .next { s with
          outQ := s.outQ ++ [it], boBuf := 0, boNbits := 0,
          seq := .running w a (.pushOut (.byte v) (.code sym' rest)) } ∧
        byteBits v ++ rest = s.pendingBits ++ bits)

/-- DEC_SYM reads exactly the code of the symbol it returns: from the unread bits at its start, and from the byte its
PopIn takes. Where those bits end inside the tree, all are consumed and it waits at the next PopIn from the node they
lead to (43_codec.md R171, R173). -/
def Obligations.DecSymReadsACode : Prop :=
  ∀ (s : State) (w a : Word),
    (∀ tr, s.seq = .running w a .start → s.tree = some tr → s.biEof = false →
      (∀ sym c, tr.code sym = some c → c <+: s.unreadBits →
        ∃ t, exec .decSym s = .next t ∧ t.unreadBits = s.unreadBits.drop c.length ∧
          t = { s with result := BitVec.ofNat 32 sym, biNrem := t.biNrem, seq := .idle }) ∧
      (∀ l r, tr.follow s.unreadBits = some (.node l r) →
        exec .decSym s = .next { s with biNrem := 0, seq := .running w a (.popIn (.walk l r)) })) ∧
    (∀ l r b rest, s.seq = .running w a (.popIn (.walk l r)) → s.inQ = .byte b :: rest → s.biEof = false →
      (∀ sym c, (CodeTree.node l r).code sym = some c → c <+: byteBits b →
        ∃ t, exec .decSym s = .next t ∧ t.unreadBits = (byteBits b).drop c.length ∧
          t = { s with result := BitVec.ofNat 32 sym, inQ := rest, biByte := b, biNrem := t.biNrem, seq := .idle }) ∧
      (∀ l' r', (CodeTree.node l r).follow (byteBits b) = some (.node l' r') →
        exec .decSym s = .next { s with
          inQ := rest, biByte := b, biNrem := 0, seq := .running w a (.popIn (.walk l' r')) }))

/-- Encode's three checks come before any bit, in order; Decode needs a tree, waits for a byte when no bit is left, and
raises UNEXPECTED_EOF at the end of the input, at the first bit too (43_codec.md R170 to R173). -/
def Obligations.CodecCommandsWaitOrFail : Prop :=
  ∀ (s : State) (w a : Word),
    (s.seq = .running w a .start → s.tree = none →
      exec .decSym s = .next (s.withError 3 1 0) ∧ ∀ sym, exec (.encSym sym) s = .next (s.withError 3 1 0)) ∧
    (∀ tr sym, s.seq = .running w a .start → s.tree = some tr →
      (s.limit ≤ sym → exec (.encSym sym) s = .next (s.withError 2 1 (BitVec.ofNat 32 sym))) ∧
      (sym < s.limit → tr.code sym = none → exec (.encSym sym) s = .next (s.withError 3 2 (BitVec.ofNat 32 sym)))) ∧
    (∀ l r, s.seq = .running w a .start → s.tree = some (.node l r) →
      (s.biEof = true → exec .decSym s = .next (s.withError 5 1 0)) ∧
      (s.biEof = false → s.biNrem = 0 →
        exec .decSym s = .next { s with seq := .running w a (.popIn (.walk l r)) })) ∧
    (∀ l r rest, s.seq = .running w a (.popIn (.walk l r)) → s.inQ = .endItem :: rest →
      exec .decSym s = .next (State.withError { s with inQ := rest, biEof := true } 5 1 0))

/-! ## Bit streams -/

/-- BO_WRITE (44_bitstream.md R180, R186): the bit joins the pending bits; the eighth parks at the PushOut of the byte;
any other ARG raises RANGE(BIT_VALUE). -/
def Obligations.BoWritePutsOneBit : Prop :=
  ∀ (s : State) (w a : Word),
    (s.seq = .running w a .start →
      (∀ b : Bool, a = (BitVec.ofBool b).setWidth 32 → s.boNbits.val < 7 →
        ∃ t, exec .boWrite s = .next t ∧ t = { s with boBuf := t.boBuf, boNbits := t.boNbits, seq := .idle } ∧
          t.pendingBits = s.pendingBits ++ [b]) ∧
      (∀ b : Bool, a = (BitVec.ofBool b).setWidth 32 → s.boNbits = 7 →
        ∃ v, exec .boWrite s =
            .next { s with boBuf := 0, boNbits := 0, seq := .running w a (.pushOut (.byte v) .bit) } ∧
          byteBits v = s.pendingBits ++ [b]) ∧
      (a ≠ 0 → a ≠ 1 → exec .boWrite s = .next (s.withError 2 2 a))) ∧
    (∀ it, s.seq = .running w a (.pushOut it .bit) → s.outQ.length < Config.outDepth →
      exec .boWrite s = .next { s with outQ := s.outQ ++ [it], seq := .idle })

/-- BO_CLOSE (44_bitstream.md R181, R187): 0 bits pad the last byte, END follows it, and the command completes once END
is pushed. -/
def Obligations.BoClosePadsAndEnds : Prop :=
  ∀ (s : State) (w a : Word),
    (s.seq = .running w a .start →
      (s.boNbits = 0 → exec .boClose s = .next { s with seq := .running w a (.pushOut .endItem .close) }) ∧
      (s.boNbits ≠ 0 → ∃ v, exec .boClose s =
          .next { s with boBuf := 0, boNbits := 0, seq := .running w a (.pushOut (.byte v) .pad) } ∧
        byteBits v = s.pendingBits ++ List.replicate (8 - s.boNbits.val) false)) ∧
    (∀ it, s.seq = .running w a (.pushOut it .pad) → s.outQ.length < Config.outDepth → s.boNbits = 0 →
      exec .boClose s = .next { s with outQ := s.outQ ++ [it], seq := .running w a (.pushOut .endItem .close) }) ∧
    (∀ it, s.seq = .running w a (.pushOut it .close) → s.outQ.length < Config.outDepth →
      exec .boClose s = .next { s with outQ := s.outQ ++ [it], seq := .idle })

/-- BI_READ and BI_READ_NOEOF give the next unread bit, wait for a byte when none is left, take bit 7 of the byte
first, and differ at the end alone (44_bitstream.md R182, R183, R188, R189). -/
def Obligations.BiReadGivesTheNextBit : Prop :=
  ∀ (s : State) (w a : Word),
    (s.seq = .running w a .start → s.biEof = false →
      (∀ b bs, s.unreadBits = b :: bs → ∀ i ∈ [Instr.biRead, .biReadNoeof], ∃ t, exec i s = .next t ∧
        t.unreadBits = bs ∧
        t = { s with result := (BitVec.ofBool b).setWidth 32, biNrem := t.biNrem, seq := .idle }) ∧
      (s.biNrem = 0 → ∀ i ∈ [Instr.biRead, .biReadNoeof],
        exec i s = .next { s with seq := .running w a (.popIn .bit) })) ∧
    (∀ b rest, s.seq = .running w a (.popIn .bit) → s.inQ = .byte b :: rest →
      ∀ i ∈ [Instr.biRead, .biReadNoeof], exec i s =
        .next { s with inQ := rest, biByte := b, biNrem := 7,
                       result := (BitVec.ofBool (b.getLsbD 7)).setWidth 32, seq := .idle }) ∧
    (s.seq = .running w a .start → s.biEof = true →
      exec .biRead s = .next { s with result := 0xFFFFFFFF, seq := .idle } ∧
      exec .biReadNoeof s = .next (s.withError 5 1 0)) ∧
    (∀ rest, s.seq = .running w a (.popIn .bit) → s.inQ = .endItem :: rest →
      exec .biRead s = .next { s with inQ := rest, biEof := true, result := 0xFFFFFFFF, seq := .idle } ∧
      exec .biReadNoeof s = .next (State.withError { s with inQ := rest, biEof := true } 5 1 0))

/-- IN_SKIP takes items up to and including the first END, and nothing else changes: it waits for an item, discards a
byte and waits again, and completes at END, one segment an item (44_bitstream.md R185, R191). -/
def Obligations.InSkipDiscardsTheSession : Prop :=
  (∀ (s : State) (a : Word) (bs : List Byte) (rest : List Item), s.seq = .running 0x55 a .start → s.script = [] →
    s.inQ = bs.map .byte ++ .endItem :: rest →
    Sys2Proof.core.run (bs.length + 2) s = .next { s with inQ := rest, seq := .idle }) ∧
  (∀ (s : State) (w a : Word),
    (s.seq = .running w a .start → exec .inSkip s = .next { s with seq := .running w a (.popIn .drain) }) ∧
    (∀ b rest, s.seq = .running w a (.popIn .drain) → s.inQ = .byte b :: rest →
      exec .inSkip s = .next { s with inQ := rest }) ∧
    (∀ rest, s.seq = .running w a (.popIn .drain) → s.inQ = .endItem :: rest →
      exec .inSkip s = .next { s with inQ := rest, seq := .idle }))

/-! ## Static protocol -/

/-- SC_SCAN over one session leaves in FT the number of times each byte occurs, whatever FT held (45_static_protocol.md
R200). -/
def Obligations.ScScanCountsTheSession : Prop :=
  ∀ (s : State) (a : Word) (bs : List Byte) (rest : List Item), s.seq = .running 0x60 a .start → s.script = [] →
    s.limit = 257 → s.inQ = bs.map .byte ++ .endItem :: rest → bs.length < 2 ^ 32 →
    ∃ t, Sys2Proof.core.run (bs.length + 2) s = .next t ∧ t = { s with ft := t.ft, inQ := rest, seq := .idle } ∧
      ∀ k, (t.freq k).toNat = bs.countP fun b => b.toNat = k

/-- The segments of SC_SCAN: the cleared table, one byte counted, OVERFLOW(FREQ), the end (45_static_protocol.md R200). -/
def Obligations.ScScanSegments : Prop :=
  ∀ (s : State) (w a : Word),
    (s.seq = .running w a .start →
      (s.limit = 257 → ∃ t, exec .scScan s = .next t ∧
        t = { s with ft := t.ft, seq := .running w a (.popIn .item) } ∧ ∀ k, t.freq k = 0) ∧
      (s.limit ≠ 257 → exec .scScan s = .next (s.withError 7 3 (BitVec.ofNat 32 s.limit)))) ∧
    (∀ b rest, s.seq = .running w a (.popIn .item) → s.inQ = .byte b :: rest →
      (s.freq b.toNat ≠ 0xFFFFFFFF → ∃ t, exec .scScan s = .next t ∧ t = { s with ft := t.ft, inQ := rest } ∧
        (t.freq b.toNat).toNat = (s.freq b.toNat).toNat + 1 ∧ ∀ k, k ≠ b.toNat → t.freq k = s.freq k) ∧
      (s.freq b.toNat = 0xFFFFFFFF →
        exec .scScan s = .next (State.withError { s with inQ := rest } 6 1 (BitVec.ofNat 32 b.toNat)))) ∧
    (∀ rest, s.seq = .running w a (.popIn .item) → s.inQ = .endItem :: rest →
      exec .scScan s = .next { s with inQ := rest, seq := .idle })

/-- SC_HEADER's first segment makes FT[256] at least 1 and leaves in CL the code lengths of the optimal tree and in TREE
the canonical tree that ToTree() gives for those lengths, which does not fail; it parks at the push of CL[0], or raises
CODE_TOO_LONG for it. With another SYMLIM nothing is touched (45_static_protocol.md R201; 42_canonical_code.md R153;
60_exceptions.md R266). -/
def Obligations.ScHeaderBuildsTheCanonicalCode : Prop :=
  ∀ (s : State) (w a : Word), s.seq = .running w a .start →
    (s.limit = 257 → ∃ t tr, exec .scHeader s = .next t ∧ t.tree = some tr ∧ toTree t.lengthList = .ok tr ∧
      tr.Legal 257 ∧ (∀ k, k < 257 → treeLength (some tr) k = (t.len k).toNat) ∧
      (∀ k, k < 257 → (t.len k).toNat = treeLength (buildTree t.ft 257) k) ∧
      (t.freq 256 = if s.freq 256 = 0 then 1 else s.freq 256) ∧ (∀ k, k ≠ 256 → t.freq k = s.freq k) ∧
      ((t.len 0).toNat < 256 → t = { s with
        ft := t.ft, cl := t.cl, tree := t.tree, boBuf := 0, boNbits := 0,
        seq := .running w a (.pushOut (.byte (BitVec.ofNat 8 (t.len 0).toNat)) (.header 256 [])) }) ∧
      (256 ≤ (t.len 0).toNat →
        t = State.withError { s with ft := t.ft, cl := t.cl, tree := t.tree, boBuf := 0, boNbits := 0 } 4 1 0)) ∧
    (s.limit ≠ 257 → exec .scHeader s = .next (s.withError 7 3 (BitVec.ofNat 32 s.limit)))

/-- SC_HEADER goes on with one header byte a segment, the lengths in ascending symbol order, and completes after the
byte of symbol 256; a length of 256 or more raises CODE_TOO_LONG (45_static_protocol.md R201; 20_memory.md R72). -/
def Obligations.ScHeaderPushesEachLength : Prop :=
  ∀ (s : State) (w a : Word) (it : Item), s.boNbits = 0 → s.outQ.length < Config.outDepth →
    (∀ left, left < 256 → s.seq = .running w a (.pushOut it (.header (left + 1) [])) →
      ((s.len (256 - left)).toNat < 256 → exec .scHeader s = .next { s with
        outQ := s.outQ ++ [it], boBuf := 0,
        seq := .running w a (.pushOut (.byte (BitVec.ofNat 8 (s.len (256 - left)).toNat)) (.header left [])) }) ∧
      (256 ≤ (s.len (256 - left)).toNat →
        exec .scHeader s = .next (State.withError { s with outQ := s.outQ ++ [it] } 4 1 (BitVec.ofNat 32 (256 - left))))) ∧
    (s.seq = .running w a (.pushOut it (.header 0 [])) →
      exec .scHeader s = .next { s with outQ := s.outQ ++ [it], seq := .idle })

/-- Every segment of SC_ENCODE: the wait for the first item, which leaves the output cursor, or SYMLIM_NOT_257; an item
taken and the code of its symbol put, END as symbol 256; the code's bits after a pushed byte; the next item awaited, or
CloseOut() after symbol 256; complete once END is pushed (45_static_protocol.md R202; 43_codec.md R170;
44_bitstream.md R181). -/
def Obligations.ScEncodeSegments : Prop :=
  ∀ (s : State) (w a : Word),
    (s.seq = .running w a .start → s.limit = 257 →
      exec .scEncode s = .next { s with seq := .running w a (.popIn .item) }) ∧
    (s.seq = .running w a .start → s.limit ≠ 257 →
      exec .scEncode s = .next (s.withError 7 3 (BitVec.ofNat 32 s.limit))) ∧
    (∀ it rest, s.seq = .running w a (.popIn .item) → s.inQ = it :: rest →
      ∃ t, exec .scEncode s = .next t ∧
        EncodeOutcome w a it.sym { s with inQ := rest } (ScEncoded w a it.sym) t) ∧
    (∀ it sym bits, s.seq = .running w a (.pushOut it (.code sym bits)) → s.outQ.length < Config.outDepth →
      ∃ t, exec .scEncode s = .next t ∧
        PutOutcome w a sym bits { s with outQ := s.outQ ++ [it] } (ScEncoded w a sym) t) ∧
    (∀ it, s.seq = .running w a (.pushOut it .pad) → s.outQ.length < Config.outDepth →
      ∃ t, exec .scEncode s = .next t ∧ CloseOutcome w a { s with outQ := s.outQ ++ [it] } t) ∧
    (∀ it, s.seq = .running w a (.pushOut it .close) → s.outQ.length < Config.outDepth →
      exec .scEncode s = .next { s with outQ := s.outQ ++ [it], seq := .idle })

/-- SD_DECODE's header: SYMLIM_NOT_257 before anything is touched; both cursors start fresh, each byte taken is the next
symbol's length, and the end of the session inside the header raises UNEXPECTED_EOF (45_static_protocol.md R203;
20_memory.md R72; 60_exceptions.md R266). -/
def Obligations.SdDecodeReadsTheHeader : Prop :=
  ∀ (s : State) (w a : Word),
    (s.seq = .running w a .start → s.limit = 257 → exec .sdDecode s = .next { s with
      biByte := 0, biNrem := 0, biEof := false, boBuf := 0, boNbits := 0,
      seq := .running w a (.popIn (.header 2055 0)) }) ∧
    (s.seq = .running w a .start → s.limit ≠ 257 →
      exec .sdDecode s = .next (s.withError 7 3 (BitVec.ofNat 32 s.limit))) ∧
    (∀ n b rest, n < 256 → s.seq = .running w a (.popIn (.header (8 * n + 15) 0)) → s.inQ = .byte b :: rest →
      s.biEof = false →
      ∃ t, exec .sdDecode s = .next t ∧ (t.len (255 - n)).toNat = b.toNat ∧
        (∀ k, k ≠ 255 - n → t.len k = s.len k) ∧
        t = { s with inQ := rest, cl := t.cl, biByte := b, biNrem := 0,
                     seq := .running w a (.popIn (.header (8 * n + 7) 0)) }) ∧
    (∀ left v rest, s.seq = .running w a (.popIn (.header left v)) → s.inQ = .endItem :: rest →
      exec .sdDecode s = .next (State.withError { s with inQ := rest, biEof := true } 5 1 0))

/-- SD_DECODE after its header: the last length checked, the canonical tree installed or the error of Check() raised;
each symbol below 256 pushed and the next walk begun after its push; the rest of the session drained after symbol 256;
the end of the input in a walk UNEXPECTED_EOF; END pushed (45_static_protocol.md R203; 43_codec.md R171;
42_canonical_code.md R151). -/
def Obligations.SdDecodeRebuildsAndFinishes : Prop :=
  ∀ (s : State) (w a : Word), s.limit = 257 →
    (∀ b rest, s.seq = .running w a (.popIn (.header 7 0)) → s.inQ = .byte b :: rest → s.biEof = false →
      ∃ t, exec .sdDecode s = .next t ∧ (t.len 256).toNat = b.toNat ∧ (∀ k, k ≠ 256 → t.len k = s.len k) ∧
        (checkLengths t.lengthList = .ok () → ∃ l r, toTree t.lengthList = .ok (.node l r) ∧
          t = { s with inQ := rest, cl := t.cl, biByte := b, biNrem := 0, tree := some (.node l r),
                       seq := .running w a (.popIn (.walk l r)) }) ∧
        (checkLengths t.lengthList ≠ .ok () → ∃ detail info, CheckFails t.lengthList detail info ∧
          t = State.withError { s with inQ := rest, cl := t.cl, biByte := b, biNrem := 0 } 1 detail info)) ∧
    (∀ l r b rest, s.seq = .running w a (.popIn (.walk l r)) → s.inQ = .byte b :: rest → s.biEof = false →
      ∃ t, exec .sdDecode s = .next t ∧
        WalkOutcome w a (.node l r) (byteBits b) { s with inQ := rest, biByte := b } (SdDecoded w a) t) ∧
    (∀ l r rest, s.seq = .running w a (.popIn (.walk l r)) → s.inQ = .endItem :: rest →
      exec .sdDecode s = .next (State.withError { s with inQ := rest, biEof := true } 5 1 0)) ∧
    (∀ it sym, s.seq = .running w a (.pushOut it (.data sym)) → s.outQ.length < Config.outDepth →
      ∃ t, exec .sdDecode s = .next t ∧
        DecodeOutcome w a { s with outQ := s.outQ ++ [it] } (SdDecoded w a) t) ∧
    (∀ b rest, s.seq = .running w a (.popIn .drain) → s.inQ = .byte b :: rest →
      exec .sdDecode s = .next { s with inQ := rest }) ∧
    (∀ rest, s.seq = .running w a (.popIn .drain) → s.inQ = .endItem :: rest →
      exec .sdDecode s = .next { s with inQ := rest, seq := .running w a (.pushOut .endItem .finish) }) ∧
    (∀ it, s.seq = .running w a (.pushOut it .finish) → s.outQ.length < Config.outDepth →
      exec .sdDecode s = .next { s with
        outQ := s.outQ ++ [it], biByte := 0, biNrem := 0, biEof := false, seq := .idle })

/-! ## Adaptive protocol -/

/-- 46_adaptive_protocol.md R221: the counts at which Checkpoint() rebuilds and resets. -/
def Obligations.CheckpointSchedule : Prop :=
  ∀ n : Nat,
    (rebuildsAt n = true ↔ (∃ k, k < 18 ∧ n = 2 ^ k) ∨ (n ≠ 0 ∧ 262144 ∣ n)) ∧
    (epochEnds n = true ↔ n ≠ 0 ∧ 262144 ∣ n)

/-- 46_adaptive_protocol.md R220: at a power of two below EPOCH or a nonzero multiple of EPOCH the rebuild uses the
table as it is; at a nonzero multiple the new epoch's table is flat; nothing else changes. -/
def Obligations.CheckpointRebuildsThenFlattens : Prop :=
  ∀ s : State,
    s.checkpoint = { s with ft := s.checkpoint.ft, tree := s.checkpoint.tree } ∧
    (((s.cnt.toNat < 262144 ∧ ∃ k, s.cnt.toNat = 2 ^ k) ∨ (s.cnt ≠ 0 ∧ s.cnt.toNat % 262144 = 0)) →
      s.checkpoint.tree = buildTree s.ft s.limit) ∧
    (¬ ((s.cnt.toNat < 262144 ∧ ∃ k, s.cnt.toNat = 2 ^ k) ∨ (s.cnt ≠ 0 ∧ s.cnt.toNat % 262144 = 0)) →
      s.checkpoint.tree = s.tree) ∧
    (s.cnt ≠ 0 ∧ s.cnt.toNat % 262144 = 0 → ∀ k, k < 257 → s.checkpoint.freq k = 1) ∧
    (¬ (s.cnt ≠ 0 ∧ s.cnt.toNat % 262144 = 0) → s.checkpoint.ft = s.ft)

/-- Every segment of AC_ENCODE: SYMLIM_NOT_257, or the flat start with the flat tree's codes; an item taken and the code
of its symbol put, END as symbol 256; the code's bits after a pushed byte; a byte then counted with the checkpoint in the
same segment, or OVERFLOW(COUNT); after symbol 256 only its frequency grows, and CloseOut() follows; complete once END
is pushed (46_adaptive_protocol.md R222, R226; 43_codec.md R170; 44_bitstream.md R181). -/
def Obligations.AcEncodeSegments : Prop :=
  ∀ (s : State) (w a : Word),
    (s.seq = .running w a .start → s.limit = 257 → ∃ t tr, exec .acEncode s = .next t ∧
      (∀ k, k < 257 → t.freq k = 1) ∧ buildTree t.ft 257 = some tr ∧ FlatCodes tr ∧ t = { s with
        ft := t.ft, tree := some tr, cnt := 0, boBuf := 0, boNbits := 0, seq := .running w a (.popIn .item) }) ∧
    (s.seq = .running w a .start → s.limit ≠ 257 →
      exec .acEncode s = .next (s.withError 7 3 (BitVec.ofNat 32 s.limit))) ∧
    (∀ it rest, s.seq = .running w a (.popIn .item) → s.inQ = it :: rest →
      ∃ t, exec .acEncode s = .next t ∧
        EncodeOutcome w a it.sym { s with inQ := rest } (AcEncoded w a it.sym) t) ∧
    (∀ it sym bits, sym ≤ 256 → s.seq = .running w a (.pushOut it (.code sym bits)) →
      s.outQ.length < Config.outDepth →
      ∃ t, exec .acEncode s = .next t ∧
        PutOutcome w a sym bits { s with outQ := s.outQ ++ [it] } (AcEncoded w a sym) t) ∧
    (∀ it, s.seq = .running w a (.pushOut it .pad) → s.outQ.length < Config.outDepth →
      ∃ t, exec .acEncode s = .next t ∧ CloseOutcome w a { s with outQ := s.outQ ++ [it] } t) ∧
    (∀ it, s.seq = .running w a (.pushOut it .close) → s.outQ.length < Config.outDepth →
      exec .acEncode s = .next { s with outQ := s.outQ ++ [it], seq := .idle })

/-- Every segment of AD_DECODE: SYMLIM_NOT_257, or the flat start with the flat tree's codes, which waits for the first
byte; a byte taken in a walk, whose symbol below 256 is pushed and whose symbol 256 is counted in FT alone and begins the
drain; the end of the input in a walk UNEXPECTED_EOF; a pushed symbol counted with the checkpoint before the next walk,
or OVERFLOW(COUNT); the session drained and END pushed at the end (46_adaptive_protocol.md R220, R223, R226;
43_codec.md R171). -/
def Obligations.AdDecodeSegments : Prop :=
  ∀ (s : State) (w a : Word),
    (s.seq = .running w a .start → s.limit = 257 → ∃ t l r, exec .adDecode s = .next t ∧
      (∀ k, k < 257 → t.freq k = 1) ∧ buildTree t.ft 257 = some (.node l r) ∧ FlatCodes (.node l r) ∧ t = { s with
        ft := t.ft, tree := some (.node l r), cnt := 0, boBuf := 0, boNbits := 0, biByte := 0, biNrem := 0,
        biEof := false, seq := .running w a (.popIn (.walk l r)) }) ∧
    (s.seq = .running w a .start → s.limit ≠ 257 →
      exec .adDecode s = .next (s.withError 7 3 (BitVec.ofNat 32 s.limit))) ∧
    (∀ l r b rest, s.seq = .running w a (.popIn (.walk l r)) → s.inQ = .byte b :: rest → s.biEof = false →
      ∃ t, exec .adDecode s = .next t ∧
        WalkOutcome w a (.node l r) (byteBits b) { s with inQ := rest, biByte := b } (AdDecoded w a) t) ∧
    (∀ l r rest, s.seq = .running w a (.popIn (.walk l r)) → s.inQ = .endItem :: rest →
      exec .adDecode s = .next (State.withError { s with inQ := rest, biEof := true } 5 1 0)) ∧
    (∀ it sym, s.seq = .running w a (.pushOut it (.data sym)) → s.outQ.length < Config.outDepth → sym < 256 →
      (s.cnt = 0xFFFFFFFFFFFFFFFF →
        exec .adDecode s = .next (State.withError { s with outQ := s.outQ ++ [it] } 6 2 0)) ∧
      (s.cnt ≠ 0xFFFFFFFFFFFFFFFF → ∃ u t, DataCounted sym { s with outQ := s.outQ ++ [it] } u ∧
        exec .adDecode s = .next t ∧ DecodeOutcome w a u.checkpoint (AdDecoded w a) t)) ∧
    (∀ b rest, s.seq = .running w a (.popIn .drain) → s.inQ = .byte b :: rest →
      exec .adDecode s = .next { s with inQ := rest }) ∧
    (∀ rest, s.seq = .running w a (.popIn .drain) → s.inQ = .endItem :: rest →
      exec .adDecode s = .next { s with inQ := rest, seq := .running w a (.pushOut .endItem .finish) }) ∧
    (∀ it, s.seq = .running w a (.pushOut it .finish) → s.outQ.length < Config.outDepth →
      exec .adDecode s = .next { s with
        outQ := s.outQ ++ [it], biByte := 0, biNrem := 0, biEof := false, seq := .idle })

/-! ## Control -/

/-- CT_CLEAR, STREAM_RESET, NOP and ERR_CLEAR complete in one segment and write what their rules name alone
(41_code_tree.md R134; 44_bitstream.md R190; 47_control.md R240, R241). -/
def Obligations.ClearingCommandsAndNop : Prop :=
  ∀ (s : State) (w a : Word), s.seq = .running w a .start →
    exec .ctClear s = .next { s with tree := none, seq := .idle } ∧
    exec .streamReset s = .next { s with
      biByte := 0, biNrem := 0, biEof := false, boBuf := 0, boNbits := 0, seq := .idle } ∧
    exec .nop s = .next { s with seq := .idle } ∧
    exec .errClear s = .next { s with
      err := false, errCode := 0, errDetail := 0, errInfo := 0, inOvf := false, seq := .idle }

/-- 47_control.md R242. -/
def Obligations.SetSymlimClearsTheTables : Prop :=
  ∀ (s : State) (w a : Word), s.seq = .running w a .start →
    (a.toNat < 2 → exec .setSymlim s = .next (s.withError 1 1 a)) ∧
    (257 < a.toNat → exec .setSymlim s = .next (s.withError 2 3 a)) ∧
    (2 ≤ a.toNat → a.toNat ≤ 257 → ∃ t, exec .setSymlim s = .next t ∧ t.limit = a.toNat ∧
      (∀ k, t.freq k = 0 ∧ t.len k = 0) ∧
      t = { s with symLim := t.symLim, ft := t.ft, cl := t.cl, tree := none, cnt := 0, seq := .idle })

/-! ## Whole-machine rules -/

/-- A command that changes the error state ends by that error, or is ERR_CLEAR (60_exceptions.md R262, R267, R268). -/
def Obligations.ErrorsEndTheCommand : Prop :=
  ∀ (i : Instr) (s t : State), exec i s = .next t → i ≠ .errClear →
    (t.err = s.err ∧ t.errCode = s.errCode ∧ t.errDetail = s.errDetail ∧ t.errInfo = s.errInfo) ∨
    (t.err = true ∧ t.seq = .idle ∧ ∃ e : ErrKind, t.errCode = e.code ∧ t.errDetail = e.detail)

/-- What no command but those named writes: ARG and CUR_OP by none, SYMLIM by SET_SYMLIM, IN_OVF by ERR_CLEAR, CNT by
the adaptive commands and SET_SYMLIM, the output cursor by the commands that put bits and those that reset it
(STREAM_RESET, SD_DECODE, AD_DECODE among them), the input cursor by those that get bits and STREAM_RESET, BI_EOF cleared
only by those that call ResetBI (10_state.md R22, R29 to R32, R35, R36 and the commands' rules). That no command touches
the host's side, script, reads and draws, is the model's (logs 1 and 4). -/
def Obligations.RegistersNoCommandWrites : Prop :=
  ∀ (i : Instr) (s t : State), exec i s = .next t →
    t.arg = s.arg ∧ t.curOp = s.curOp ∧ t.script = s.script ∧ t.reads = s.reads ∧ t.draws = s.draws ∧
    (i ≠ .setSymlim → t.symLim = s.symLim) ∧ (i ≠ .errClear → t.inOvf = s.inOvf) ∧
    (i ∉ [Instr.acEncode, .adDecode, .setSymlim] → t.cnt = s.cnt) ∧
    (t.boBuf ≠ s.boBuf ∨ t.boNbits ≠ s.boNbits → (∃ sym, i = .encSym sym) ∨
      i ∈ [Instr.boWrite, .boClose, .streamReset, .scHeader, .scEncode, .sdDecode, .acEncode, .adDecode]) ∧
    (t.biByte ≠ s.biByte ∨ t.biNrem ≠ s.biNrem ∨ t.biEof ≠ s.biEof →
      i ∈ [Instr.decSym, .biRead, .biReadNoeof, .streamReset, .sdDecode, .adDecode]) ∧
    (s.biEof = true → i ∉ [Instr.streamReset, .sdDecode, .adDecode] → t.biEof = true)

/-- Only these commands write FT and TREE, as 10_state.md R23 and R25 list, and only those whose rules write CL write CL
(42_canonical_code.md R156, R158; 45_static_protocol.md R201, R203; 47_control.md R242). -/
def Obligations.TablesOnlyTheirCommandsWrite : Prop :=
  ∀ (i : Instr) (s t : State), exec i s = .next t →
    (t.ft ≠ s.ft → (∃ sym, i = .ftSet sym ∨ i = .ftInc sym) ∨
      i ∈ [Instr.ftFill, .scScan, .scHeader, .acEncode, .adDecode, .setSymlim]) ∧
    (t.cl ≠ s.cl → (∃ sym, i = .clSet sym) ∨ i ∈ [Instr.ccFromTree, .scHeader, .sdDecode, .setSymlim]) ∧
    (t.tree ≠ s.tree →
      i ∈ [Instr.ftBuild, .ccToTree, .ctClear, .scHeader, .sdDecode, .acEncode, .adDecode, .setSymlim])

/-- 10_state.md R33: RESULT is written only at the completion of the seven reading commands, never by a command that
ends with an error. -/
def Obligations.ResultWrittenOnlyAtCompletion : Prop :=
  ∀ (i : Instr) (s t : State), exec i s = .next t → t.result ≠ s.result →
    ((∃ sym, i = .ftGet sym ∨ i = .ctGetlen sym ∨ i = .clGet sym ∨ ∃ widx, i = .ctGetcode sym widx) ∨
      i ∈ [Instr.decSym, .biRead, .biReadNoeof]) ∧
    t.seq = .idle ∧ t.err = s.err ∧ t.errCode = s.errCode ∧ t.errDetail = s.errDetail ∧ t.errInfo = s.errInfo

/-- One segment takes at most the head of IN and appends at most one item to OUT: both queues are first-in first-out
(20_memory.md R62, R69). -/
def Obligations.SegmentsKeepQueueOrder : Prop :=
  ∀ (i : Instr) (s t : State), exec i s = .next t →
    (t.inQ = s.inQ ∨ ∃ it, s.inQ = it :: t.inQ) ∧ (t.outQ = s.outQ ∨ ∃ it, t.outQ = s.outQ ++ [it])

/-! ## The register window and reset -/

/-- 20_memory.md R68: a CMD write while BUSY, or while ERR = 1 unless it is the ERR_CLEAR word, has no effect;
otherwise it starts the sequencer with ARG latched. -/
def Obligations.CmdWriteAcceptance : Prop :=
  ∀ (s : State) (w : Word),
    (s.busy = true → hostAccess (.write 0x00 4 w) s = .next s) ∧
    (s.busy = false → s.err = true → w ≠ 0x00000001 → hostAccess (.write 0x00 4 w) s = .next s) ∧
    (s.busy = false → (s.err = false ∨ w = 0x00000001) → hostAccess (.write 0x00 4 w) s =
      .next { s with curOp := w.extractLsb' 0 8, seq := .running w s.arg .start })

/-- 20_memory.md R63 and R64: an IN_PUSH write, to a full IN and to one with room; an OUT_POP read, of an empty OUT, of
END and of a byte. -/
def Obligations.QueueRegisterAccesses : Prop :=
  ∀ (s : State) (v : Word) (rest : List Item),
    (s.inQ.length = Config.inDepth → hostAccess (.write 0x20 4 v) s = .next { s with inOvf := true }) ∧
    (s.inQ.length ≠ Config.inDepth → v.getLsbD 8 = true →
      hostAccess (.write 0x20 4 v) s = .next { s with inQ := s.inQ ++ [.endItem] }) ∧
    (s.inQ.length ≠ Config.inDepth → v.getLsbD 8 = false →
      hostAccess (.write 0x20 4 v) s = .next { s with inQ := s.inQ ++ [.byte (v.extractLsb' 0 8)] }) ∧
    (s.outQ = [] → hostAccess (.read 0x28 4) s = .next { s with reads := s.reads ++ [(0x28, 0x80000000)] }) ∧
    (s.outQ = .endItem :: rest → hostAccess (.read 0x28 4) s =
      .next { s with outQ := rest, reads := s.reads ++ [(0x28, 0x00000100)] }) ∧
    (∀ b, s.outQ = .byte b :: rest → hostAccess (.read 0x28 4) s =
      .next { s with outQ := rest, reads := s.reads ++ [(0x28, b.setWidth 32)] })

/-- Accesses of another size or alignment, and of the reserved and one-way registers: the read of the first kind
returns a free value, for every such value; no write has an effect (20_memory.md R60; 10_state.md R43). -/
def Obligations.UndefinedAccessesHaveNoEffect : Prop :=
  ∀ (s : State) (off size : Nat) (v : Word), off < 64 →
    (size ≠ 4 ∨ off % 4 ≠ 0 → hostAccess (.write off size v) s = .next s ∧
      ∃ x, hostAccess (.read off size) s = .next { s with reads := s.reads ++ [(off, x)], draws := s.draws + 1 }) ∧
    (off ∈ [0x08, 0x0C, 0x10, 0x14, 0x18, 0x1C, 0x24, 0x28, 0x2C, 0x34, 0x38, 0x3C] →
      hostAccess (.write off 4 v) s = .next s) ∧
    (off ∈ [0x00, 0x20, 0x30, 0x34, 0x38, 0x3C] →
      hostAccess (.read off 4) s = .next { s with reads := s.reads ++ [(off, 0)] })

/-- 10_state.md R37: each field of STATUS, and the two reserved bits; its reset value; host writes of it ignored. -/
def Obligations.StatusFields : Prop :=
  State.reset.status = 0 ∧ ∀ (s : State) (v : Word),
    hostAccess (.write 0x0C 4 v) s = .next s ∧
    (s.status.getLsbD 0 = true ↔ s.seq ≠ .idle) ∧ s.status.getLsbD 1 = s.err ∧
    (s.status.getLsbD 2 = true ↔ (∃ w a k, s.seq = .running w a (.popIn k)) ∧ s.inQ = []) ∧
    (s.status.getLsbD 3 = true ↔
      (∃ w a it k, s.seq = .running w a (.pushOut it k)) ∧ Config.outDepth ≤ s.outQ.length) ∧
    (s.status.getLsbD 4 = true ↔ s.tree ≠ none) ∧ s.status.getLsbD 5 = s.biEof ∧
    s.status.getLsbD 6 = s.inOvf ∧ s.status.getLsbD 7 = false ∧ s.status.extractLsb' 8 4 = s.errCode ∧
    s.status.extractLsb' 12 4 = s.errDetail ∧ s.status.extractLsb' 16 8 = s.curOp ∧
    (s.status.extractLsb' 24 3).toNat = s.boNbits.val ∧ (s.status.extractLsb' 27 4).toNat = s.biNrem.val ∧
    s.status.getLsbD 31 = false

/-- What each readable register returns, with no side effect but the record of the read that the model keeps for the
host (log 1), and what a write of ARG does (10_state.md R32, R33, R38, R40 to R42; 20_memory.md R65). A level of 2^32
items or more reads as a free value (log 12). -/
def Obligations.RegisterReads : Prop :=
  ∀ (s : State) (v : Word),
    hostAccess (.read 0x04 4) s = .next { s with reads := s.reads ++ [(0x04, s.arg)] } ∧
    hostAccess (.read 0x08 4) s = .next { s with reads := s.reads ++ [(0x08, s.result)] } ∧
    hostAccess (.read 0x0C 4) s = .next { s with reads := s.reads ++ [(0x0C, s.status)] } ∧
    hostAccess (.read 0x10 4) s = .next { s with reads := s.reads ++ [(0x10, s.errInfo)] } ∧
    (∃ c : Word, hostAccess (.read 0x14 4) s = .next { s with reads := s.reads ++ [(0x14, c)] } ∧
      c.extractLsb' 0 9 = s.symLim ∧ c.extractLsb' 9 7 = 0 ∧ c.extractLsb' 16 8 = 32 ∧ c.extractLsb' 24 8 = 0) ∧
    hostAccess (.read 0x18 4) s = .next { s with reads := s.reads ++ [(0x18, s.cnt.extractLsb' 0 32)] } ∧
    hostAccess (.read 0x1C 4) s = .next { s with reads := s.reads ++ [(0x1C, s.cnt.extractLsb' 32 32)] } ∧
    (∃ n : Word, hostAccess (.read 0x24 4) s = .next { s with reads := s.reads ++ [(0x24, n)] } ∧
      (s.inQ.length < 2 ^ 32 → n.toNat = s.inQ.length)) ∧
    (∃ n : Word, hostAccess (.read 0x2C 4) s = .next { s with reads := s.reads ++ [(0x2C, n)] } ∧
      (s.outQ.length < 2 ^ 32 → n.toNat = s.outQ.length)) ∧
    hostAccess (.write 0x04 4 v) s = .next { s with arg := v }

/-- 70_reset_and_hazards.md R290, R291: the reset input and a CTRL write with bit 0 set reach the reset state from
every state, with the host's side left as it is; a CTRL write with bit 0 clear does nothing. -/
def Obligations.ResetFromEveryState : Prop :=
  ∀ (s : State) (v : Word),
    (v.getLsbD 0 = true → hostAccess (.write 0x30 4 v) s =
      .next { State.reset with script := s.script, reads := s.reads, draws := s.draws }) ∧
    (v.getLsbD 0 = false → hostAccess (.write 0x30 4 v) s = .next s) ∧
    (∀ rest, s.script = .resetInput :: rest →
      step s = .next { State.reset with script := rest, reads := s.reads, draws := s.draws })

/-! ## Invariants -/

/-- 10_state.md R44: the reset state, piece by piece; and every invariant holds there. -/
def Obligations.ResetStateIsLegal : Prop :=
  (State.reset.limit = 257 ∧ (∀ k, State.reset.freq k = 0 ∧ State.reset.len k = 0) ∧ State.reset.tree = none ∧
    State.reset.cnt = 0 ∧ State.reset.boBuf = 0 ∧ State.reset.boNbits = 0 ∧ State.reset.biByte = 0 ∧
    State.reset.biNrem = 0 ∧ State.reset.biEof = false ∧ State.reset.arg = 0 ∧ State.reset.result = 0 ∧
    State.reset.err = false ∧ State.reset.errCode = 0 ∧ State.reset.errDetail = 0 ∧ State.reset.errInfo = 0 ∧
    State.reset.inOvf = false ∧ State.reset.seq = .idle ∧ State.reset.curOp = 0 ∧ State.reset.inQ = [] ∧
    State.reset.outQ = []) ∧
  Inv State.reset

/-- Every step keeps the sequencer at a position of the command it runs, protocol commands with SYMLIM = 257
(10_state.md R35; 60_exceptions.md R266). -/
def Obligations.StepKeepsTheSequencerLegal : Prop :=
  ∀ s t : State, SeqLegal s → step s = .next t → SeqLegal t

/-- From a state with a legal sequencer a step never meets a position the command does not have: it answers a next
state, or the host left the window. That the two are faults is the model's choice (10_state.md R35; 20_memory.md R78;
logs 6 and 7). -/
def Obligations.LegalStepsDoNotStop : Prop :=
  ∀ s : State, SeqLegal s → (∃ t, step s = .next t) ∨
    ∃ a rest, s.script = .host a :: rest ∧ step s = .fault .outsideWindow

/-- Every step keeps SYMLIM legal and the table entries at or above it 0 (10_state.md R22 to R24). -/
def Obligations.StepKeepsTheTablesClear : Prop :=
  ∀ s t : State, LimitLegal s → SeqLegal s → TablesClear s → step s = .next t → LimitLegal t ∧ TablesClear t

/-- Every step keeps the active tree legal (10_state.md R27). -/
def Obligations.StepKeepsTheTreeLegal : Prop :=
  ∀ s t : State, LimitLegal s → TreeLegal s → step s = .next t → TreeLegal t

/-- Every step keeps the unused bits of BO_BUF 0, the error fields 0 while ERR = 0, nothing but ERR_CLEAR running while
ERR = 1, and the queues within their depths (10_state.md R30, R34; 20_memory.md R62; 60_exceptions.md R267). -/
def Obligations.StepKeepsCursorErrorAndQueues : Prop :=
  ∀ s t : State, CursorClean s → ErrorLegal s → QueuesFit s → step s = .next t →
    CursorClean t ∧ ErrorLegal t ∧ QueuesFit t
end

