-- ==== Sys2Proof/Laws/State.lean ====
section
/-! SUPPORT. One lemma per field per named update of the state, so that no later proof unfolds a record update. -/

namespace Sys2Proof.Machine

variable (s : State)

/-! ### setFreq -/

@[simp] theorem State.setFreq_symLim (k : Nat) (v : Word) : (s.setFreq k v).symLim = s.symLim := rfl
@[simp] theorem State.setFreq_ft (k : Nat) (v : Word) : (s.setFreq k v).ft = tableSet s.ft k v := rfl
@[simp] theorem State.setFreq_cl (k : Nat) (v : Word) : (s.setFreq k v).cl = s.cl := rfl
@[simp] theorem State.setFreq_tree (k : Nat) (v : Word) : (s.setFreq k v).tree = s.tree := rfl
@[simp] theorem State.setFreq_cnt (k : Nat) (v : Word) : (s.setFreq k v).cnt = s.cnt := rfl
@[simp] theorem State.setFreq_boBuf (k : Nat) (v : Word) : (s.setFreq k v).boBuf = s.boBuf := rfl
@[simp] theorem State.setFreq_boNbits (k : Nat) (v : Word) : (s.setFreq k v).boNbits = s.boNbits := rfl
@[simp] theorem State.setFreq_biByte (k : Nat) (v : Word) : (s.setFreq k v).biByte = s.biByte := rfl
@[simp] theorem State.setFreq_biNrem (k : Nat) (v : Word) : (s.setFreq k v).biNrem = s.biNrem := rfl
@[simp] theorem State.setFreq_biEof (k : Nat) (v : Word) : (s.setFreq k v).biEof = s.biEof := rfl
@[simp] theorem State.setFreq_arg (k : Nat) (v : Word) : (s.setFreq k v).arg = s.arg := rfl
@[simp] theorem State.setFreq_result (k : Nat) (v : Word) : (s.setFreq k v).result = s.result := rfl
@[simp] theorem State.setFreq_err (k : Nat) (v : Word) : (s.setFreq k v).err = s.err := rfl
@[simp] theorem State.setFreq_errCode (k : Nat) (v : Word) : (s.setFreq k v).errCode = s.errCode := rfl
@[simp] theorem State.setFreq_errDetail (k : Nat) (v : Word) : (s.setFreq k v).errDetail = s.errDetail := rfl
@[simp] theorem State.setFreq_errInfo (k : Nat) (v : Word) : (s.setFreq k v).errInfo = s.errInfo := rfl
@[simp] theorem State.setFreq_inOvf (k : Nat) (v : Word) : (s.setFreq k v).inOvf = s.inOvf := rfl
@[simp] theorem State.setFreq_seq (k : Nat) (v : Word) : (s.setFreq k v).seq = s.seq := rfl
@[simp] theorem State.setFreq_curOp (k : Nat) (v : Word) : (s.setFreq k v).curOp = s.curOp := rfl
@[simp] theorem State.setFreq_inQ (k : Nat) (v : Word) : (s.setFreq k v).inQ = s.inQ := rfl
@[simp] theorem State.setFreq_outQ (k : Nat) (v : Word) : (s.setFreq k v).outQ = s.outQ := rfl
@[simp] theorem State.setFreq_script (k : Nat) (v : Word) : (s.setFreq k v).script = s.script := rfl
@[simp] theorem State.setFreq_reads (k : Nat) (v : Word) : (s.setFreq k v).reads = s.reads := rfl
@[simp] theorem State.setFreq_draws (k : Nat) (v : Word) : (s.setFreq k v).draws = s.draws := rfl
@[simp] theorem State.setFreq_limit (k : Nat) (v : Word) : (s.setFreq k v).limit = s.limit := rfl
@[simp] theorem State.setFreq_len (k : Nat) (v : Word) (j : Nat) : (s.setFreq k v).len j = s.len j := rfl
@[simp] theorem State.setFreq_pos (k : Nat) (v : Word) : (s.setFreq k v).pos = s.pos := rfl
@[simp] theorem State.setFreq_argument (k : Nat) (v : Word) : (s.setFreq k v).argument = s.argument := rfl

/-! ### setLen -/

@[simp] theorem State.setLen_symLim (k : Nat) (v : BitVec 31) : (s.setLen k v).symLim = s.symLim := rfl
@[simp] theorem State.setLen_ft (k : Nat) (v : BitVec 31) : (s.setLen k v).ft = s.ft := rfl
@[simp] theorem State.setLen_cl (k : Nat) (v : BitVec 31) : (s.setLen k v).cl = tableSet s.cl k v := rfl
@[simp] theorem State.setLen_tree (k : Nat) (v : BitVec 31) : (s.setLen k v).tree = s.tree := rfl
@[simp] theorem State.setLen_cnt (k : Nat) (v : BitVec 31) : (s.setLen k v).cnt = s.cnt := rfl
@[simp] theorem State.setLen_boBuf (k : Nat) (v : BitVec 31) : (s.setLen k v).boBuf = s.boBuf := rfl
@[simp] theorem State.setLen_boNbits (k : Nat) (v : BitVec 31) : (s.setLen k v).boNbits = s.boNbits := rfl
@[simp] theorem State.setLen_biByte (k : Nat) (v : BitVec 31) : (s.setLen k v).biByte = s.biByte := rfl
@[simp] theorem State.setLen_biNrem (k : Nat) (v : BitVec 31) : (s.setLen k v).biNrem = s.biNrem := rfl
@[simp] theorem State.setLen_biEof (k : Nat) (v : BitVec 31) : (s.setLen k v).biEof = s.biEof := rfl
@[simp] theorem State.setLen_arg (k : Nat) (v : BitVec 31) : (s.setLen k v).arg = s.arg := rfl
@[simp] theorem State.setLen_result (k : Nat) (v : BitVec 31) : (s.setLen k v).result = s.result := rfl
@[simp] theorem State.setLen_err (k : Nat) (v : BitVec 31) : (s.setLen k v).err = s.err := rfl
@[simp] theorem State.setLen_errCode (k : Nat) (v : BitVec 31) : (s.setLen k v).errCode = s.errCode := rfl
@[simp] theorem State.setLen_errDetail (k : Nat) (v : BitVec 31) : (s.setLen k v).errDetail = s.errDetail := rfl
@[simp] theorem State.setLen_errInfo (k : Nat) (v : BitVec 31) : (s.setLen k v).errInfo = s.errInfo := rfl
@[simp] theorem State.setLen_inOvf (k : Nat) (v : BitVec 31) : (s.setLen k v).inOvf = s.inOvf := rfl
@[simp] theorem State.setLen_seq (k : Nat) (v : BitVec 31) : (s.setLen k v).seq = s.seq := rfl
@[simp] theorem State.setLen_curOp (k : Nat) (v : BitVec 31) : (s.setLen k v).curOp = s.curOp := rfl
@[simp] theorem State.setLen_inQ (k : Nat) (v : BitVec 31) : (s.setLen k v).inQ = s.inQ := rfl
@[simp] theorem State.setLen_outQ (k : Nat) (v : BitVec 31) : (s.setLen k v).outQ = s.outQ := rfl
@[simp] theorem State.setLen_script (k : Nat) (v : BitVec 31) : (s.setLen k v).script = s.script := rfl
@[simp] theorem State.setLen_reads (k : Nat) (v : BitVec 31) : (s.setLen k v).reads = s.reads := rfl
@[simp] theorem State.setLen_draws (k : Nat) (v : BitVec 31) : (s.setLen k v).draws = s.draws := rfl
@[simp] theorem State.setLen_limit (k : Nat) (v : BitVec 31) : (s.setLen k v).limit = s.limit := rfl
@[simp] theorem State.setLen_freq (k : Nat) (v : BitVec 31) (j : Nat) : (s.setLen k v).freq j = s.freq j := rfl
@[simp] theorem State.setLen_pos (k : Nat) (v : BitVec 31) : (s.setLen k v).pos = s.pos := rfl
@[simp] theorem State.setLen_argument (k : Nat) (v : BitVec 31) : (s.setLen k v).argument = s.argument := rfl

/-! ### fillFreq -/

@[simp] theorem State.fillFreq_symLim (lim : Nat) (v : Word) : (s.fillFreq lim v).symLim = s.symLim := rfl
@[simp] theorem State.fillFreq_ft (lim : Nat) (v : Word) : (s.fillFreq lim v).ft = tableFill lim (fun _ => v) s.ft := rfl
@[simp] theorem State.fillFreq_cl (lim : Nat) (v : Word) : (s.fillFreq lim v).cl = s.cl := rfl
@[simp] theorem State.fillFreq_tree (lim : Nat) (v : Word) : (s.fillFreq lim v).tree = s.tree := rfl
@[simp] theorem State.fillFreq_cnt (lim : Nat) (v : Word) : (s.fillFreq lim v).cnt = s.cnt := rfl
@[simp] theorem State.fillFreq_boBuf (lim : Nat) (v : Word) : (s.fillFreq lim v).boBuf = s.boBuf := rfl
@[simp] theorem State.fillFreq_boNbits (lim : Nat) (v : Word) : (s.fillFreq lim v).boNbits = s.boNbits := rfl
@[simp] theorem State.fillFreq_biByte (lim : Nat) (v : Word) : (s.fillFreq lim v).biByte = s.biByte := rfl
@[simp] theorem State.fillFreq_biNrem (lim : Nat) (v : Word) : (s.fillFreq lim v).biNrem = s.biNrem := rfl
@[simp] theorem State.fillFreq_biEof (lim : Nat) (v : Word) : (s.fillFreq lim v).biEof = s.biEof := rfl
@[simp] theorem State.fillFreq_arg (lim : Nat) (v : Word) : (s.fillFreq lim v).arg = s.arg := rfl
@[simp] theorem State.fillFreq_result (lim : Nat) (v : Word) : (s.fillFreq lim v).result = s.result := rfl
@[simp] theorem State.fillFreq_err (lim : Nat) (v : Word) : (s.fillFreq lim v).err = s.err := rfl
@[simp] theorem State.fillFreq_errCode (lim : Nat) (v : Word) : (s.fillFreq lim v).errCode = s.errCode := rfl
@[simp] theorem State.fillFreq_errDetail (lim : Nat) (v : Word) : (s.fillFreq lim v).errDetail = s.errDetail := rfl
@[simp] theorem State.fillFreq_errInfo (lim : Nat) (v : Word) : (s.fillFreq lim v).errInfo = s.errInfo := rfl
@[simp] theorem State.fillFreq_inOvf (lim : Nat) (v : Word) : (s.fillFreq lim v).inOvf = s.inOvf := rfl
@[simp] theorem State.fillFreq_seq (lim : Nat) (v : Word) : (s.fillFreq lim v).seq = s.seq := rfl
@[simp] theorem State.fillFreq_curOp (lim : Nat) (v : Word) : (s.fillFreq lim v).curOp = s.curOp := rfl
@[simp] theorem State.fillFreq_inQ (lim : Nat) (v : Word) : (s.fillFreq lim v).inQ = s.inQ := rfl
@[simp] theorem State.fillFreq_outQ (lim : Nat) (v : Word) : (s.fillFreq lim v).outQ = s.outQ := rfl
@[simp] theorem State.fillFreq_script (lim : Nat) (v : Word) : (s.fillFreq lim v).script = s.script := rfl
@[simp] theorem State.fillFreq_reads (lim : Nat) (v : Word) : (s.fillFreq lim v).reads = s.reads := rfl
@[simp] theorem State.fillFreq_draws (lim : Nat) (v : Word) : (s.fillFreq lim v).draws = s.draws := rfl
@[simp] theorem State.fillFreq_limit (lim : Nat) (v : Word) : (s.fillFreq lim v).limit = s.limit := rfl
@[simp] theorem State.fillFreq_len (lim : Nat) (v : Word) (j : Nat) : (s.fillFreq lim v).len j = s.len j := rfl
@[simp] theorem State.fillFreq_pos (lim : Nat) (v : Word) : (s.fillFreq lim v).pos = s.pos := rfl
@[simp] theorem State.fillFreq_argument (lim : Nat) (v : Word) : (s.fillFreq lim v).argument = s.argument := rfl

/-! ### fillLen -/

@[simp] theorem State.fillLen_symLim (f : Nat → Nat) : (s.fillLen f).symLim = s.symLim := rfl
@[simp] theorem State.fillLen_ft (f : Nat → Nat) : (s.fillLen f).ft = s.ft := rfl
@[simp] theorem State.fillLen_cl (f : Nat → Nat) : (s.fillLen f).cl = tableFill s.limit (fun k => BitVec.ofNat 31 (f k)) s.cl := rfl
@[simp] theorem State.fillLen_tree (f : Nat → Nat) : (s.fillLen f).tree = s.tree := rfl
@[simp] theorem State.fillLen_cnt (f : Nat → Nat) : (s.fillLen f).cnt = s.cnt := rfl
@[simp] theorem State.fillLen_boBuf (f : Nat → Nat) : (s.fillLen f).boBuf = s.boBuf := rfl
@[simp] theorem State.fillLen_boNbits (f : Nat → Nat) : (s.fillLen f).boNbits = s.boNbits := rfl
@[simp] theorem State.fillLen_biByte (f : Nat → Nat) : (s.fillLen f).biByte = s.biByte := rfl
@[simp] theorem State.fillLen_biNrem (f : Nat → Nat) : (s.fillLen f).biNrem = s.biNrem := rfl
@[simp] theorem State.fillLen_biEof (f : Nat → Nat) : (s.fillLen f).biEof = s.biEof := rfl
@[simp] theorem State.fillLen_arg (f : Nat → Nat) : (s.fillLen f).arg = s.arg := rfl
@[simp] theorem State.fillLen_result (f : Nat → Nat) : (s.fillLen f).result = s.result := rfl
@[simp] theorem State.fillLen_err (f : Nat → Nat) : (s.fillLen f).err = s.err := rfl
@[simp] theorem State.fillLen_errCode (f : Nat → Nat) : (s.fillLen f).errCode = s.errCode := rfl
@[simp] theorem State.fillLen_errDetail (f : Nat → Nat) : (s.fillLen f).errDetail = s.errDetail := rfl
@[simp] theorem State.fillLen_errInfo (f : Nat → Nat) : (s.fillLen f).errInfo = s.errInfo := rfl
@[simp] theorem State.fillLen_inOvf (f : Nat → Nat) : (s.fillLen f).inOvf = s.inOvf := rfl
@[simp] theorem State.fillLen_seq (f : Nat → Nat) : (s.fillLen f).seq = s.seq := rfl
@[simp] theorem State.fillLen_curOp (f : Nat → Nat) : (s.fillLen f).curOp = s.curOp := rfl
@[simp] theorem State.fillLen_inQ (f : Nat → Nat) : (s.fillLen f).inQ = s.inQ := rfl
@[simp] theorem State.fillLen_outQ (f : Nat → Nat) : (s.fillLen f).outQ = s.outQ := rfl
@[simp] theorem State.fillLen_script (f : Nat → Nat) : (s.fillLen f).script = s.script := rfl
@[simp] theorem State.fillLen_reads (f : Nat → Nat) : (s.fillLen f).reads = s.reads := rfl
@[simp] theorem State.fillLen_draws (f : Nat → Nat) : (s.fillLen f).draws = s.draws := rfl
@[simp] theorem State.fillLen_limit (f : Nat → Nat) : (s.fillLen f).limit = s.limit := rfl
@[simp] theorem State.fillLen_freq (f : Nat → Nat) (j : Nat) : (s.fillLen f).freq j = s.freq j := rfl
@[simp] theorem State.fillLen_pos (f : Nat → Nat) : (s.fillLen f).pos = s.pos := rfl
@[simp] theorem State.fillLen_argument (f : Nat → Nat) : (s.fillLen f).argument = s.argument := rfl

/-! ### park -/

@[simp] theorem State.park_symLim (p : Pos) : (s.park p).symLim = s.symLim := rfl
@[simp] theorem State.park_ft (p : Pos) : (s.park p).ft = s.ft := rfl
@[simp] theorem State.park_cl (p : Pos) : (s.park p).cl = s.cl := rfl
@[simp] theorem State.park_tree (p : Pos) : (s.park p).tree = s.tree := rfl
@[simp] theorem State.park_cnt (p : Pos) : (s.park p).cnt = s.cnt := rfl
@[simp] theorem State.park_boBuf (p : Pos) : (s.park p).boBuf = s.boBuf := rfl
@[simp] theorem State.park_boNbits (p : Pos) : (s.park p).boNbits = s.boNbits := rfl
@[simp] theorem State.park_biByte (p : Pos) : (s.park p).biByte = s.biByte := rfl
@[simp] theorem State.park_biNrem (p : Pos) : (s.park p).biNrem = s.biNrem := rfl
@[simp] theorem State.park_biEof (p : Pos) : (s.park p).biEof = s.biEof := rfl
@[simp] theorem State.park_arg (p : Pos) : (s.park p).arg = s.arg := rfl
@[simp] theorem State.park_result (p : Pos) : (s.park p).result = s.result := rfl
@[simp] theorem State.park_err (p : Pos) : (s.park p).err = s.err := rfl
@[simp] theorem State.park_errCode (p : Pos) : (s.park p).errCode = s.errCode := rfl
@[simp] theorem State.park_errDetail (p : Pos) : (s.park p).errDetail = s.errDetail := rfl
@[simp] theorem State.park_errInfo (p : Pos) : (s.park p).errInfo = s.errInfo := rfl
@[simp] theorem State.park_inOvf (p : Pos) : (s.park p).inOvf = s.inOvf := rfl
@[simp] theorem State.park_seq (p : Pos) : (s.park p).seq = s.seq.moved p := rfl
@[simp] theorem State.park_curOp (p : Pos) : (s.park p).curOp = s.curOp := rfl
@[simp] theorem State.park_inQ (p : Pos) : (s.park p).inQ = s.inQ := rfl
@[simp] theorem State.park_outQ (p : Pos) : (s.park p).outQ = s.outQ := rfl
@[simp] theorem State.park_script (p : Pos) : (s.park p).script = s.script := rfl
@[simp] theorem State.park_reads (p : Pos) : (s.park p).reads = s.reads := rfl
@[simp] theorem State.park_draws (p : Pos) : (s.park p).draws = s.draws := rfl
@[simp] theorem State.park_limit (p : Pos) : (s.park p).limit = s.limit := rfl
@[simp] theorem State.park_freq (p : Pos) (j : Nat) : (s.park p).freq j = s.freq j := rfl
@[simp] theorem State.park_len (p : Pos) (j : Nat) : (s.park p).len j = s.len j := rfl

/-! ### toIdle -/

@[simp] theorem State.toIdle_symLim : (s.toIdle).symLim = s.symLim := rfl
@[simp] theorem State.toIdle_ft : (s.toIdle).ft = s.ft := rfl
@[simp] theorem State.toIdle_cl : (s.toIdle).cl = s.cl := rfl
@[simp] theorem State.toIdle_tree : (s.toIdle).tree = s.tree := rfl
@[simp] theorem State.toIdle_cnt : (s.toIdle).cnt = s.cnt := rfl
@[simp] theorem State.toIdle_boBuf : (s.toIdle).boBuf = s.boBuf := rfl
@[simp] theorem State.toIdle_boNbits : (s.toIdle).boNbits = s.boNbits := rfl
@[simp] theorem State.toIdle_biByte : (s.toIdle).biByte = s.biByte := rfl
@[simp] theorem State.toIdle_biNrem : (s.toIdle).biNrem = s.biNrem := rfl
@[simp] theorem State.toIdle_biEof : (s.toIdle).biEof = s.biEof := rfl
@[simp] theorem State.toIdle_arg : (s.toIdle).arg = s.arg := rfl
@[simp] theorem State.toIdle_result : (s.toIdle).result = s.result := rfl
@[simp] theorem State.toIdle_err : (s.toIdle).err = s.err := rfl
@[simp] theorem State.toIdle_errCode : (s.toIdle).errCode = s.errCode := rfl
@[simp] theorem State.toIdle_errDetail : (s.toIdle).errDetail = s.errDetail := rfl
@[simp] theorem State.toIdle_errInfo : (s.toIdle).errInfo = s.errInfo := rfl
@[simp] theorem State.toIdle_inOvf : (s.toIdle).inOvf = s.inOvf := rfl
@[simp] theorem State.toIdle_seq : (s.toIdle).seq = .idle := rfl
@[simp] theorem State.toIdle_curOp : (s.toIdle).curOp = s.curOp := rfl
@[simp] theorem State.toIdle_inQ : (s.toIdle).inQ = s.inQ := rfl
@[simp] theorem State.toIdle_outQ : (s.toIdle).outQ = s.outQ := rfl
@[simp] theorem State.toIdle_script : (s.toIdle).script = s.script := rfl
@[simp] theorem State.toIdle_reads : (s.toIdle).reads = s.reads := rfl
@[simp] theorem State.toIdle_draws : (s.toIdle).draws = s.draws := rfl
@[simp] theorem State.toIdle_limit : (s.toIdle).limit = s.limit := rfl
@[simp] theorem State.toIdle_freq (j : Nat) : (s.toIdle).freq j = s.freq j := rfl
@[simp] theorem State.toIdle_len (j : Nat) : (s.toIdle).len j = s.len j := rfl

/-! ### failed -/

@[simp] theorem State.failed_symLim (e : ErrKind) (info : Word) : (s.failed e info).symLim = s.symLim := rfl
@[simp] theorem State.failed_ft (e : ErrKind) (info : Word) : (s.failed e info).ft = s.ft := rfl
@[simp] theorem State.failed_cl (e : ErrKind) (info : Word) : (s.failed e info).cl = s.cl := rfl
@[simp] theorem State.failed_tree (e : ErrKind) (info : Word) : (s.failed e info).tree = s.tree := rfl
@[simp] theorem State.failed_cnt (e : ErrKind) (info : Word) : (s.failed e info).cnt = s.cnt := rfl
@[simp] theorem State.failed_boBuf (e : ErrKind) (info : Word) : (s.failed e info).boBuf = s.boBuf := rfl
@[simp] theorem State.failed_boNbits (e : ErrKind) (info : Word) : (s.failed e info).boNbits = s.boNbits := rfl
@[simp] theorem State.failed_biByte (e : ErrKind) (info : Word) : (s.failed e info).biByte = s.biByte := rfl
@[simp] theorem State.failed_biNrem (e : ErrKind) (info : Word) : (s.failed e info).biNrem = s.biNrem := rfl
@[simp] theorem State.failed_biEof (e : ErrKind) (info : Word) : (s.failed e info).biEof = s.biEof := rfl
@[simp] theorem State.failed_arg (e : ErrKind) (info : Word) : (s.failed e info).arg = s.arg := rfl
@[simp] theorem State.failed_result (e : ErrKind) (info : Word) : (s.failed e info).result = s.result := rfl
@[simp] theorem State.failed_err (e : ErrKind) (info : Word) : (s.failed e info).err = true := rfl
@[simp] theorem State.failed_errCode (e : ErrKind) (info : Word) : (s.failed e info).errCode = e.code := rfl
@[simp] theorem State.failed_errDetail (e : ErrKind) (info : Word) : (s.failed e info).errDetail = e.detail := rfl
@[simp] theorem State.failed_errInfo (e : ErrKind) (info : Word) : (s.failed e info).errInfo = info := rfl
@[simp] theorem State.failed_inOvf (e : ErrKind) (info : Word) : (s.failed e info).inOvf = s.inOvf := rfl
@[simp] theorem State.failed_seq (e : ErrKind) (info : Word) : (s.failed e info).seq = .idle := rfl
@[simp] theorem State.failed_curOp (e : ErrKind) (info : Word) : (s.failed e info).curOp = s.curOp := rfl
@[simp] theorem State.failed_inQ (e : ErrKind) (info : Word) : (s.failed e info).inQ = s.inQ := rfl
@[simp] theorem State.failed_outQ (e : ErrKind) (info : Word) : (s.failed e info).outQ = s.outQ := rfl
@[simp] theorem State.failed_script (e : ErrKind) (info : Word) : (s.failed e info).script = s.script := rfl
@[simp] theorem State.failed_reads (e : ErrKind) (info : Word) : (s.failed e info).reads = s.reads := rfl
@[simp] theorem State.failed_draws (e : ErrKind) (info : Word) : (s.failed e info).draws = s.draws := rfl
@[simp] theorem State.failed_limit (e : ErrKind) (info : Word) : (s.failed e info).limit = s.limit := rfl
@[simp] theorem State.failed_freq (e : ErrKind) (info : Word) (j : Nat) : (s.failed e info).freq j = s.freq j := rfl
@[simp] theorem State.failed_len (e : ErrKind) (info : Word) (j : Nat) : (s.failed e info).len j = s.len j := rfl

/-! ### clearError -/

@[simp] theorem State.clearError_symLim : (s.clearError).symLim = s.symLim := rfl
@[simp] theorem State.clearError_ft : (s.clearError).ft = s.ft := rfl
@[simp] theorem State.clearError_cl : (s.clearError).cl = s.cl := rfl
@[simp] theorem State.clearError_tree : (s.clearError).tree = s.tree := rfl
@[simp] theorem State.clearError_cnt : (s.clearError).cnt = s.cnt := rfl
@[simp] theorem State.clearError_boBuf : (s.clearError).boBuf = s.boBuf := rfl
@[simp] theorem State.clearError_boNbits : (s.clearError).boNbits = s.boNbits := rfl
@[simp] theorem State.clearError_biByte : (s.clearError).biByte = s.biByte := rfl
@[simp] theorem State.clearError_biNrem : (s.clearError).biNrem = s.biNrem := rfl
@[simp] theorem State.clearError_biEof : (s.clearError).biEof = s.biEof := rfl
@[simp] theorem State.clearError_arg : (s.clearError).arg = s.arg := rfl
@[simp] theorem State.clearError_result : (s.clearError).result = s.result := rfl
@[simp] theorem State.clearError_err : (s.clearError).err = false := rfl
@[simp] theorem State.clearError_errCode : (s.clearError).errCode = 0 := rfl
@[simp] theorem State.clearError_errDetail : (s.clearError).errDetail = 0 := rfl
@[simp] theorem State.clearError_errInfo : (s.clearError).errInfo = 0 := rfl
@[simp] theorem State.clearError_inOvf : (s.clearError).inOvf = false := rfl
@[simp] theorem State.clearError_seq : (s.clearError).seq = s.seq := rfl
@[simp] theorem State.clearError_curOp : (s.clearError).curOp = s.curOp := rfl
@[simp] theorem State.clearError_inQ : (s.clearError).inQ = s.inQ := rfl
@[simp] theorem State.clearError_outQ : (s.clearError).outQ = s.outQ := rfl
@[simp] theorem State.clearError_script : (s.clearError).script = s.script := rfl
@[simp] theorem State.clearError_reads : (s.clearError).reads = s.reads := rfl
@[simp] theorem State.clearError_draws : (s.clearError).draws = s.draws := rfl
@[simp] theorem State.clearError_limit : (s.clearError).limit = s.limit := rfl
@[simp] theorem State.clearError_freq (j : Nat) : (s.clearError).freq j = s.freq j := rfl
@[simp] theorem State.clearError_len (j : Nat) : (s.clearError).len j = s.len j := rfl
@[simp] theorem State.clearError_pos : (s.clearError).pos = s.pos := rfl
@[simp] theorem State.clearError_argument : (s.clearError).argument = s.argument := rfl

/-! ### resetBO -/

@[simp] theorem State.resetBO_symLim : (s.resetBO).symLim = s.symLim := rfl
@[simp] theorem State.resetBO_ft : (s.resetBO).ft = s.ft := rfl
@[simp] theorem State.resetBO_cl : (s.resetBO).cl = s.cl := rfl
@[simp] theorem State.resetBO_tree : (s.resetBO).tree = s.tree := rfl
@[simp] theorem State.resetBO_cnt : (s.resetBO).cnt = s.cnt := rfl
@[simp] theorem State.resetBO_boBuf : (s.resetBO).boBuf = 0 := rfl
@[simp] theorem State.resetBO_boNbits : (s.resetBO).boNbits = 0 := rfl
@[simp] theorem State.resetBO_biByte : (s.resetBO).biByte = s.biByte := rfl
@[simp] theorem State.resetBO_biNrem : (s.resetBO).biNrem = s.biNrem := rfl
@[simp] theorem State.resetBO_biEof : (s.resetBO).biEof = s.biEof := rfl
@[simp] theorem State.resetBO_arg : (s.resetBO).arg = s.arg := rfl
@[simp] theorem State.resetBO_result : (s.resetBO).result = s.result := rfl
@[simp] theorem State.resetBO_err : (s.resetBO).err = s.err := rfl
@[simp] theorem State.resetBO_errCode : (s.resetBO).errCode = s.errCode := rfl
@[simp] theorem State.resetBO_errDetail : (s.resetBO).errDetail = s.errDetail := rfl
@[simp] theorem State.resetBO_errInfo : (s.resetBO).errInfo = s.errInfo := rfl
@[simp] theorem State.resetBO_inOvf : (s.resetBO).inOvf = s.inOvf := rfl
@[simp] theorem State.resetBO_seq : (s.resetBO).seq = s.seq := rfl
@[simp] theorem State.resetBO_curOp : (s.resetBO).curOp = s.curOp := rfl
@[simp] theorem State.resetBO_inQ : (s.resetBO).inQ = s.inQ := rfl
@[simp] theorem State.resetBO_outQ : (s.resetBO).outQ = s.outQ := rfl
@[simp] theorem State.resetBO_script : (s.resetBO).script = s.script := rfl
@[simp] theorem State.resetBO_reads : (s.resetBO).reads = s.reads := rfl
@[simp] theorem State.resetBO_draws : (s.resetBO).draws = s.draws := rfl
@[simp] theorem State.resetBO_limit : (s.resetBO).limit = s.limit := rfl
@[simp] theorem State.resetBO_freq (j : Nat) : (s.resetBO).freq j = s.freq j := rfl
@[simp] theorem State.resetBO_len (j : Nat) : (s.resetBO).len j = s.len j := rfl
@[simp] theorem State.resetBO_pos : (s.resetBO).pos = s.pos := rfl
@[simp] theorem State.resetBO_argument : (s.resetBO).argument = s.argument := rfl

/-! ### resetBI -/

@[simp] theorem State.resetBI_symLim : (s.resetBI).symLim = s.symLim := rfl
@[simp] theorem State.resetBI_ft : (s.resetBI).ft = s.ft := rfl
@[simp] theorem State.resetBI_cl : (s.resetBI).cl = s.cl := rfl
@[simp] theorem State.resetBI_tree : (s.resetBI).tree = s.tree := rfl
@[simp] theorem State.resetBI_cnt : (s.resetBI).cnt = s.cnt := rfl
@[simp] theorem State.resetBI_boBuf : (s.resetBI).boBuf = s.boBuf := rfl
@[simp] theorem State.resetBI_boNbits : (s.resetBI).boNbits = s.boNbits := rfl
@[simp] theorem State.resetBI_biByte : (s.resetBI).biByte = 0 := rfl
@[simp] theorem State.resetBI_biNrem : (s.resetBI).biNrem = 0 := rfl
@[simp] theorem State.resetBI_biEof : (s.resetBI).biEof = false := rfl
@[simp] theorem State.resetBI_arg : (s.resetBI).arg = s.arg := rfl
@[simp] theorem State.resetBI_result : (s.resetBI).result = s.result := rfl
@[simp] theorem State.resetBI_err : (s.resetBI).err = s.err := rfl
@[simp] theorem State.resetBI_errCode : (s.resetBI).errCode = s.errCode := rfl
@[simp] theorem State.resetBI_errDetail : (s.resetBI).errDetail = s.errDetail := rfl
@[simp] theorem State.resetBI_errInfo : (s.resetBI).errInfo = s.errInfo := rfl
@[simp] theorem State.resetBI_inOvf : (s.resetBI).inOvf = s.inOvf := rfl
@[simp] theorem State.resetBI_seq : (s.resetBI).seq = s.seq := rfl
@[simp] theorem State.resetBI_curOp : (s.resetBI).curOp = s.curOp := rfl
@[simp] theorem State.resetBI_inQ : (s.resetBI).inQ = s.inQ := rfl
@[simp] theorem State.resetBI_outQ : (s.resetBI).outQ = s.outQ := rfl
@[simp] theorem State.resetBI_script : (s.resetBI).script = s.script := rfl
@[simp] theorem State.resetBI_reads : (s.resetBI).reads = s.reads := rfl
@[simp] theorem State.resetBI_draws : (s.resetBI).draws = s.draws := rfl
@[simp] theorem State.resetBI_limit : (s.resetBI).limit = s.limit := rfl
@[simp] theorem State.resetBI_freq (j : Nat) : (s.resetBI).freq j = s.freq j := rfl
@[simp] theorem State.resetBI_len (j : Nat) : (s.resetBI).len j = s.len j := rfl
@[simp] theorem State.resetBI_pos : (s.resetBI).pos = s.pos := rfl
@[simp] theorem State.resetBI_argument : (s.resetBI).argument = s.argument := rfl

/-! ### rebuild -/

@[simp] theorem State.rebuild_symLim : (s.rebuild).symLim = s.symLim := rfl
@[simp] theorem State.rebuild_ft : (s.rebuild).ft = s.ft := rfl
@[simp] theorem State.rebuild_cl : (s.rebuild).cl = s.cl := rfl
@[simp] theorem State.rebuild_tree : (s.rebuild).tree = buildTree s.ft s.limit := rfl
@[simp] theorem State.rebuild_cnt : (s.rebuild).cnt = s.cnt := rfl
@[simp] theorem State.rebuild_boBuf : (s.rebuild).boBuf = s.boBuf := rfl
@[simp] theorem State.rebuild_boNbits : (s.rebuild).boNbits = s.boNbits := rfl
@[simp] theorem State.rebuild_biByte : (s.rebuild).biByte = s.biByte := rfl
@[simp] theorem State.rebuild_biNrem : (s.rebuild).biNrem = s.biNrem := rfl
@[simp] theorem State.rebuild_biEof : (s.rebuild).biEof = s.biEof := rfl
@[simp] theorem State.rebuild_arg : (s.rebuild).arg = s.arg := rfl
@[simp] theorem State.rebuild_result : (s.rebuild).result = s.result := rfl
@[simp] theorem State.rebuild_err : (s.rebuild).err = s.err := rfl
@[simp] theorem State.rebuild_errCode : (s.rebuild).errCode = s.errCode := rfl
@[simp] theorem State.rebuild_errDetail : (s.rebuild).errDetail = s.errDetail := rfl
@[simp] theorem State.rebuild_errInfo : (s.rebuild).errInfo = s.errInfo := rfl
@[simp] theorem State.rebuild_inOvf : (s.rebuild).inOvf = s.inOvf := rfl
@[simp] theorem State.rebuild_seq : (s.rebuild).seq = s.seq := rfl
@[simp] theorem State.rebuild_curOp : (s.rebuild).curOp = s.curOp := rfl
@[simp] theorem State.rebuild_inQ : (s.rebuild).inQ = s.inQ := rfl
@[simp] theorem State.rebuild_outQ : (s.rebuild).outQ = s.outQ := rfl
@[simp] theorem State.rebuild_script : (s.rebuild).script = s.script := rfl
@[simp] theorem State.rebuild_reads : (s.rebuild).reads = s.reads := rfl
@[simp] theorem State.rebuild_draws : (s.rebuild).draws = s.draws := rfl
@[simp] theorem State.rebuild_limit : (s.rebuild).limit = s.limit := rfl
@[simp] theorem State.rebuild_freq (j : Nat) : (s.rebuild).freq j = s.freq j := rfl
@[simp] theorem State.rebuild_len (j : Nat) : (s.rebuild).len j = s.len j := rfl
@[simp] theorem State.rebuild_pos : (s.rebuild).pos = s.pos := rfl
@[simp] theorem State.rebuild_argument : (s.rebuild).argument = s.argument := rfl

/-! ### forceEof -/

@[simp] theorem State.forceEof_symLim : (s.forceEof).symLim = s.symLim := rfl
@[simp] theorem State.forceEof_ft : (s.forceEof).ft = if s.freq Config.eofSym = 0 then tableSet s.ft Config.eofSym 1 else s.ft := rfl
@[simp] theorem State.forceEof_cl : (s.forceEof).cl = s.cl := rfl
@[simp] theorem State.forceEof_tree : (s.forceEof).tree = s.tree := rfl
@[simp] theorem State.forceEof_cnt : (s.forceEof).cnt = s.cnt := rfl
@[simp] theorem State.forceEof_boBuf : (s.forceEof).boBuf = s.boBuf := rfl
@[simp] theorem State.forceEof_boNbits : (s.forceEof).boNbits = s.boNbits := rfl
@[simp] theorem State.forceEof_biByte : (s.forceEof).biByte = s.biByte := rfl
@[simp] theorem State.forceEof_biNrem : (s.forceEof).biNrem = s.biNrem := rfl
@[simp] theorem State.forceEof_biEof : (s.forceEof).biEof = s.biEof := rfl
@[simp] theorem State.forceEof_arg : (s.forceEof).arg = s.arg := rfl
@[simp] theorem State.forceEof_result : (s.forceEof).result = s.result := rfl
@[simp] theorem State.forceEof_err : (s.forceEof).err = s.err := rfl
@[simp] theorem State.forceEof_errCode : (s.forceEof).errCode = s.errCode := rfl
@[simp] theorem State.forceEof_errDetail : (s.forceEof).errDetail = s.errDetail := rfl
@[simp] theorem State.forceEof_errInfo : (s.forceEof).errInfo = s.errInfo := rfl
@[simp] theorem State.forceEof_inOvf : (s.forceEof).inOvf = s.inOvf := rfl
@[simp] theorem State.forceEof_seq : (s.forceEof).seq = s.seq := rfl
@[simp] theorem State.forceEof_curOp : (s.forceEof).curOp = s.curOp := rfl
@[simp] theorem State.forceEof_inQ : (s.forceEof).inQ = s.inQ := rfl
@[simp] theorem State.forceEof_outQ : (s.forceEof).outQ = s.outQ := rfl
@[simp] theorem State.forceEof_script : (s.forceEof).script = s.script := rfl
@[simp] theorem State.forceEof_reads : (s.forceEof).reads = s.reads := rfl
@[simp] theorem State.forceEof_draws : (s.forceEof).draws = s.draws := rfl
@[simp] theorem State.forceEof_limit : (s.forceEof).limit = s.limit := rfl
@[simp] theorem State.forceEof_len (j : Nat) : (s.forceEof).len j = s.len j := rfl
@[simp] theorem State.forceEof_pos : (s.forceEof).pos = s.pos := rfl
@[simp] theorem State.forceEof_argument : (s.forceEof).argument = s.argument := rfl

/-! ### optimalLengths -/

@[simp] theorem State.optimalLengths_symLim : (s.optimalLengths).symLim = s.symLim := rfl
@[simp] theorem State.optimalLengths_ft : (s.optimalLengths).ft = s.ft := rfl
@[simp] theorem State.optimalLengths_cl : (s.optimalLengths).cl = tableFill s.limit (fun k => BitVec.ofNat 31 (treeLength (buildTree s.ft s.limit) k)) s.cl := rfl
@[simp] theorem State.optimalLengths_tree : (s.optimalLengths).tree = s.tree := rfl
@[simp] theorem State.optimalLengths_cnt : (s.optimalLengths).cnt = s.cnt := rfl
@[simp] theorem State.optimalLengths_boBuf : (s.optimalLengths).boBuf = s.boBuf := rfl
@[simp] theorem State.optimalLengths_boNbits : (s.optimalLengths).boNbits = s.boNbits := rfl
@[simp] theorem State.optimalLengths_biByte : (s.optimalLengths).biByte = s.biByte := rfl
@[simp] theorem State.optimalLengths_biNrem : (s.optimalLengths).biNrem = s.biNrem := rfl
@[simp] theorem State.optimalLengths_biEof : (s.optimalLengths).biEof = s.biEof := rfl
@[simp] theorem State.optimalLengths_arg : (s.optimalLengths).arg = s.arg := rfl
@[simp] theorem State.optimalLengths_result : (s.optimalLengths).result = s.result := rfl
@[simp] theorem State.optimalLengths_err : (s.optimalLengths).err = s.err := rfl
@[simp] theorem State.optimalLengths_errCode : (s.optimalLengths).errCode = s.errCode := rfl
@[simp] theorem State.optimalLengths_errDetail : (s.optimalLengths).errDetail = s.errDetail := rfl
@[simp] theorem State.optimalLengths_errInfo : (s.optimalLengths).errInfo = s.errInfo := rfl
@[simp] theorem State.optimalLengths_inOvf : (s.optimalLengths).inOvf = s.inOvf := rfl
@[simp] theorem State.optimalLengths_seq : (s.optimalLengths).seq = s.seq := rfl
@[simp] theorem State.optimalLengths_curOp : (s.optimalLengths).curOp = s.curOp := rfl
@[simp] theorem State.optimalLengths_inQ : (s.optimalLengths).inQ = s.inQ := rfl
@[simp] theorem State.optimalLengths_outQ : (s.optimalLengths).outQ = s.outQ := rfl
@[simp] theorem State.optimalLengths_script : (s.optimalLengths).script = s.script := rfl
@[simp] theorem State.optimalLengths_reads : (s.optimalLengths).reads = s.reads := rfl
@[simp] theorem State.optimalLengths_draws : (s.optimalLengths).draws = s.draws := rfl
@[simp] theorem State.optimalLengths_limit : (s.optimalLengths).limit = s.limit := rfl
@[simp] theorem State.optimalLengths_freq (j : Nat) : (s.optimalLengths).freq j = s.freq j := rfl
@[simp] theorem State.optimalLengths_pos : (s.optimalLengths).pos = s.pos := rfl
@[simp] theorem State.optimalLengths_argument : (s.optimalLengths).argument = s.argument := rfl

/-! ### countSym -/

@[simp] theorem State.countSym_symLim (sym : Nat) : (s.countSym sym).symLim = s.symLim := rfl
@[simp] theorem State.countSym_ft (sym : Nat) : (s.countSym sym).ft = tableSet s.ft sym (s.freq sym + 1) := rfl
@[simp] theorem State.countSym_cl (sym : Nat) : (s.countSym sym).cl = s.cl := rfl
@[simp] theorem State.countSym_tree (sym : Nat) : (s.countSym sym).tree = s.tree := rfl
@[simp] theorem State.countSym_cnt (sym : Nat) : (s.countSym sym).cnt = s.cnt := rfl
@[simp] theorem State.countSym_boBuf (sym : Nat) : (s.countSym sym).boBuf = s.boBuf := rfl
@[simp] theorem State.countSym_boNbits (sym : Nat) : (s.countSym sym).boNbits = s.boNbits := rfl
@[simp] theorem State.countSym_biByte (sym : Nat) : (s.countSym sym).biByte = s.biByte := rfl
@[simp] theorem State.countSym_biNrem (sym : Nat) : (s.countSym sym).biNrem = s.biNrem := rfl
@[simp] theorem State.countSym_biEof (sym : Nat) : (s.countSym sym).biEof = s.biEof := rfl
@[simp] theorem State.countSym_arg (sym : Nat) : (s.countSym sym).arg = s.arg := rfl
@[simp] theorem State.countSym_result (sym : Nat) : (s.countSym sym).result = s.result := rfl
@[simp] theorem State.countSym_err (sym : Nat) : (s.countSym sym).err = s.err := rfl
@[simp] theorem State.countSym_errCode (sym : Nat) : (s.countSym sym).errCode = s.errCode := rfl
@[simp] theorem State.countSym_errDetail (sym : Nat) : (s.countSym sym).errDetail = s.errDetail := rfl
@[simp] theorem State.countSym_errInfo (sym : Nat) : (s.countSym sym).errInfo = s.errInfo := rfl
@[simp] theorem State.countSym_inOvf (sym : Nat) : (s.countSym sym).inOvf = s.inOvf := rfl
@[simp] theorem State.countSym_seq (sym : Nat) : (s.countSym sym).seq = s.seq := rfl
@[simp] theorem State.countSym_curOp (sym : Nat) : (s.countSym sym).curOp = s.curOp := rfl
@[simp] theorem State.countSym_inQ (sym : Nat) : (s.countSym sym).inQ = s.inQ := rfl
@[simp] theorem State.countSym_outQ (sym : Nat) : (s.countSym sym).outQ = s.outQ := rfl
@[simp] theorem State.countSym_script (sym : Nat) : (s.countSym sym).script = s.script := rfl
@[simp] theorem State.countSym_reads (sym : Nat) : (s.countSym sym).reads = s.reads := rfl
@[simp] theorem State.countSym_draws (sym : Nat) : (s.countSym sym).draws = s.draws := rfl
@[simp] theorem State.countSym_limit (sym : Nat) : (s.countSym sym).limit = s.limit := rfl
@[simp] theorem State.countSym_len (sym : Nat) (j : Nat) : (s.countSym sym).len j = s.len j := rfl
@[simp] theorem State.countSym_pos (sym : Nat) : (s.countSym sym).pos = s.pos := rfl
@[simp] theorem State.countSym_argument (sym : Nat) : (s.countSym sym).argument = s.argument := rfl

/-! ### checkpoint -/

@[simp] theorem State.checkpoint_symLim : (s.checkpoint).symLim = s.symLim := rfl
@[simp] theorem State.checkpoint_ft : (s.checkpoint).ft = if epochEnds s.cnt.toNat then tableFill Config.maxSym (fun _ => 1) s.ft else s.ft := rfl
@[simp] theorem State.checkpoint_cl : (s.checkpoint).cl = s.cl := rfl
@[simp] theorem State.checkpoint_tree : (s.checkpoint).tree = if rebuildsAt s.cnt.toNat then buildTree s.ft s.limit else s.tree := rfl
@[simp] theorem State.checkpoint_cnt : (s.checkpoint).cnt = s.cnt := rfl
@[simp] theorem State.checkpoint_boBuf : (s.checkpoint).boBuf = s.boBuf := rfl
@[simp] theorem State.checkpoint_boNbits : (s.checkpoint).boNbits = s.boNbits := rfl
@[simp] theorem State.checkpoint_biByte : (s.checkpoint).biByte = s.biByte := rfl
@[simp] theorem State.checkpoint_biNrem : (s.checkpoint).biNrem = s.biNrem := rfl
@[simp] theorem State.checkpoint_biEof : (s.checkpoint).biEof = s.biEof := rfl
@[simp] theorem State.checkpoint_arg : (s.checkpoint).arg = s.arg := rfl
@[simp] theorem State.checkpoint_result : (s.checkpoint).result = s.result := rfl
@[simp] theorem State.checkpoint_err : (s.checkpoint).err = s.err := rfl
@[simp] theorem State.checkpoint_errCode : (s.checkpoint).errCode = s.errCode := rfl
@[simp] theorem State.checkpoint_errDetail : (s.checkpoint).errDetail = s.errDetail := rfl
@[simp] theorem State.checkpoint_errInfo : (s.checkpoint).errInfo = s.errInfo := rfl
@[simp] theorem State.checkpoint_inOvf : (s.checkpoint).inOvf = s.inOvf := rfl
@[simp] theorem State.checkpoint_seq : (s.checkpoint).seq = s.seq := rfl
@[simp] theorem State.checkpoint_curOp : (s.checkpoint).curOp = s.curOp := rfl
@[simp] theorem State.checkpoint_inQ : (s.checkpoint).inQ = s.inQ := rfl
@[simp] theorem State.checkpoint_outQ : (s.checkpoint).outQ = s.outQ := rfl
@[simp] theorem State.checkpoint_script : (s.checkpoint).script = s.script := rfl
@[simp] theorem State.checkpoint_reads : (s.checkpoint).reads = s.reads := rfl
@[simp] theorem State.checkpoint_draws : (s.checkpoint).draws = s.draws := rfl
@[simp] theorem State.checkpoint_limit : (s.checkpoint).limit = s.limit := rfl
@[simp] theorem State.checkpoint_len (j : Nat) : (s.checkpoint).len j = s.len j := rfl
@[simp] theorem State.checkpoint_pos : (s.checkpoint).pos = s.pos := rfl
@[simp] theorem State.checkpoint_argument : (s.checkpoint).argument = s.argument := rfl

/-! ### adaptiveStart -/

@[simp] theorem State.adaptiveStart_symLim : (s.adaptiveStart).symLim = s.symLim := rfl
@[simp] theorem State.adaptiveStart_ft : (s.adaptiveStart).ft = tableFill Config.maxSym (fun _ => 1) s.ft := rfl
@[simp] theorem State.adaptiveStart_cl : (s.adaptiveStart).cl = s.cl := rfl
@[simp] theorem State.adaptiveStart_tree : (s.adaptiveStart).tree = buildTree (tableFill Config.maxSym (fun _ => 1) s.ft) s.limit := rfl
@[simp] theorem State.adaptiveStart_cnt : (s.adaptiveStart).cnt = 0 := rfl
@[simp] theorem State.adaptiveStart_boBuf : (s.adaptiveStart).boBuf = s.boBuf := rfl
@[simp] theorem State.adaptiveStart_boNbits : (s.adaptiveStart).boNbits = s.boNbits := rfl
@[simp] theorem State.adaptiveStart_biByte : (s.adaptiveStart).biByte = s.biByte := rfl
@[simp] theorem State.adaptiveStart_biNrem : (s.adaptiveStart).biNrem = s.biNrem := rfl
@[simp] theorem State.adaptiveStart_biEof : (s.adaptiveStart).biEof = s.biEof := rfl
@[simp] theorem State.adaptiveStart_arg : (s.adaptiveStart).arg = s.arg := rfl
@[simp] theorem State.adaptiveStart_result : (s.adaptiveStart).result = s.result := rfl
@[simp] theorem State.adaptiveStart_err : (s.adaptiveStart).err = s.err := rfl
@[simp] theorem State.adaptiveStart_errCode : (s.adaptiveStart).errCode = s.errCode := rfl
@[simp] theorem State.adaptiveStart_errDetail : (s.adaptiveStart).errDetail = s.errDetail := rfl
@[simp] theorem State.adaptiveStart_errInfo : (s.adaptiveStart).errInfo = s.errInfo := rfl
@[simp] theorem State.adaptiveStart_inOvf : (s.adaptiveStart).inOvf = s.inOvf := rfl
@[simp] theorem State.adaptiveStart_seq : (s.adaptiveStart).seq = s.seq := rfl
@[simp] theorem State.adaptiveStart_curOp : (s.adaptiveStart).curOp = s.curOp := rfl
@[simp] theorem State.adaptiveStart_inQ : (s.adaptiveStart).inQ = s.inQ := rfl
@[simp] theorem State.adaptiveStart_outQ : (s.adaptiveStart).outQ = s.outQ := rfl
@[simp] theorem State.adaptiveStart_script : (s.adaptiveStart).script = s.script := rfl
@[simp] theorem State.adaptiveStart_reads : (s.adaptiveStart).reads = s.reads := rfl
@[simp] theorem State.adaptiveStart_draws : (s.adaptiveStart).draws = s.draws := rfl
@[simp] theorem State.adaptiveStart_limit : (s.adaptiveStart).limit = s.limit := rfl
@[simp] theorem State.adaptiveStart_len (j : Nat) : (s.adaptiveStart).len j = s.len j := rfl
@[simp] theorem State.adaptiveStart_pos : (s.adaptiveStart).pos = s.pos := rfl
@[simp] theorem State.adaptiveStart_argument : (s.adaptiveStart).argument = s.argument := rfl

/-! ### withLimit -/

@[simp] theorem State.withLimit_symLim (a : Word) : (s.withLimit a).symLim = a.setWidth 9 := rfl
@[simp] theorem State.withLimit_ft (a : Word) : (s.withLimit a).ft = tableFill Config.maxSym (fun _ => 0) s.ft := rfl
@[simp] theorem State.withLimit_cl (a : Word) : (s.withLimit a).cl = tableFill Config.maxSym (fun _ => 0) s.cl := rfl
@[simp] theorem State.withLimit_tree (a : Word) : (s.withLimit a).tree = none := rfl
@[simp] theorem State.withLimit_cnt (a : Word) : (s.withLimit a).cnt = 0 := rfl
@[simp] theorem State.withLimit_boBuf (a : Word) : (s.withLimit a).boBuf = s.boBuf := rfl
@[simp] theorem State.withLimit_boNbits (a : Word) : (s.withLimit a).boNbits = s.boNbits := rfl
@[simp] theorem State.withLimit_biByte (a : Word) : (s.withLimit a).biByte = s.biByte := rfl
@[simp] theorem State.withLimit_biNrem (a : Word) : (s.withLimit a).biNrem = s.biNrem := rfl
@[simp] theorem State.withLimit_biEof (a : Word) : (s.withLimit a).biEof = s.biEof := rfl
@[simp] theorem State.withLimit_arg (a : Word) : (s.withLimit a).arg = s.arg := rfl
@[simp] theorem State.withLimit_result (a : Word) : (s.withLimit a).result = s.result := rfl
@[simp] theorem State.withLimit_err (a : Word) : (s.withLimit a).err = s.err := rfl
@[simp] theorem State.withLimit_errCode (a : Word) : (s.withLimit a).errCode = s.errCode := rfl
@[simp] theorem State.withLimit_errDetail (a : Word) : (s.withLimit a).errDetail = s.errDetail := rfl
@[simp] theorem State.withLimit_errInfo (a : Word) : (s.withLimit a).errInfo = s.errInfo := rfl
@[simp] theorem State.withLimit_inOvf (a : Word) : (s.withLimit a).inOvf = s.inOvf := rfl
@[simp] theorem State.withLimit_seq (a : Word) : (s.withLimit a).seq = s.seq := rfl
@[simp] theorem State.withLimit_curOp (a : Word) : (s.withLimit a).curOp = s.curOp := rfl
@[simp] theorem State.withLimit_inQ (a : Word) : (s.withLimit a).inQ = s.inQ := rfl
@[simp] theorem State.withLimit_outQ (a : Word) : (s.withLimit a).outQ = s.outQ := rfl
@[simp] theorem State.withLimit_script (a : Word) : (s.withLimit a).script = s.script := rfl
@[simp] theorem State.withLimit_reads (a : Word) : (s.withLimit a).reads = s.reads := rfl
@[simp] theorem State.withLimit_draws (a : Word) : (s.withLimit a).draws = s.draws := rfl
@[simp] theorem State.withLimit_pos (a : Word) : (s.withLimit a).pos = s.pos := rfl
@[simp] theorem State.withLimit_argument (a : Word) : (s.withLimit a).argument = s.argument := rfl

/-! ### accept -/

@[simp] theorem State.accept_symLim (w : Word) : (s.accept w).symLim = s.symLim := rfl
@[simp] theorem State.accept_ft (w : Word) : (s.accept w).ft = s.ft := rfl
@[simp] theorem State.accept_cl (w : Word) : (s.accept w).cl = s.cl := rfl
@[simp] theorem State.accept_tree (w : Word) : (s.accept w).tree = s.tree := rfl
@[simp] theorem State.accept_cnt (w : Word) : (s.accept w).cnt = s.cnt := rfl
@[simp] theorem State.accept_boBuf (w : Word) : (s.accept w).boBuf = s.boBuf := rfl
@[simp] theorem State.accept_boNbits (w : Word) : (s.accept w).boNbits = s.boNbits := rfl
@[simp] theorem State.accept_biByte (w : Word) : (s.accept w).biByte = s.biByte := rfl
@[simp] theorem State.accept_biNrem (w : Word) : (s.accept w).biNrem = s.biNrem := rfl
@[simp] theorem State.accept_biEof (w : Word) : (s.accept w).biEof = s.biEof := rfl
@[simp] theorem State.accept_arg (w : Word) : (s.accept w).arg = s.arg := rfl
@[simp] theorem State.accept_result (w : Word) : (s.accept w).result = s.result := rfl
@[simp] theorem State.accept_err (w : Word) : (s.accept w).err = s.err := rfl
@[simp] theorem State.accept_errCode (w : Word) : (s.accept w).errCode = s.errCode := rfl
@[simp] theorem State.accept_errDetail (w : Word) : (s.accept w).errDetail = s.errDetail := rfl
@[simp] theorem State.accept_errInfo (w : Word) : (s.accept w).errInfo = s.errInfo := rfl
@[simp] theorem State.accept_inOvf (w : Word) : (s.accept w).inOvf = s.inOvf := rfl
@[simp] theorem State.accept_seq (w : Word) : (s.accept w).seq = .running w s.arg .start := rfl
@[simp] theorem State.accept_curOp (w : Word) : (s.accept w).curOp = w.setWidth 8 := rfl
@[simp] theorem State.accept_inQ (w : Word) : (s.accept w).inQ = s.inQ := rfl
@[simp] theorem State.accept_outQ (w : Word) : (s.accept w).outQ = s.outQ := rfl
@[simp] theorem State.accept_script (w : Word) : (s.accept w).script = s.script := rfl
@[simp] theorem State.accept_reads (w : Word) : (s.accept w).reads = s.reads := rfl
@[simp] theorem State.accept_draws (w : Word) : (s.accept w).draws = s.draws := rfl
@[simp] theorem State.accept_limit (w : Word) : (s.accept w).limit = s.limit := rfl
@[simp] theorem State.accept_freq (w : Word) (j : Nat) : (s.accept w).freq j = s.freq j := rfl
@[simp] theorem State.accept_len (w : Word) (j : Nat) : (s.accept w).len j = s.len j := rfl

/-! ### record -/

@[simp] theorem State.record_symLim (off : Nat) (v : Word) : (s.record off v).symLim = s.symLim := rfl
@[simp] theorem State.record_ft (off : Nat) (v : Word) : (s.record off v).ft = s.ft := rfl
@[simp] theorem State.record_cl (off : Nat) (v : Word) : (s.record off v).cl = s.cl := rfl
@[simp] theorem State.record_tree (off : Nat) (v : Word) : (s.record off v).tree = s.tree := rfl
@[simp] theorem State.record_cnt (off : Nat) (v : Word) : (s.record off v).cnt = s.cnt := rfl
@[simp] theorem State.record_boBuf (off : Nat) (v : Word) : (s.record off v).boBuf = s.boBuf := rfl
@[simp] theorem State.record_boNbits (off : Nat) (v : Word) : (s.record off v).boNbits = s.boNbits := rfl
@[simp] theorem State.record_biByte (off : Nat) (v : Word) : (s.record off v).biByte = s.biByte := rfl
@[simp] theorem State.record_biNrem (off : Nat) (v : Word) : (s.record off v).biNrem = s.biNrem := rfl
@[simp] theorem State.record_biEof (off : Nat) (v : Word) : (s.record off v).biEof = s.biEof := rfl
@[simp] theorem State.record_arg (off : Nat) (v : Word) : (s.record off v).arg = s.arg := rfl
@[simp] theorem State.record_result (off : Nat) (v : Word) : (s.record off v).result = s.result := rfl
@[simp] theorem State.record_err (off : Nat) (v : Word) : (s.record off v).err = s.err := rfl
@[simp] theorem State.record_errCode (off : Nat) (v : Word) : (s.record off v).errCode = s.errCode := rfl
@[simp] theorem State.record_errDetail (off : Nat) (v : Word) : (s.record off v).errDetail = s.errDetail := rfl
@[simp] theorem State.record_errInfo (off : Nat) (v : Word) : (s.record off v).errInfo = s.errInfo := rfl
@[simp] theorem State.record_inOvf (off : Nat) (v : Word) : (s.record off v).inOvf = s.inOvf := rfl
@[simp] theorem State.record_seq (off : Nat) (v : Word) : (s.record off v).seq = s.seq := rfl
@[simp] theorem State.record_curOp (off : Nat) (v : Word) : (s.record off v).curOp = s.curOp := rfl
@[simp] theorem State.record_inQ (off : Nat) (v : Word) : (s.record off v).inQ = s.inQ := rfl
@[simp] theorem State.record_outQ (off : Nat) (v : Word) : (s.record off v).outQ = s.outQ := rfl
@[simp] theorem State.record_script (off : Nat) (v : Word) : (s.record off v).script = s.script := rfl
@[simp] theorem State.record_reads (off : Nat) (v : Word) : (s.record off v).reads = s.reads ++ [(off, v)] := rfl
@[simp] theorem State.record_draws (off : Nat) (v : Word) : (s.record off v).draws = s.draws := rfl
@[simp] theorem State.record_limit (off : Nat) (v : Word) : (s.record off v).limit = s.limit := rfl
@[simp] theorem State.record_freq (off : Nat) (v : Word) (j : Nat) : (s.record off v).freq j = s.freq j := rfl
@[simp] theorem State.record_len (off : Nat) (v : Word) (j : Nat) : (s.record off v).len j = s.len j := rfl
@[simp] theorem State.record_pos (off : Nat) (v : Word) : (s.record off v).pos = s.pos := rfl
@[simp] theorem State.record_argument (off : Nat) (v : Word) : (s.record off v).argument = s.argument := rfl

end Sys2Proof.Machine
end

