-- ==== Sys2Proof/Laws/Tables.lean ====
section
/-! SUPPORT. Reading a table after a write: what each table operation does to each entry. -/

namespace Sys2Proof.Machine

variable {α : Type}

theorem tableGet_of_ge (t : Table α) (k : Nat) (d : α) (h : 257 ≤ k) : tableGet t k d = d := by
  simp [tableGet, Nat.not_lt.2 h]

theorem tableGet_set_self (t : Table α) (k : Nat) (v d : α) (h : k < 257) : tableGet (tableSet t k v) k d = v := by
  simp [tableGet, tableSet, h]

theorem tableGet_set_ne (t : Table α) (j k : Nat) (v d : α) (h : j ≠ k) :
    tableGet (tableSet t k v) j d = tableGet t j d := by
  unfold tableGet tableSet
  split
  · split
    · exact Vector.getElem_set_ne _ _ (Ne.symm h)
    · rfl
  · rfl

/-- Reading after one entry is written. -/
theorem tableGet_set (t : Table α) (j k : Nat) (v d : α) :
    tableGet (tableSet t k v) j d = if j = k ∧ k < 257 then v else tableGet t j d := by
  split
  · rename_i h
    obtain ⟨rfl, h⟩ := h
    exact tableGet_set_self t j v d h
  · rename_i h
    by_cases hj : j = k
    · subst hj
      have hk : ¬ j < 257 := fun hk => h ⟨rfl, hk⟩
      simp [tableGet, hk]
    · exact tableGet_set_ne t j k v d hj

/-- Reading after the entries below a limit are written. -/
theorem tableGet_fill (t : Table α) (lim j : Nat) (f : Nat → α) (d : α) :
    tableGet (tableFill lim f t) j d = if j < lim ∧ j < 257 then f j else tableGet t j d := by
  unfold tableGet
  by_cases hj : j < 257
  · simp only [hj, dif_pos, and_true]
    simp only [tableFill, Vector.getElem_mk, List.getElem_toArray]
    by_cases hl : j < lim
    · rw [List.getElem_append_left (by simp; omega)]
      simp [hl]
    · rw [List.getElem_append_right (by simp; omega)]
      have h1 : min lim 257 = lim := by omega
      have h2 : lim + (j - lim) = j := by omega
      simp [hl, h1, h2]
  · simp [hj]

@[simp] theorem State.freq_setFreq (s : State) (j k : Nat) (v : Word) :
    (s.setFreq k v).freq j = if j = k ∧ k < 257 then v else s.freq j := tableGet_set _ _ _ _ _

@[simp] theorem State.len_setLen (s : State) (j k : Nat) (v : BitVec 31) :
    (s.setLen k v).len j = if j = k ∧ k < 257 then v else s.len j := tableGet_set _ _ _ _ _

@[simp] theorem State.freq_fillFreq (s : State) (lim j : Nat) (v : Word) :
    (s.fillFreq lim v).freq j = if j < lim ∧ j < 257 then v else s.freq j := tableGet_fill _ _ _ _ _

@[simp] theorem State.len_fillLen (s : State) (f : Nat → Nat) (j : Nat) :
    (s.fillLen f).len j = if j < s.limit ∧ j < 257 then BitVec.ofNat 31 (f j) else s.len j := tableGet_fill _ _ _ _ _

@[simp] theorem State.freq_countSym (s : State) (sym j : Nat) :
    (s.countSym sym).freq j = if j = sym ∧ sym < 257 then s.freq sym + 1 else s.freq j := tableGet_set _ _ _ _ _

theorem State.freq_of_ge (s : State) (k : Nat) (h : 257 ≤ k) : s.freq k = 0 := tableGet_of_ge _ _ _ h

theorem State.len_of_ge (s : State) (k : Nat) (h : 257 ≤ k) : s.len k = 0 := tableGet_of_ge _ _ _ h

end Sys2Proof.Machine
end

