-- ==== Sys2Proof/Laws/Ops.lean ====
section
/-! SUPPORT. What each shared operation can do, said once: if it answers a next state, then one of the cases listed. -/

namespace Sys2Proof.Machine

/-! ## The sequencer -/

theorem State.pos_eq_some {s : State} {p : Pos} : s.pos = some p ↔ ∃ w a, s.seq = .running w a p := by
  unfold State.pos
  split
  · next h => simp [h]
  · next w a q h => simp [h]

theorem parkAt_next {p : Pos} {s t : State} : parkAt p s = .next t ↔ t = s.park p := by
  simp [parkAt, eq_comm]

theorem complete_next {s t : State} : complete s = .next t ↔ t = s.toIdle := by
  simp [complete, eq_comm]

theorem raise_next {e : ErrKind} {info : Word} {s t : State} : raise e info s = .next t ↔ t = s.failed e info := by
  simp [raise, eq_comm]

theorem completeWith_next {v : Word} {s t : State} :
    completeWith v s = .next t ↔ t = State.toIdle { s with result := v } := by
  simp [completeWith, complete, eq_comm]

/-- A one-segment command runs only from its start. -/
theorem atStart_next {s t : State} {k : Word → State → Out} (h : atStart s k = .next t) :
    ∃ w a, s.seq = .running w a .start ∧ k a s = .next t := by
  unfold atStart at h
  split at h
  · next hp =>
    obtain ⟨w, a, hs⟩ := State.pos_eq_some.1 hp
    exact ⟨w, a, hs, by simpa [State.argument, hs] using h⟩
  · cases h

theorem atStart_running {s : State} {w a : Word} (k : Word → State → Out) (h : s.seq = .running w a .start) :
    atStart s k = k a s := by
  simp [atStart, State.pos, State.argument, h]

/-! ## Operand checks -/

theorem checkSym_next {sym : Nat} {s t : State} {k : State → Out} (h : checkSym sym s k = .next t) :
    (s.limit ≤ sym ∧ t = s.failed .symbol (symWord sym)) ∨ (sym < s.limit ∧ k s = .next t) := by
  unfold checkSym at h
  split at h
  · exact .inl ⟨‹_›, raise_next.1 h⟩
  · exact .inr ⟨by omega, h⟩

theorem checkSym_of_lt {sym : Nat} {s : State} (k : State → Out) (h : sym < s.limit) : checkSym sym s k = k s := by
  simp [checkSym, Nat.not_le.2 h]

theorem checkSym_of_ge {sym : Nat} {s : State} (k : State → Out) (h : s.limit ≤ sym) :
    checkSym sym s k = .next (s.failed .symbol (symWord sym)) := by
  simp [checkSym, h, raise]

theorem checkNonneg_next {a : Word} {e : ErrKind} {s t : State} {k : State → Out}
    (h : checkNonneg a e s k = .next t) : (a.toInt < 0 ∧ t = s.failed e a) ∨ (0 ≤ a.toInt ∧ k s = .next t) := by
  unfold checkNonneg at h
  split at h
  · exact .inl ⟨‹_›, raise_next.1 h⟩
  · exact .inr ⟨by omega, h⟩

theorem checkByteAlphabet_next {s t : State} {k : State → Out} (h : checkByteAlphabet s k = .next t) :
    (s.limit ≠ 257 ∧ t = s.failed .symlimNot257 (s.symLim.setWidth 32)) ∨ (s.limit = 257 ∧ k s = .next t) := by
  unfold checkByteAlphabet at h
  split at h
  · exact .inr ⟨‹_›, h⟩
  · exact .inl ⟨‹_›, raise_next.1 h⟩

/-- The three outcomes of looking up a symbol's code, and the case where it has one. -/
theorem withCode_next {sym : Nat} {s t : State} {k : List Bool → State → Out} (h : withCode sym s k = .next t) :
    (s.tree = none ∧ t = s.failed .noTree 0) ∨
    (∃ tr, s.tree = some tr ∧ s.limit ≤ sym ∧ t = s.failed .symbol (symWord sym)) ∨
    (∃ tr, s.tree = some tr ∧ sym < s.limit ∧ tr.code sym = none ∧ t = s.failed .noCode (symWord sym)) ∨
    (∃ tr c, s.tree = some tr ∧ sym < s.limit ∧ tr.code sym = some c ∧ k c s = .next t) := by
  unfold withCode at h
  split at h
  · exact .inl ⟨‹_›, raise_next.1 h⟩
  · next tr htr =>
    rcases checkSym_next h with ⟨hl, ht⟩ | ⟨hl, hk⟩
    · exact .inr (.inl ⟨tr, htr, hl, ht⟩)
    · split at hk
      · exact .inr (.inr (.inl ⟨tr, htr, hl, ‹_›, raise_next.1 hk⟩))
      · next c hc => exact .inr (.inr (.inr ⟨tr, c, htr, hl, hc, hk⟩))

theorem withCode_some {sym : Nat} {s : State} {tr : CodeTree} {c : List Bool} (k : List Bool → State → Out)
    (ht : s.tree = some tr) (hl : sym < s.limit) (hc : tr.code sym = some c) : withCode sym s k = k c s := by
  simp [withCode, ht, checkSym_of_lt _ hl, hc]

/-! ## The queues -/

/-- PopIn() waits on an empty IN, and otherwise takes its head. -/
theorem popIn_next {s t : State} {k : Item → State → Out} (h : popIn s k = .next t) :
    (s.inQ = [] ∧ t = s) ∨ ∃ it rest, s.inQ = it :: rest ∧ k it { s with inQ := rest } = .next t := by
  unfold popIn at h
  split at h
  · exact .inl ⟨‹_›, by simpa [eq_comm] using h⟩
  · next it rest hq => exact .inr ⟨it, rest, hq, h⟩

theorem popIn_cons {s : State} {it : Item} {rest : List Item} (k : Item → State → Out) (h : s.inQ = it :: rest) :
    popIn s k = k it { s with inQ := rest } := by
  simp [popIn, h]

/-- PushOut(it) waits on a full OUT, and otherwise appends. -/
theorem pushOut_next {it : Item} {s t : State} {k : State → Out} (h : pushOut it s k = .next t) :
    (Config.outDepth ≤ s.outQ.length ∧ t = s) ∨
    (s.outQ.length < Config.outDepth ∧ k { s with outQ := s.outQ ++ [it] } = .next t) := by
  unfold pushOut at h
  split at h
  · exact .inr ⟨‹_›, h⟩
  · exact .inl ⟨by omega, by simpa [eq_comm] using h⟩

theorem pushOut_room {it : Item} {s : State} (k : State → Out) (h : s.outQ.length < Config.outDepth) :
    pushOut it s k = k { s with outQ := s.outQ ++ [it] } := by
  simp [pushOut, h]

theorem outDepth_pos : 0 < Config.outDepth := Nat.succ_pos _

theorem inDepth_pos : 0 < Config.inDepth := Nat.succ_pos _

/-! ## The bit output adapter -/

theorem SameButBO.refl (s : State) : SameButBO s s := rfl

theorem SameButBO.trans {s t u : State} (h : SameButBO s t) (g : SameButBO t u) : SameButBO s u := by
  unfold SameButBO at *
  rw [g, h]

/-- A bit that fills no byte. -/
theorem putBit_short (b : Bool) (s : State) (h : s.boNbits.val + 1 < 8) :
    putBit b s = ({ s with boBuf := (s.boBuf <<< 1) ||| (BitVec.ofBool b).setWidth 8,
                           boNbits := ⟨s.boNbits.val + 1, h⟩ }, none) := by
  simp [putBit, h]

/-- The eighth bit. -/
theorem putBit_full (b : Bool) (s : State) (h : s.boNbits.val = 7) :
    putBit b s = (s.resetBO, some ((s.boBuf <<< 1) ||| (BitVec.ofBool b).setWidth 8)) := by
  simp [putBit, h]

theorem putBit_same (b : Bool) (s : State) : SameButBO s (putBit b s).1 := by
  unfold putBit
  dsimp only
  split <;> rfl

theorem putBits_same (bits : List Bool) (s : State) : SameButBO s (putBits bits s).1 := by
  induction bits generalizing s with
  | nil => rfl
  | cons b bs ih =>
    have hb := putBit_same b s
    unfold putBits
    split
    · next s' h =>
      rw [h] at hb
      exact hb.trans (ih s')
    · next s' v h =>
      rw [h] at hb
      exact hb

/-- A byte completed by PutBit leaves the cursor empty. -/
theorem putBits_some_empty {bits rest : List Bool} {s t : State} {v : Byte} (h : putBits bits s = (t, some (v, rest))) :
    t.boBuf = 0 ∧ t.boNbits = 0 := by
  induction bits generalizing s with
  | nil => simp [putBits] at h
  | cons b bs ih =>
    unfold putBits at h
    split at h
    · exact ih h
    · next s' v' hb =>
      simp only [Prod.mk.injEq, Option.some.injEq] at h
      obtain ⟨rfl, -⟩ := h
      unfold putBit at hb
      dsimp only at hb
      split at hb
      · simp at hb
      · simp only [Prod.mk.injEq] at hb
        rw [← hb.1]
        exact ⟨rfl, rfl⟩

theorem padOut_same (n : Nat) (s : State) : SameButBO s (padOut n s).1 := by
  induction n generalizing s with
  | zero => rfl
  | succ n ih =>
    unfold padOut
    split
    · rfl
    · have hb := putBit_same false s
      split
      · next s' h =>
        rw [h] at hb
        exact hb.trans (ih s')
      · next s' v h =>
        rw [h] at hb
        exact hb

/-- Encode's bits either all fit, or the command parks at the PushOut of a full byte. -/
theorem emitCode_next {sym : Nat} {k : State → Out} {bits : List Bool} {s t : State}
    (h : emitCode sym k bits s = .next t) :
    (∃ s', putBits bits s = (s', none) ∧ k s' = .next t) ∨
    (∃ s' v rest, putBits bits s = (s', some (v, rest)) ∧ t = s'.park (.pushOut (.byte v) (.code sym rest))) := by
  unfold emitCode at h
  split at h
  · next s' hp => exact .inl ⟨s', hp, h⟩
  · next s' v rest hp => exact .inr ⟨s', v, rest, hp, parkAt_next.1 h⟩

/-- CloseOut() parks at the PushOut of the padded byte or of END. -/
theorem closeOut_next {s t : State} (h : closeOut s = .next t) :
    (∃ s' v, padOut 8 s = (s', some v) ∧ t = s'.park (.pushOut (.byte v) .pad)) ∨
    (∃ s', padOut 8 s = (s', none) ∧ t = s'.park (.pushOut .endItem .close)) := by
  unfold closeOut at h
  split at h
  · next s' v hp => exact .inl ⟨s', v, hp, parkAt_next.1 h⟩
  · next s' hp => exact .inr ⟨s', hp, parkAt_next.1 h⟩

/-! ## The bit input adapter -/

theorem SameButBI.refl (s : State) : SameButBI s s := rfl

theorem SameButBI.trans {s t u : State} (h : SameButBI s t) (g : SameButBI t u) : SameButBI s u := by
  unfold SameButBI at *
  rw [g, h]

/-- GetBit() up to its PopIn touches the input cursor alone. -/
theorem getBit_cases (s : State) :
    (s.biEof = true ∧ getBit s = .eof s) ∨
    (s.biEof = false ∧ s.biNrem.val = 0 ∧ getBit s = .need s) ∨
    (s.biEof = false ∧ 0 < s.biNrem.val ∧ ∃ s', SameButBI s s' ∧ s'.biNrem.val + 1 = s.biNrem.val ∧
      getBit s = .bit (s.biByte.getLsbD (s.biNrem.val - 1)) s') := by
  cases he : s.biEof with
  | true => exact .inl ⟨rfl, by simp [getBit, he]⟩
  | false =>
    by_cases hn : s.biNrem.val = 0
    · exact .inr (.inl ⟨rfl, hn, by simp [getBit, he, hn]⟩)
    · refine .inr (.inr ⟨rfl, by omega, { s with biNrem := ⟨s.biNrem.val - 1, by omega⟩ }, rfl, ?_, ?_⟩)
      · simp; omega
      · have hn' : ¬ s.biNrem = 0 := fun h => hn (by simp [h])
        simp [getBit, he, hn']

theorem gotItem_cases (it : Item) (s : State) :
    (it = .endItem ∧ gotItem it s = .eof { s with biEof := true }) ∨
    (∃ b, it = .byte b ∧ gotItem it s = .bit (b.getLsbD 7) { s with biByte := b, biNrem := 7 }) := by
  cases it with
  | endItem => exact .inl ⟨rfl, rfl⟩
  | byte b => exact .inr ⟨b, rfl, rfl⟩

/-- Decode()'s walk ends at a leaf of the tree, parks for a byte, or meets the end; only the input cursor moves. -/
theorem walk_next {k : Nat → State → Out} {tr : CodeTree} {s t : State} (h : walk k tr s = .next t) :
    (∃ l r s', SameButBI s s' ∧ t = s'.park (.popIn (.walk l r))) ∨
    (∃ s', SameButBI s s' ∧ t = s'.failed .unexpectedEof 0) ∨
    (∃ x s', x ∈ tr.symbols ∧ SameButBI s s' ∧ k x s' = .next t) := by
  induction tr generalizing s with
  | leaf x => exact .inr (.inr ⟨x, s, by simp [CodeTree.symbols], rfl, h⟩)
  | node l r ihl ihr =>
    unfold walk at h
    rcases getBit_cases s with ⟨-, hg⟩ | ⟨-, -, hg⟩ | ⟨-, -, s', hs, -, hg⟩ <;>
      rw [hg] at h <;> simp only [Got.andThen] at h
    · exact .inr (.inl ⟨s, rfl, raise_next.1 h⟩)
    · exact .inl ⟨l, r, s, rfl, parkAt_next.1 h⟩
    · split at h
      · rcases ihr h with ⟨l', r', u, hu, ht⟩ | ⟨u, hu, ht⟩ | ⟨x, u, hx, hu, ht⟩
        · exact .inl ⟨l', r', u, hs.trans hu, ht⟩
        · exact .inr (.inl ⟨u, hs.trans hu, ht⟩)
        · exact .inr (.inr ⟨x, u, by simp [CodeTree.symbols, hx], hs.trans hu, ht⟩)
      · rcases ihl h with ⟨l', r', u, hu, ht⟩ | ⟨u, hu, ht⟩ | ⟨x, u, hx, hu, ht⟩
        · exact .inl ⟨l', r', u, hs.trans hu, ht⟩
        · exact .inr (.inl ⟨u, hs.trans hu, ht⟩)
        · exact .inr (.inr ⟨x, u, by simp [CodeTree.symbols, hx], hs.trans hu, ht⟩)

/-- The walk resumed with an item: as `walk_next`, from the cursor the item leaves. -/
theorem resumeWalk_next {k : Nat → State → Out} {l r : CodeTree} {it : Item} {s t : State}
    (h : resumeWalk k l r it s = .next t) :
    (∃ l' r' s', SameButBI s s' ∧ t = s'.park (.popIn (.walk l' r'))) ∨
    (∃ s', SameButBI s s' ∧ t = s'.failed .unexpectedEof 0) ∨
    (∃ x s', x ∈ (CodeTree.node l r).symbols ∧ SameButBI s s' ∧ k x s' = .next t) := by
  have hcur : SameButBI s { s with biByte := s.biByte, biNrem := s.biNrem, biEof := true } := rfl
  unfold resumeWalk at h
  rcases gotItem_cases it s with ⟨-, hg⟩ | ⟨b, -, hg⟩ <;> rw [hg] at h <;> simp only [Got.andThen] at h
  · exact .inr (.inl ⟨_, hcur, raise_next.1 h⟩)
  · have hs : SameButBI s { s with biByte := b, biNrem := 7 } := rfl
    split at h
    · rcases walk_next h with ⟨l', r', u, hu, ht⟩ | ⟨u, hu, ht⟩ | ⟨x, u, hx, hu, ht⟩
      · exact .inl ⟨l', r', u, hs.trans hu, ht⟩
      · exact .inr (.inl ⟨u, hs.trans hu, ht⟩)
      · exact .inr (.inr ⟨x, u, by simp [CodeTree.symbols, hx], hs.trans hu, ht⟩)
    · rcases walk_next h with ⟨l', r', u, hu, ht⟩ | ⟨u, hu, ht⟩ | ⟨x, u, hx, hu, ht⟩
      · exact .inl ⟨l', r', u, hs.trans hu, ht⟩
      · exact .inr (.inl ⟨u, hs.trans hu, ht⟩)
      · exact .inr (.inr ⟨x, u, by simp [CodeTree.symbols, hx], hs.trans hu, ht⟩)

/-- Decode() raises NO_TREE, or walks the active tree. -/
theorem decodeSym_next {k : Nat → State → Out} {s t : State} (h : decodeSym k s = .next t) :
    (s.tree = none ∧ t = s.failed .noTree 0) ∨ (∃ tr, s.tree = some tr ∧ walk k tr s = .next t) := by
  unfold decodeSym at h
  split at h
  · exact .inl ⟨‹_›, raise_next.1 h⟩
  · next tr htr => exact .inr ⟨tr, htr, h⟩

theorem checking_next {k : State → Out} {s t : State} (h : checking k s = .next t) :
    (∃ e info, checkLengths s.lengthList = .error (e, info) ∧ t = s.failed e info) ∨
    (checkLengths s.lengthList = .ok () ∧ k s = .next t) := by
  unfold checking at h
  split at h
  · next e info hc => exact .inl ⟨e, info, hc, raise_next.1 h⟩
  · exact .inr ⟨‹_›, h⟩

theorem installing_next {k : State → Out} {s t : State} (h : installing k s = .next t) :
    (∃ n, toTree s.lengthList = .error n ∧ t = s.failed .badLengths (BitVec.ofNat 32 n)) ∨
    (∃ tr, toTree s.lengthList = .ok tr ∧ k { s with tree := some tr } = .next t) := by
  unfold installing at h
  split at h
  · next n hn => exact .inl ⟨n, hn, raise_next.1 h⟩
  · next tr ht => exact .inr ⟨tr, ht, h⟩

theorem drained_next {k : State → Out} {it : Item} {s t : State} (h : drained k it s = .next t) :
    (it = .endItem ∧ k s = .next t) ∨ (∃ b, it = .byte b ∧ t = s.park (.popIn .drain)) := by
  unfold drained at h
  split at h
  · exact .inl ⟨rfl, h⟩
  · next b => exact .inr ⟨b, rfl, parkAt_next.1 h⟩

/-! ## The header loops of the static protocol -/

/-- SC_HEADER's loop completes, parks at a header byte or raises CODE_TOO_LONG; only the output cursor moves. -/
theorem emitHeader_next {left : Nat} {bits : List Bool} {s t : State} (h : emitHeader left bits s = .next t) :
    ∃ s', SameButBO s s' ∧ (t = s'.toIdle ∨
      (∃ left' v rest, t = s'.park (.pushOut (.byte v) (.header left' rest))) ∨
      (∃ sym, t = s'.failed .codeTooLong (symWord sym))) := by
  induction left generalizing bits s with
  | zero =>
    have hp := putBits_same bits s
    unfold emitHeader at h
    split at h
    · next s' v rest hb =>
      rw [hb] at hp
      exact ⟨s', hp, .inr (.inl ⟨0, v, rest, parkAt_next.1 h⟩)⟩
    · next s' hb =>
      rw [hb] at hp
      exact ⟨s', hp, .inl (complete_next.1 h)⟩
  | succ n ih =>
    have hp := putBits_same bits s
    unfold emitHeader at h
    split at h
    · next s' v rest hb =>
      rw [hb] at hp
      exact ⟨s', hp, .inr (.inl ⟨n + 1, v, rest, parkAt_next.1 h⟩)⟩
    · next s' hb =>
      rw [hb] at hp
      split at h
      · exact ⟨s', hp, .inr (.inr ⟨256 - n, raise_next.1 h⟩)⟩
      · obtain ⟨u, hu, ht⟩ := ih h
        exact ⟨u, hp.trans hu, ht⟩

/-- Two states that differ in the input cursor and CL alone. -/
def SameButHeader (s t : State) : Prop :=
  t = { s with cl := t.cl, biByte := t.biByte, biNrem := t.biNrem, biEof := t.biEof }

theorem SameButHeader.trans {s t u : State} (h : SameButHeader s t) (g : SameButHeader t u) : SameButHeader s u := by
  unfold SameButHeader at *
  rw [g, h]

theorem SameButBI.header {s t : State} (h : SameButBI s t) : SameButHeader s t := by
  unfold SameButBI at h
  unfold SameButHeader
  rw [h]

theorem headerBit_same (left v : Nat) (b : Bool) (s : State) : SameButHeader s (headerBit left v b s).2 := by
  unfold headerBit
  split <;> rfl

/-- SD_DECODE's header loop goes on to `k`, parks for a byte, or meets the end; only CL and the input cursor move. -/
theorem readHeader_next {k : State → Out} {left v : Nat} {s t : State} (h : readHeader k left v s = .next t) :
    ∃ s', SameButHeader s s' ∧ ((∃ left' v', t = s'.park (.popIn (.header left' v'))) ∨
      t = s'.failed .unexpectedEof 0 ∨ k s' = .next t) := by
  induction left generalizing v s with
  | zero => exact ⟨s, rfl, .inr (.inr h)⟩
  | succ n ih =>
    unfold readHeader at h
    rcases getBit_cases s with ⟨-, hg⟩ | ⟨-, -, hg⟩ | ⟨-, -, s', hs, -, hg⟩ <;>
      rw [hg] at h <;> simp only [Got.andThen] at h
    · exact ⟨s, rfl, .inr (.inl (raise_next.1 h))⟩
    · exact ⟨s, rfl, .inl ⟨n, v, parkAt_next.1 h⟩⟩
    · obtain ⟨u, hu, ht⟩ := ih h
      exact ⟨u, (hs.header.trans (headerBit_same _ _ _ _)).trans hu, ht⟩

/-- A data symbol counted: OVERFLOW(COUNT) at the limit of CNT, otherwise the count and the checkpoint. -/
theorem countData_next {sym : Nat} {k : State → Out} {s t : State} (h : countData sym k s = .next t) :
    (s.cnt = 0xFFFFFFFFFFFFFFFF ∧ t = s.failed .count 0) ∨
    (s.cnt ≠ 0xFFFFFFFFFFFFFFFF ∧ k (State.countSym sym { s with cnt := s.cnt + 1 }).checkpoint = .next t) := by
  unfold countData at h
  split at h
  · exact .inl ⟨‹_›, raise_next.1 h⟩
  · exact .inr ⟨‹_›, h⟩

end Sys2Proof.Machine
end

