-- ==== Sys2Proof/Machine/Program.lean ====
section
/-! DEFINITION. Host programs: the assembler syntax and the pseudo-instructions (30_encoding.md R99, R100). -/

namespace Sys2Proof.Machine

/-- The commands that read the latched argument (30_encoding.md R93). -/
def takesArg : Instr → Bool
  | .ftFill | .ftSet _ | .clSet _ | .boWrite | .setSymlim => true
  | .ftGet _ | .ftInc _ | .ftBuild | .ctGetlen _ | .ctGetcode _ _ | .ctClear | .clGet _ | .ccCheck | .ccFromTree
  | .ccToTree | .encSym _ | .decSym | .boClose | .biRead | .biReadNoeof | .streamReset | .inSkip | .scScan | .scHeader
  | .scEncode | .sdDecode | .acEncode | .adDecode | .nop | .errClear => false

/-- A host write of a register. -/
def writeTo (off : Nat) (v : Word) : Turn := .host (.write off 4 v)

/-- A host read of a register: `read REG`. -/
def readOf (off : Nat) : Turn := .host (.read off 4)

/-- A command with its argument assembles to `ARG <- arg` then `CMD <- word`, without one to `CMD <- word`
(30_encoding.md R99). -/
def issue (i : Instr) (arg : Word) : List Turn :=
  if takesArg i then [writeTo offArg arg, writeTo offCmd (encode i)] else [writeTo offCmd (encode i)]

/-- `push b`: an IN_PUSH write made once IN has room (30_encoding.md R99, R100). A host that pushes to a full IN, against
its duty (70_reset_and_hazards.md R294), is a plain write of IN_PUSH. -/
def pushByte (b : Byte) : Turn := .push (b.setWidth 32)

/-- `push END`. -/
def pushEnd : Turn := .push 0x100

/-- `pop`. -/
def popItem : Turn := readOf offOutPop

/-- `push` of each byte, then `push END`, then `wait`. -/
def feed (bytes : List Byte) : List Turn := bytes.map pushByte ++ [pushEnd, .poll]

/-- STATIC_COMPRESS bytes (30_encoding.md R100). -/
def staticCompress (bytes : List Byte) : List Turn :=
  issue .scScan 0 ++ feed bytes ++ issue .scHeader 0 ++ [.poll] ++ issue .scEncode 0 ++ feed bytes

/-- STATIC_DECOMPRESS bytes (30_encoding.md R100). -/
def staticDecompress (bytes : List Byte) : List Turn := issue .sdDecode 0 ++ feed bytes

/-- ADAPTIVE_COMPRESS bytes (30_encoding.md R100). -/
def adaptiveCompress (bytes : List Byte) : List Turn := issue .acEncode 0 ++ feed bytes

/-- ADAPTIVE_DECOMPRESS bytes (30_encoding.md R100). -/
def adaptiveDecompress (bytes : List Byte) : List Turn := issue .adDecode 0 ++ feed bytes

/-- LOAD_LENGTHS l0, ..., lk (30_encoding.md R100). -/
def loadLengths (lengths : List Word) : List Turn :=
  lengths.zipIdx.flatMap fun l => issue (.clSet l.2) l.1 ++ [.poll]

/-- WRITE_BITS b1 ... bn (30_encoding.md R100). -/
def writeBits (bits : List Word) : List Turn := bits.flatMap fun b => issue .boWrite b ++ [.poll]

/-! ## Orders of a program's turns (30_encoding.md R100; 70_reset_and_hazards.md R294) -/

/-- A turn that may stand anywhere between the turns of a program: an engine step, or a pop of OUT by a host that serves
a command while it waits. -/
def isServing (u : Turn) : Bool := u == .engine || u == popItem

/-- `turns` is an order of `program` with the command's execution: the program's turns in their order, with engine steps
and pops between them. Every such order respects the queue capacity, since a `push` waits for room. -/
def Interleaves (program turns : List Turn) : Prop := turns.filter (fun u => !isServing u) = program

end Sys2Proof.Machine
end

