-- ==== Sys2Proof/Laws/Outcomes.lean ====
section
/-! SUPPORT. What a segment answers, in the terms of Safety.lean: putting a code's bits, closing the stream, walking the
tree, counting a symbol; and the host's push and its orders. -/

namespace Sys2Proof.Machine

open Sys2Proof

/-! ## Putting bits -/

/-- The bits of the output buffer after one more bit, first written first. -/
theorem shifted_bits (buf : Byte) (b : Bool) (n : Nat) (h : n < 8) :
    ((List.range (n + 1)).map fun j => ((buf <<< 1) ||| (BitVec.ofBool b).setWidth 8).getLsbD (n - j)) =
      ((List.range n).map fun j => buf.getLsbD (n - 1 - j)) ++ [b] := by
  rw [List.range_succ, List.map_append]
  congr 1
  · apply List.map_congr_left
    intro j hj
    have hj : j < n := List.mem_range.1 hj
    have h1 : n - j = n - 1 - j + 1 := by omega
    have h2 : n - 1 - j + 1 < 8 := by omega
    have h3 : n - 1 - j < 8 := by omega
    simp [h1, h2, BitVec.getLsbD_eq_getElem h3]
  · cases b <;> simp

theorem putBit_pending (b : Bool) (s : State) (h : s.boNbits.val + 1 < 8) :
    ∃ u, putBit b s = (u, none) ∧ SameButBO s u ∧ u.boNbits.val = s.boNbits.val + 1 ∧
      u.pendingBits = s.pendingBits ++ [b] := by
  refine ⟨_, putBit_short b s h, rfl, rfl, ?_⟩
  have := shifted_bits s.boBuf b s.boNbits.val (by omega)
  simpa [State.pendingBits] using this

theorem putBit_byte (b : Bool) (s : State) (h : s.boNbits.val = 7) :
    ∃ v, putBit b s = (s.resetBO, some v) ∧ byteBits v = s.pendingBits ++ [b] := by
  refine ⟨_, putBit_full b s h, ?_⟩
  have := shifted_bits s.boBuf b 7 (by omega)
  simpa [State.pendingBits, byteBits, h] using this

/-- Bits that fill no byte join the pending bits. -/
theorem putBits_fit (bits : List Bool) (s : State) (h : s.boNbits.val + bits.length < 8) :
    ∃ u, putBits bits s = (u, none) ∧ SameButBO s u ∧ u.boNbits.val = s.boNbits.val + bits.length ∧
      u.pendingBits = s.pendingBits ++ bits := by
  induction bits generalizing s with
  | nil => exact ⟨s, rfl, rfl, rfl, by simp⟩
  | cons b bs ih =>
    simp only [List.length_cons] at h
    obtain ⟨s1, hp, hs, hn, hb⟩ := putBit_pending b s (by omega)
    obtain ⟨u, hu, hsu, hnu, hbu⟩ := ih s1 (by omega)
    exact ⟨u, by simp [putBits, hp, hu], hs.trans hsu, by simp; omega, by simp [hbu, hb]⟩

/-- Bits that reach a byte's end stop there, with an empty cursor. -/
theorem putBits_fill (bits : List Bool) (s : State) (h : 8 ≤ s.boNbits.val + bits.length) :
    ∃ v rest, putBits bits s = (s.resetBO, some (v, rest)) ∧ byteBits v ++ rest = s.pendingBits ++ bits := by
  induction bits generalizing s with
  | nil => simp at h; omega
  | cons b bs ih =>
    simp only [List.length_cons] at h
    by_cases h7 : s.boNbits.val = 7
    · obtain ⟨v, hp, hv⟩ := putBit_byte b s h7
      exact ⟨v, bs, by simp [putBits, hp], by simp [hv]⟩
    · obtain ⟨s1, hp, hs, hn, hb⟩ := putBit_pending b s (by omega)
      obtain ⟨v, rest, hu, hv⟩ := ih s1 (by omega)
      refine ⟨v, rest, ?_, by simp [hv, hb]⟩
      have : s1.resetBO = s.resetBO := by
        unfold SameButBO at hs
        rw [hs]
        rfl
      simp [putBits, hp, hu, this]

theorem State.park_of_running {s : State} {w a : Word} {p q : Pos} (h : s.seq = .running w a p) :
    s.park q = { s with seq := .running w a q } := by
  simp [State.park, Seq.moved, h]

/-- Putting a code's bits answers as PutOutcome says, whatever follows answers. -/
theorem emitCode_outcome {w a : Word} {p : Pos} (sym : Nat) (k : State → Out) (done : State → State → Prop)
    (bits : List Bool) (s : State) (hseq : s.seq = .running w a p)
    (hk : ∀ u, SameButBO s u → ∃ t, k u = .next t ∧ done u t) :
    ∃ t, emitCode sym k bits s = .next t ∧ PutOutcome w a sym bits s done t := by
  by_cases h : s.boNbits.val + bits.length < 8
  · obtain ⟨u, hu, hs, -, hb⟩ := putBits_fit bits s h
    obtain ⟨t, ht, hd⟩ := hk u hs
    exact ⟨t, by simp [emitCode, hu, ht], fun _ => ⟨u, hs, hb, hd⟩, fun h' => by omega⟩
  · obtain ⟨v, rest, hu, hv⟩ := putBits_fill bits s (by omega)
    refine ⟨_, by simp only [emitCode, hu]; rfl, fun h' => absurd h' h, fun _ => ⟨v, rest, hv, ?_⟩⟩
    exact State.park_of_running (p := p) hseq

/-- Encode(sym) answers as EncodeOutcome says. -/
theorem encodeSym_outcome {w a : Word} {p : Pos} (sym : Nat) (k : State → Out) (done : State → State → Prop)
    (s : State) (hseq : s.seq = .running w a p) (hk : ∀ u, SameButBO s u → ∃ t, k u = .next t ∧ done u t) :
    ∃ t, encodeSym sym k s = .next t ∧ EncodeOutcome w a sym s done t := by
  unfold encodeSym
  cases ht : s.tree with
  | none =>
    exact ⟨_, by simp only [withCode, ht]; rfl, fun _ => rfl, fun tr h => by simp [ht] at h⟩
  | some tr =>
    by_cases hl : s.limit ≤ sym
    · refine ⟨_, by simp only [withCode, ht, checkSym_of_ge _ hl]; rfl, fun h => by simp [ht] at h, fun tr' h => ?_⟩
      exact ⟨fun _ => rfl, fun h' => by omega, fun c h' => by omega⟩
    · cases hc : tr.code sym with
      | none =>
        refine ⟨_, by simp only [withCode, ht, checkSym_of_lt _ (not_le.1 hl), hc]; rfl, fun h => by simp [ht] at h,
          fun tr' h => ?_⟩
        obtain rfl : tr = tr' := by simpa [ht] using h
        exact ⟨fun h' => absurd h' hl, fun _ _ => rfl, fun c _ h' => by simp [hc] at h'⟩
      | some c =>
        obtain ⟨t, h1, h2⟩ := emitCode_outcome sym k done c s hseq hk
        refine ⟨t, by simpa [withCode, ht, checkSym_of_lt _ (not_le.1 hl), hc] using h1, fun h => by simp [ht] at h,
          fun tr' h => ?_⟩
        obtain rfl : tr = tr' := by simpa [ht] using h
        refine ⟨fun h' => absurd h' hl, fun _ h' => by simp [hc] at h', fun c' _ h' => ?_⟩
        obtain rfl : c = c' := by simpa [hc] using h'
        exact h2

theorem padOut_fill (n : Nat) (s : State) (h0 : s.boNbits ≠ 0) (h : 8 ≤ s.boNbits.val + n) :
    ∃ v, padOut n s = (s.resetBO, some v) ∧
      byteBits v = s.pendingBits ++ List.replicate (8 - s.boNbits.val) false := by
  induction n generalizing s with
  | zero => omega
  | succ n ih =>
    by_cases h7 : s.boNbits.val = 7
    · obtain ⟨v, hp, hv⟩ := putBit_byte false s h7
      exact ⟨v, by simp [padOut, h0, hp], by simp [hv, h7]⟩
    · obtain ⟨s1, hp, hs, hn, hb⟩ := putBit_pending false s (by omega)
      have hz : s1.boNbits ≠ 0 := fun hz => by simp [hz] at hn
      obtain ⟨v, hu, hv⟩ := ih s1 hz (by omega)
      have hr : s1.resetBO = s.resetBO := by
        unfold SameButBO at hs
        rw [hs]
        rfl
      have h8 : 8 - s.boNbits.val = 8 - s1.boNbits.val + 1 := by omega
      refine ⟨v, by simp [padOut, h0, hp, hu, hr], ?_⟩
      rw [hv, hb, h8, List.replicate_succ]
      simp

/-- CloseOut() answers as CloseOutcome says. -/
theorem closeOut_outcome {w a : Word} {p : Pos} (s : State) (hseq : s.seq = .running w a p) :
    ∃ t, closeOut s = .next t ∧ CloseOutcome w a s t := by
  by_cases h0 : s.boNbits = 0
  · exact ⟨_, by simp only [closeOut, padOut, h0, if_true]; rfl,
      fun _ => State.park_of_running hseq, fun h => absurd h0 h⟩
  · obtain ⟨v, hp, hv⟩ := padOut_fill 8 s h0 (by omega)
    exact ⟨_, by simp only [closeOut, hp]; rfl, fun h => absurd h h0,
      fun _ => ⟨v, hv, State.park_of_running (p := p) (s := s.resetBO) hseq⟩⟩

/-! ## Getting bits -/

theorem State.unreadBits_cons {s : State} {b : Bool} {bs : List Bool} (he : s.biEof = false)
    (h : s.unreadBits = b :: bs) :
    ∃ u, getBit s = .bit b u ∧ u = { s with biNrem := u.biNrem } ∧ u.unreadBits = bs := by
  obtain ⟨n, hn⟩ : ∃ n, s.biNrem.val = n + 1 := by
    cases hz : s.biNrem.val with
    | zero => simp [State.unreadBits, hz] at h
    | succ n => exact ⟨n, rfl⟩
  simp only [State.unreadBits, hn, List.range_succ_eq_map, List.map_cons, List.map_map, List.cons.injEq] at h
  obtain ⟨h1, h2⟩ := h
  refine ⟨{ s with biNrem := ⟨s.biNrem.val - 1, by omega⟩ }, ?_, rfl, ?_⟩
  · simp only [Nat.add_sub_cancel, Nat.sub_zero] at h1
    simp [getBit, he, hn, h1]
  · simp only [State.unreadBits, hn]
    rw [← h2]
    apply List.map_congr_left
    intro j _
    simp
    congr 1
    omega

theorem walk_outcome {w a : Word} {p : Pos} (k : Nat → State → Out) (done : Nat → State → State → Prop)
    (tr : CodeTree) (s : State) (hseq : s.seq = .running w a p) (he : s.biEof = false)
    (hk : ∀ x u, x ∈ tr.symbols → SameButBI s u → ∃ t, k x u = .next t ∧ done x u t) :
    ∃ t, walk k tr s = .next t ∧ WalkOutcome w a tr s.unreadBits s done t := by
  induction tr generalizing s with
  | leaf x =>
    obtain ⟨t, ht, hd⟩ := hk x s (by simp [CodeTree.symbols]) rfl
    refine ⟨t, ht, fun q y _ hy => ?_, fun l r h => ?_⟩
    · cases q with
      | nil =>
        obtain rfl : x = y := by simpa [CodeTree.follow] using hy
        exact ⟨s, rfl, rfl, hd⟩
      | cons b q => simp [CodeTree.follow] at hy
    · cases hb : s.unreadBits with
      | nil => simp [hb, CodeTree.follow] at h
      | cons b bs => simp [hb, CodeTree.follow] at h
  | node l r ihl ihr =>
    cases hb : s.unreadBits with
    | nil =>
      have hn : s.biNrem = 0 := by
        have : s.biNrem.val = 0 := by simpa [State.unreadBits] using congrArg List.length hb
        exact Fin.ext this
      refine ⟨_, by simp only [walk, getBit, he, hn]; rfl, fun q x hq hx => ?_, fun l' r' h => ?_⟩
      · obtain rfl : q = [] := by simpa using hq
        simp [CodeTree.follow] at hx
      · obtain ⟨rfl, rfl⟩ : l = l' ∧ r = r' := by simpa [CodeTree.follow] using h
        rw [State.park_of_running hseq, ← hn]
    | cons b bs =>
      obtain ⟨u, hg, hu, hub⟩ := State.unreadBits_cons he hb
      have hub' : SameButBI s u := by rw [hu]; rfl
      have hs : u.seq = .running w a p := by rw [hu]; exact hseq
      have hue : u.biEof = false := by rw [hu]; exact he
      have key : ∀ n : CodeTree, (∀ q, (CodeTree.node l r).follow (b :: q) = n.follow q) →
          (∃ t, walk k n u = .next t ∧ WalkOutcome w a n u.unreadBits u done t) →
          ∃ t, walk k n u = .next t ∧ WalkOutcome w a (.node l r) (b :: bs) s done t := by
        rintro n hf ⟨t, ht, h1, h2⟩
        refine ⟨t, ht, fun q x hq hx => ?_, fun l' r' h => ?_⟩
        · cases q with
          | nil => simp [CodeTree.follow] at hx
          | cons c q =>
            obtain ⟨rfl, hq'⟩ := List.cons_prefix_cons.1 hq
            rw [hf] at hx
            obtain ⟨v, hv, hvb, hvd⟩ := h1 q x (by rw [hub]; exact hq') hx
            refine ⟨v, by rw [hv, hu], by rw [hvb, hub]; simp, hvd⟩
        · rw [hf, ← hub] at h
          rw [h2 l' r' h, hu]
      cases b with
      | false =>
        simp only [walk, hg, Got.andThen]
        exact key l (fun q => by simp [CodeTree.follow]) (ihl u hs hue fun x v hx hv =>
          hk x v (by simp [CodeTree.symbols, hx]) (hub'.trans hv))
      | true =>
        simp only [walk, hg, Got.andThen]
        exact key r (fun q => by simp [CodeTree.follow]) (ihr u hs hue fun x v hx hv =>
          hk x v (by simp [CodeTree.symbols, hx]) (hub'.trans hv))

theorem decodeSym_outcome {w a : Word} {p : Pos} (k : Nat → State → Out) (done : Nat → State → State → Prop)
    (s : State) (hseq : s.seq = .running w a p) (hk : ∀ x u, SameButBI s u → ∃ t, k x u = .next t ∧ done x u t) :
    ∃ t, decodeSym k s = .next t ∧ DecodeOutcome w a s done t := by
  cases ht : s.tree with
  | none => exact ⟨_, by simp only [decodeSym, ht]; rfl, fun _ => rfl, fun l r h => by simp [ht] at h⟩
  | some tr =>
    cases he : s.biEof with
    | true =>
      cases tr with
      | leaf x =>
        obtain ⟨t, h1, -⟩ := hk x s rfl
        exact ⟨t, by simp [decodeSym, ht, walk, h1], fun h => by simp [ht] at h, fun l r h => by simp [ht] at h⟩
      | node l r =>
        refine ⟨_, by simp only [decodeSym, ht, walk, getBit, he]; rfl, fun h => by simp [ht] at h, fun l' r' h => ?_⟩
        exact ⟨fun _ => rfl, fun h' => by simp [he] at h'⟩
    | false =>
      obtain ⟨t, h1, h2⟩ := walk_outcome k done tr s hseq he fun x u _ => hk x u
      refine ⟨t, by simpa [decodeSym, ht] using h1, fun h => by simp [ht] at h, fun l r h => ?_⟩
      obtain rfl : tr = .node l r := by simpa [ht] using h
      exact ⟨fun h' => by simp [he] at h', fun _ => h2⟩

/-- The walk resumed with a byte answers as WalkOutcome says over the byte's eight bits. -/
theorem resumeWalk_outcome {w a : Word} {p : Pos} (k : Nat → State → Out) (done : Nat → State → State → Prop)
    (l r : CodeTree) (b : Byte) (s : State) (hseq : s.seq = .running w a p) (he : s.biEof = false)
    (hk : ∀ x u, SameButBI s u → ∃ t, k x u = .next t ∧ done x u t) :
    ∃ t, resumeWalk k l r (.byte b) s = .next t ∧
      WalkOutcome w a (.node l r) (byteBits b) { s with biByte := b } done t := by
  have hbits : byteBits b = b.getLsbD 7 :: State.unreadBits { s with biByte := b, biNrem := 7 } := by
    simp [byteBits, State.unreadBits, List.range_succ_eq_map]
  have hs : SameButBI s { s with biByte := b, biNrem := 7 } := rfl
  have key : ∀ n : CodeTree, (∀ q, (CodeTree.node l r).follow (b.getLsbD 7 :: q) = n.follow q) →
      ∃ t, walk k n { s with biByte := b, biNrem := 7 } = .next t ∧
        WalkOutcome w a (.node l r) (byteBits b) { s with biByte := b } done t := by
    intro n hf
    obtain ⟨t, ht, h1, h2⟩ := walk_outcome k done n { s with biByte := b, biNrem := 7 } hseq he
      fun x u _ hu => hk x u (hs.trans hu)
    refine ⟨t, ht, fun q x hq hx => ?_, fun l' r' h => ?_⟩
    · cases q with
      | nil => simp [CodeTree.follow] at hx
      | cons c q =>
        rw [hbits] at hq ⊢
        obtain ⟨rfl, hq'⟩ := List.cons_prefix_cons.1 hq
        rw [hf] at hx
        obtain ⟨v, hv, hvb, hvd⟩ := h1 q x hq' hx
        exact ⟨v, hv, by rw [hvb]; simp, hvd⟩
    · rw [hbits, hf] at h
      exact h2 l' r' h
  unfold resumeWalk
  simp only [gotItem, Got.andThen]
  cases hb : b.getLsbD 7 with
  | false =>
    rw [hb] at key
    exact key l fun q => by simp [CodeTree.follow]
  | true =>
    rw [hb] at key
    exact key r fun q => by simp [CodeTree.follow]

theorem resumeWalk_end (k : Nat → State → Out) (l r : CodeTree) (s : State) :
    resumeWalk k l r .endItem s = .next (State.withError { s with biEof := true } 5 1 0) := rfl

/-! ## Counting -/

theorem countSym_added (s : State) (sym : Nat) (h : sym ≤ 256) : FreqAdded sym s (s.countSym sym) := by
  refine ⟨rfl, ?_, fun k hk => ?_⟩
  · rw [State.freq_countSym, if_pos ⟨rfl, by omega⟩]
  · rw [State.freq_countSym, if_neg fun hh => hk hh.1]

/-- A data symbol counted at a count below the limit goes on from the checkpoint of the counted state. -/
theorem countData_outcome (s : State) (sym : Nat) (k : State → Out) (h : sym ≤ 256) (hc : s.cnt ≠ 0xFFFFFFFFFFFFFFFF) :
    ∃ u, DataCounted sym s u ∧ countData sym k s = k u.checkpoint :=
  ⟨_, countSym_added _ _ h, if_neg hc⟩

/-! ## The host's push and the orders of a program (30_encoding.md R100) -/

/-- A push drops no item: IN_OVF is as it was, and IN is as it was or has one more item and is still within IN_DEPTH. -/
theorem pushTurn_outcome (v : Word) (rest : List Turn) (s : State) :
    ∃ t, pushTurn v rest s = .next t ∧ t.inOvf = s.inOvf ∧
      (t.inQ = s.inQ ∨ ∃ it, t.inQ = s.inQ ++ [it] ∧ t.inQ.length ≤ Config.inDepth) := by
  unfold pushTurn
  split
  · next h =>
    refine ⟨State.pushIn v s, rfl, ?_⟩
    have hne : s.inQ.length ≠ Config.inDepth := by omega
    unfold State.pushIn
    rw [if_neg hne]
    split
    · exact ⟨rfl, .inr ⟨.endItem, rfl, by simpa using h⟩⟩
    · exact ⟨rfl, .inr ⟨.byte (v.setWidth 8), rfl, by simpa using h⟩⟩
  · exact ⟨_, rfl, rfl, .inl rfl⟩

/-- Engine steps and pops may stand anywhere in an order of a program. -/
theorem Interleaves.serve {program xs ys : List Turn} {u : Turn} (hu : isServing u = true) :
    Interleaves program (xs ++ u :: ys) ↔ Interleaves program (xs ++ ys) := by
  simp [Interleaves, hu]

/-- A queue level that fits 32 bits reads as the number of items (20_memory.md R65). -/
theorem levelWord_toNat {n : Nat} (h : n < 2 ^ 32) : (levelWord n).toNat = n := by
  rw [levelWord, if_pos h, BitVec.toNat_ofNat, Nat.mod_eq_of_lt h]

end Sys2Proof.Machine
end

