-- ==== Sys2Proof/Laws/Lengths.lean ====
section
/-! SUPPORT. The number of nodes a list of lengths asks for at each level, and what ToTree() answers by it
(42_canonical_code.md R151, R152). -/

namespace Sys2Proof.Machine

/-- A positive length at or below level `d` adds its share of a node of that level. -/
theorem levelSum_cons (l : Nat) (L : List Nat) (d : Nat) :
    levelSum (l :: L) d = (if 0 < l ∧ d ≤ l then (1 / 2 : ℚ) ^ (l - d) else 0) + levelSum L d := by
  by_cases h : 0 < l ∧ d ≤ l <;> simp [levelSum, h]

/-- A level has its own leaves and the nodes that pair up the level below. -/
theorem levelSum_succ (L : List Nat) (d : Nat) :
    levelSum L (d + 1) = L.count (d + 1) + levelSum L (d + 2) / 2 := by
  induction L with
  | nil => simp [levelSum]
  | cons l L ih =>
    rw [levelSum_cons, levelSum_cons, ih, List.count_cons]
    rcases Nat.lt_trichotomy l (d + 1) with h | rfl | h
    · rw [if_neg (by omega), if_neg (by simp; omega), if_neg (by omega)]
      push_cast
      ring
    · rw [if_pos (by omega), if_pos (by simp), if_neg (by omega)]
      push_cast
      simp
      ring
    · rw [if_pos (by omega), if_neg (by simp; omega), if_pos (by omega), (by omega : l - (d + 1) = l - (d + 2) + 1),
        pow_succ]
      push_cast
      ring

/-- The root level has no leaf of its own. -/
theorem levelSum_zero (L : List Nat) : levelSum L 0 = levelSum L 1 / 2 := by
  induction L with
  | nil => simp [levelSum]
  | cons l L ih =>
    rw [levelSum_cons, levelSum_cons, ih]
    rcases Nat.eq_zero_or_pos l with rfl | h
    · simp
    · rw [if_pos (by omega), if_pos (by omega), (by omega : l - 0 = l - 1 + 1), pow_succ]
      ring

/-- No node is deeper than the greatest length. -/
theorem levelSum_eq_zero {L : List Nat} {d : Nat} (h : ∀ l ∈ L, l < d) : levelSum L d = 0 := by
  have : L.filter (fun l => 0 < l ∧ d ≤ l) = [] :=
    List.filter_eq_nil_iff.2 fun l hl => by
      have := h l hl
      simp
      omega
  rw [levelSum, this]
  rfl

theorem length_pairUp : (nodes : List CodeTree) → (pairUp nodes).length = nodes.length / 2
  | [] => rfl
  | [_] => by simp [pairUp]
  | a :: b :: rest => by
    simp only [pairUp, List.length_cons, length_pairUp rest]
    omega

theorem length_leavesAt (L : List Nat) (i : Nat) : (leavesAt L i).length = L.count i := by
  have key : ∀ k, ((L.zipIdx k).filterMap fun c => if c.1 = i then some (CodeTree.leaf c.2) else none).length =
      L.count i := by
    induction L with
    | nil => intro k; rfl
    | cons l L ih =>
      intro k
      by_cases h : l = i
      · simp [List.zipIdx_cons, h, ih]
      · simp [List.zipIdx_cons, h, ih]
  exact key 0

/-- From level `i + 1` with its nodes and every deeper level even, the loop of ToTree() ends with the root level's nodes
and every level even, or at the deepest odd level with its number of nodes. -/
theorem treeLevels_outcome (L : List Nat) (i : Nat) (nodes : List CodeTree) (hn : levelSum L (i + 1) = nodes.length)
    (he : ∀ e, i + 1 < e → ∃ k : Nat, levelSum L e = 2 * k) :
    match treeLevels L i nodes with
    | .ok ts => RootNodes L ts.length
    | .error n => ∃ d, DeepestOdd L d n := by
  have even : nodes.length % 2 ≠ 1 → levelSum L (i + 1) = 2 * ((nodes.length / 2 : Nat) : ℚ) := fun h => by
    rw [hn]
    exact_mod_cast (by omega : nodes.length = 2 * (nodes.length / 2))
  have step : nodes.length % 2 ≠ 1 → ∀ e, i < e → ∃ k : Nat, levelSum L e = 2 * k := fun h e hi => by
    rcases Nat.lt_or_ge (i + 1) e with h1 | h1
    · exact he e h1
    · obtain rfl : e = i + 1 := by omega
      exact ⟨_, even h⟩
  induction i generalizing nodes with
  | zero =>
    unfold treeLevels
    by_cases h : nodes.length % 2 = 1
    · rw [if_pos h]
      exact ⟨1, Nat.one_pos, hn, h, he⟩
    · rw [if_neg h]
      refine ⟨?_, step h⟩
      rw [levelSum_zero, even h, length_pairUp]
      ring
  | succ i ih =>
    unfold treeLevels
    by_cases h : nodes.length % 2 = 1
    · rw [if_pos h]
      exact ⟨i + 2, by omega, hn, h, he⟩
    · rw [if_neg h]
      have hlen : levelSum L (i + 1) = (leavesAt L (i + 1) ++ pairUp nodes).length := by
        rw [levelSum_succ, even h, List.length_append, length_leavesAt, length_pairUp]
        push_cast
        ring
      refine ih _ hlen (step h) (fun h' => ?_) fun h' e hi => ?_
      · rw [hlen]
        exact_mod_cast (by omega : (leavesAt L (i + 1) ++ pairUp nodes).length =
          2 * ((leavesAt L (i + 1) ++ pairUp nodes).length / 2))
      · rcases Nat.lt_or_ge (i + 1) e with h1 | h1
        · exact step h e h1
        · obtain rfl : e = i + 1 := by omega
          refine ⟨(leavesAt L (i + 1) ++ pairUp nodes).length / 2, ?_⟩
          rw [hlen]
          exact_mod_cast (by omega : (leavesAt L (i + 1) ++ pairUp nodes).length =
            2 * ((leavesAt L (i + 1) ++ pairUp nodes).length / 2))

theorem le_foldl_max (L : List Nat) (m : Nat) : m ≤ L.foldl max m ∧ ∀ l ∈ L, l ≤ L.foldl max m := by
  induction L generalizing m with
  | nil => simp
  | cons x L ih =>
    obtain ⟨h1, h2⟩ := ih (max m x)
    refine ⟨by simp only [List.foldl_cons]; omega, fun l hl => ?_⟩
    rcases List.mem_cons.1 hl with rfl | hl
    · simp only [List.foldl_cons]; omega
    · exact h2 l hl

/-- ToTree() answers a tree where every level below the root is even and the root is one node, and otherwise fails with
the number of nodes of the level that fails first. -/
theorem toTree_outcome (L : List Nat) :
    match toTree L with
    | .ok _ => RootNodes L 1
    | .error n => BadLengths L n := by
  have hz : ∀ e, L.foldl max 0 < e → levelSum L e = 0 := fun e he =>
    levelSum_eq_zero fun l hl => Nat.lt_of_le_of_lt ((le_foldl_max L 0).2 l hl) he
  have key := treeLevels_outcome L (L.foldl max 0) [] (by simp [hz]) fun e he => ⟨0, by simp [hz e (by omega)]⟩
  unfold toTree
  cases ht : treeLevels L (L.foldl max 0) [] with
  | error n => rw [ht] at key; exact .inl key
  | ok ts =>
    rw [ht] at key
    match ts, key with
    | [], key => exact .inr ⟨by simp, key⟩
    | [_], key => exact key
    | _ :: _ :: _, key => exact .inr ⟨by simp, key⟩

/-- The deepest odd level is unique, and so is its number of nodes. -/
theorem DeepestOdd.unique {L : List Nat} {d d' n n' : Nat} (h : DeepestOdd L d n) (h' : DeepestOdd L d' n') :
    d = d' ∧ n = n' := by
  have odd : ∀ {d n}, DeepestOdd L d n → ¬ ∃ k : Nat, levelSum L d = 2 * k := fun h ⟨k, hk⟩ => by
    obtain ⟨-, h1, h2, -⟩ := h
    rw [h1] at hk
    have := (by exact_mod_cast hk : _ = 2 * k)
    omega
  rcases Nat.lt_trichotomy d d' with hd | rfl | hd
  · exact absurd (h.2.2.2 d' hd) (odd h')
  · exact ⟨rfl, by exact_mod_cast h.2.1.symm.trans h'.2.1⟩
  · exact absurd (h'.2.2.2 d hd) (odd h)

/-- A list of lengths with an odd level has no root level to count. -/
theorem DeepestOdd.not_root {L : List Nat} {d n m : Nat} (h : DeepestOdd L d n) : ¬ RootNodes L m := fun h' => by
  obtain ⟨k, hk⟩ := h'.2 d h.1
  rw [h.2.1] at hk
  have := (by exact_mod_cast hk : n = 2 * k)
  have := h.2.2.1
  omega

/-- ToTree() fails with `n` exactly when `n` is the number of nodes of the level that fails first. -/
theorem toTree_error_iff (L : List Nat) (n : Nat) : toTree L = .error n ↔ BadLengths L n := by
  have key := toTree_outcome L
  constructor
  · intro h
    rw [h] at key
    exact key
  · intro h
    cases ht : toTree L with
    | ok t =>
      rw [ht] at key
      rcases h with ⟨d, h⟩ | ⟨h1, h⟩
      · exact absurd key h.not_root
      · exact absurd (by exact_mod_cast h.1.symm.trans key.1) h1
    | error n' =>
      rw [ht] at key
      have : n = n' := by
        rcases h with ⟨d, h⟩ | ⟨h1, h⟩ <;> rcases key with ⟨d', h'⟩ | ⟨h1', h'⟩
        · exact (h.unique h').2
        · exact absurd h' h.not_root
        · exact absurd h h'.not_root
        · exact_mod_cast h.1.symm.trans h'.1
      rw [this]

end Sys2Proof.Machine
end

