-- ==== Sys2Proof/Laws/PerInstr.lean ====
section
/-! SUPPORT. The law of each instruction as syntax: its word carries its opcode, and under its row's mask its row's bits
(30_encoding.md R90, R96). -/

namespace Sys2Proof.Laws.RowWord

/-- The word of a well-formed instruction matches a row of the opcode map that has its opcode. -/
def Statement (i : Instr) : Prop :=
  i.WellFormed → opOf (encode i) = i.opcode ∧ ∃ r ∈ opTable, r.op = i.opcode ∧ encode i &&& r.mask = r.bits

theorem op_of_word (op : Byte) (sym widx : Nat) :
    opOf (op.setWidth 32 ||| (BitVec.ofNat 32 sym <<< 8) ||| (BitVec.ofNat 32 widx <<< 17)) = op := by
  unfold opOf
  apply BitVec.eq_of_getLsbD_eq
  intro j hj
  interval_cases j <;> simp

theorem masked_word (op : Byte) (sym widx : Nat) (hs : sym < 512) (hw : widx < 8) :
    (op.setWidth 32 ||| (BitVec.ofNat 32 sym <<< 8) ||| (BitVec.ofNat 32 widx <<< 17)) &&& 0xFFF000FF
      = op.setWidth 32 := by
  have hs' : ∀ j, 9 ≤ j → sym.testBit j = false := fun j hj =>
    Nat.testBit_lt_two_pow (lt_of_lt_of_le (show sym < 2 ^ 9 from hs) (Nat.pow_le_pow_right Nat.two_pos hj))
  have hw' : ∀ j, 3 ≤ j → widx.testBit j = false := fun j hj =>
    Nat.testBit_lt_two_pow (lt_of_lt_of_le (show widx < 2 ^ 3 from hw) (Nat.pow_le_pow_right Nat.two_pos hj))
  apply BitVec.eq_of_getLsbD_eq
  intro j hj
  interval_cases j <;> simp <;> simp [← BitVec.getLsbD_eq_getElem, BitVec.getLsbD_ofNat, hs', hw']

theorem masked_sym_word (op : Byte) (sym : Nat) (hs : sym < 512) :
    (op.setWidth 32 ||| (BitVec.ofNat 32 sym <<< 8) ||| (BitVec.ofNat 32 0 <<< 17)) &&& 0xFFFE00FF
      = op.setWidth 32 := by
  have hs' : ∀ j, 9 ≤ j → sym.testBit j = false := fun j hj =>
    Nat.testBit_lt_two_pow (lt_of_lt_of_le (show sym < 2 ^ 9 from hs) (Nat.pow_le_pow_right Nat.two_pos hj))
  apply BitVec.eq_of_getLsbD_eq
  intro j hj
  interval_cases j <;> simp <;> simp [← BitVec.getLsbD_eq_getElem, BitVec.getLsbD_ofNat, hs']

theorem plain_law (i : Instr) (op : Byte) (ho : i.opcode = op) (hr : plainRow op i ∈ opTable)
    (he : encode i = op.setWidth 32) : Statement i := by
  intro _
  refine ⟨?_, plainRow op i, hr, ho.symm, ?_⟩
  · rw [he, ho, opOf]
    apply BitVec.eq_of_getLsbD_eq
    intro j hj
    interval_cases j <;> simp
  · rw [he]
    show op.setWidth 32 &&& 0xFFFFFFFF#32 = op.setWidth 32
    exact BitVec.and_allOnes

theorem ftFill : Statement .ftFill := plain_law _ 0x10 rfl (by simp [opTable]) (by decide)

theorem ftGet (sym : Nat) : Statement (.ftGet sym) := fun h =>
  ⟨op_of_word _ _ _, symRow 0x11 .ftGet, by simp [opTable], rfl, masked_sym_word _ _ h.1⟩

theorem ftSet (sym : Nat) : Statement (.ftSet sym) := fun h =>
  ⟨op_of_word _ _ _, symRow 0x12 .ftSet, by simp [opTable], rfl, masked_sym_word _ _ h.1⟩

theorem ftInc (sym : Nat) : Statement (.ftInc sym) := fun h =>
  ⟨op_of_word _ _ _, symRow 0x13 .ftInc, by simp [opTable], rfl, masked_sym_word _ _ h.1⟩

theorem ftBuild : Statement .ftBuild := plain_law _ 0x14 rfl (by simp [opTable]) (by decide)

theorem ctGetlen (sym : Nat) : Statement (.ctGetlen sym) := fun h =>
  ⟨op_of_word _ _ _, symRow 0x20 .ctGetlen, by simp [opTable], rfl, masked_sym_word _ _ h.1⟩

theorem ctGetcode (sym widx : Nat) : Statement (.ctGetcode sym widx) := fun h =>
  ⟨op_of_word _ _ _, symWidxRow 0x21 .ctGetcode, by simp [opTable], rfl, masked_word _ _ _ h.1 h.2⟩

theorem ctClear : Statement .ctClear := plain_law _ 0x22 rfl (by simp [opTable]) (by decide)

theorem clGet (sym : Nat) : Statement (.clGet sym) := fun h =>
  ⟨op_of_word _ _ _, symRow 0x30 .clGet, by simp [opTable], rfl, masked_sym_word _ _ h.1⟩

theorem clSet (sym : Nat) : Statement (.clSet sym) := fun h =>
  ⟨op_of_word _ _ _, symRow 0x31 .clSet, by simp [opTable], rfl, masked_sym_word _ _ h.1⟩

theorem ccCheck : Statement .ccCheck := plain_law _ 0x32 rfl (by simp [opTable]) (by decide)

theorem ccFromTree : Statement .ccFromTree := plain_law _ 0x33 rfl (by simp [opTable]) (by decide)

theorem ccToTree : Statement .ccToTree := plain_law _ 0x34 rfl (by simp [opTable]) (by decide)

theorem encSym (sym : Nat) : Statement (.encSym sym) := fun h =>
  ⟨op_of_word _ _ _, symRow 0x40 .encSym, by simp [opTable], rfl, masked_sym_word _ _ h.1⟩

theorem decSym : Statement .decSym := plain_law _ 0x41 rfl (by simp [opTable]) (by decide)

theorem boWrite : Statement .boWrite := plain_law _ 0x50 rfl (by simp [opTable]) (by decide)

theorem boClose : Statement .boClose := plain_law _ 0x51 rfl (by simp [opTable]) (by decide)

theorem biRead : Statement .biRead := plain_law _ 0x52 rfl (by simp [opTable]) (by decide)

theorem biReadNoeof : Statement .biReadNoeof := plain_law _ 0x53 rfl (by simp [opTable]) (by decide)

theorem streamReset : Statement .streamReset := plain_law _ 0x54 rfl (by simp [opTable]) (by decide)

theorem inSkip : Statement .inSkip := plain_law _ 0x55 rfl (by simp [opTable]) (by decide)

theorem scScan : Statement .scScan := plain_law _ 0x60 rfl (by simp [opTable]) (by decide)

theorem scHeader : Statement .scHeader := plain_law _ 0x61 rfl (by simp [opTable]) (by decide)

theorem scEncode : Statement .scEncode := plain_law _ 0x62 rfl (by simp [opTable]) (by decide)

theorem sdDecode : Statement .sdDecode := plain_law _ 0x63 rfl (by simp [opTable]) (by decide)

theorem acEncode : Statement .acEncode := plain_law _ 0x70 rfl (by simp [opTable]) (by decide)

theorem adDecode : Statement .adDecode := plain_law _ 0x71 rfl (by simp [opTable]) (by decide)

theorem nop : Statement .nop := plain_law _ 0x00 rfl (by simp [opTable]) (by decide)

theorem errClear : Statement .errClear := plain_law _ 0x01 rfl (by simp [opTable]) (by decide)

theorem setSymlim : Statement .setSymlim := plain_law _ 0x02 rfl (by simp [opTable]) (by decide)

end Sys2Proof.Laws.RowWord
end

