-- ==== Sys2Proof/Tests/Slice0.lean ====
section
/-! SUPPORT. The model's own tests: decoding of words written out from 30_encoding.md R90 and R96, one small test or two
of each command from spec/95_test_vectors.md, and a witness of the hypotheses of each statement. -/

namespace Sys2Proof.Tests

open Sys2Proof Sys2Proof.Machine

-- One theorem at a time: so many kernel evaluations side by side can exceed the sandbox's memory limit.
set_option Elab.async false

/-! ## Helpers -/

/-- A state whose sequencer runs command `i` with argument `a` at position `p`. -/
def running (i : Instr) (a : Word) (p : Pos) (s : State := State.reset) : State :=
  { s with seq := .running (encode i) a p }

/-- The state a segment of `i` leaves. -/
def after (i : Instr) (s : State) : Option State :=
  match exec i s with
  | .next t => some t
  | .fault _ => none
  | .refused _ => none

/-- The state the first segment of `i` leaves. -/
def first (i : Instr) (a : Word) (s : State := State.reset) : Option State := after i (running i a .start s)

/-- The error state of 60_exceptions.md R260: ERRCODE, ERRDETAIL, ERRINFO while ERR = 1. -/
def errorOf (s : State) : Option (Nat × Nat × Word) :=
  if s.err then some (s.errCode.toNat, s.errDetail.toNat, s.errInfo) else none

/-- N(L0, L1). -/
def pair : CodeTree := .node (.leaf 0) (.leaf 1)

/-- N(L0, N(L1, L2)). -/
def tri : CodeTree := .node (.leaf 0) (.node (.leaf 1) (.leaf 2))

/-- The reset state with SYMLIM = 3. -/
def lim3 : State := { State.reset with symLim := 3 }

/-- SYMLIM = 3 with FT = [x, y, z]. -/
def freqs3 (x y z : Word) : State := ((lim3.setFreq 0 x).setFreq 1 y).setFreq 2 z

/-- SYMLIM = 3 with CL = [x, y, z]. -/
def lens3 (x y z : BitVec 31) : State := ((lim3.setLen 0 x).setLen 1 y).setLen 2 z

/-- OUT full, whatever OUT_DEPTH is. -/
def fullOut (s : State) : State := { s with outQ := List.replicate Config.outDepth .endItem }

/-- IN full, whatever IN_DEPTH is. -/
def fullIn (s : State) : State := { s with inQ := List.replicate Config.inDepth .endItem }

/-- A tree with a path of n + 1 ones that ends inside it for n ones. -/
def comb : Nat → CodeTree
  | 0 => pair
  | n + 1 => .node (.leaf (n + 2)) (comb n)

/-- What the next step leaves. -/
def stepped (s : State) : Option State :=
  match step s with
  | .next t => some t
  | .fault _ => none
  | .refused _ => none

/-! ## Well-formedness and decoding (30_encoding.md R90, R94, R96, R98) -/

theorem test_sym_of_ten_bits_is_ill_formed : ¬ (Instr.ftGet 512).WellFormed := by decide

theorem test_widx_of_four_bits_is_ill_formed : ¬ (Instr.ctGetcode 0 8).WellFormed := by decide

theorem test_largest_fields_are_well_formed : (Instr.ctGetcode 511 7).WellFormed := by decide

/-- OP = 0x11 to 0x13 with SYM = 97, 257 and 511 in bits 16:8; OP = 0x10 and 0x14 alone. -/
theorem test_words_of_the_frequency_table :
    decode 0x00000010 = .ok .ftFill ∧ decode 0x00006111 = .ok (.ftGet 97) ∧ decode 0x00010112 = .ok (.ftSet 257) ∧
    decode 0x0001FF13 = .ok (.ftInc 511) ∧ decode 0x00000014 = .ok .ftBuild := by decide

/-- SYM = 97 in bits 16:8 and WIDX = 5 in bits 19:17. -/
theorem test_words_of_the_code_tree :
    decode 0x00006120 = .ok (.ctGetlen 97) ∧ decode 0x000A6121 = .ok (.ctGetcode 97 5) ∧
    decode 0x00000022 = .ok .ctClear := by decide

/-- The CL_SET words are those of 95_test_vectors.md P1. -/
theorem test_words_of_the_canonical_code :
    decode 0x00000030 = .ok (.clGet 0) ∧ decode 0x00000131 = .ok (.clSet 1) ∧ decode 0x00000231 = .ok (.clSet 2) ∧
    decode 0x00000032 = .ok .ccCheck ∧ decode 0x00000033 = .ok .ccFromTree ∧
    decode 0x00000034 = .ok .ccToTree := by decide

/-- ENC_SYM 5 of 95_test_vectors.md P6, and ENC_SYM 256. -/
theorem test_words_of_the_codec :
    decode 0x00000540 = .ok (.encSym 5) ∧ decode 0x00010040 = .ok (.encSym 256) ∧
    decode 0x00000041 = .ok .decSym := by decide

theorem test_words_of_the_bit_streams :
    decode 0x00000050 = .ok .boWrite ∧ decode 0x00000051 = .ok .boClose ∧ decode 0x00000052 = .ok .biRead ∧
    decode 0x00000053 = .ok .biReadNoeof ∧ decode 0x00000054 = .ok .streamReset ∧
    decode 0x00000055 = .ok .inSkip := by decide

theorem test_words_of_the_protocols :
    decode 0x00000060 = .ok .scScan ∧ decode 0x00000061 = .ok .scHeader ∧ decode 0x00000062 = .ok .scEncode ∧
    decode 0x00000063 = .ok .sdDecode ∧ decode 0x00000070 = .ok .acEncode ∧
    decode 0x00000071 = .ok .adDecode := by decide

theorem test_words_of_control :
    decode 0x00000000 = .ok .nop ∧ decode 0x00000001 = .ok .errClear ∧ decode 0x00000002 = .ok .setSymlim := by decide

/-- 95_test_vectors.md 2.8: an unknown OP comes before reserved bits; an unused SYM, bit 20 and an unused WIDX. -/
theorem test_words_refused_by_name :
    decode 0x00000003 = .error .opcode ∧ decode 0x800000FF = .error .opcode ∧
    decode 0x00000114 = .error .reserved ∧ decode 0x00100011 = .error .reserved ∧
    decode 0x00020020 = .error .reserved ∧ decode 0x00000101 = .error .reserved := by decide

/-- The encoder writes the words of 95_test_vectors.md P1 and P4. -/
theorem test_encoder_writes_the_words_of_the_programs :
    encode (.ctGetcode 2 0) = 0x00000221 ∧ encode (.clSet 2) = 0x00000231 ∧
    encode (.ctGetlen 97) = 0x00006120 := by decide

/-- 30_encoding.md R99: a command that takes ARG assembles to two accesses. -/
theorem test_assembly_of_a_command_with_its_argument :
    issue (.clSet 1) 2 = [.host (.write 4 4 2), .host (.write 0 4 0x131)] ∧
    issue .ccCheck 2 = [.host (.write 0 4 0x32)] := by decide

/-! ## Frequency table (95_test_vectors.md 2.1) -/

theorem test_ft_fill_sets_the_last_entry : (first .ftFill 1).map (fun t => (t.freq 256, t.seq)) = some (1, .idle) := by
  decide

theorem test_ft_fill_refuses_a_negative_argument :
    (first .ftFill 0xFFFFFFFF).map (fun t => (errorOf t, t.freq 0)) = some (some (1, 2, 0xFFFFFFFF), 0) := by decide

theorem test_ft_get_reads_an_entry : (first (.ftGet 2) 0 (freqs3 1 1 2)).map (·.result) = some 2 := by decide

theorem test_ft_get_at_the_limit : (first (.ftGet 3) 0 lim3).bind errorOf = some (2, 1, 3) := by decide

theorem test_ft_set_takes_the_largest_value :
    (first (.ftSet 2) 0x7FFFFFFF).map (fun t => (t.freq 2).toNat) = some 2147483647 := by decide

theorem test_ft_set_checks_the_range_first : (first (.ftSet 300) 0xFFFFFFFF).bind errorOf = some (2, 1, 300) := by decide

theorem test_ft_inc_reaches_the_largest_frequency :
    (first (.ftInc 0) 0 (State.reset.setFreq 0 0xFFFFFFFE)).map (fun t => (t.freq 0, errorOf t)) =
      some (0xFFFFFFFF, none) := by decide

theorem test_ft_inc_does_not_wrap :
    (first (.ftInc 0) 0 (State.reset.setFreq 0 0xFFFFFFFF)).map (fun t => (t.freq 0, errorOf t)) =
      some (0xFFFFFFFF, some (6, 1, 0)) := by decide

/-- FT = [5,0,0]: the padding leaf has weight 0 and is extracted first. -/
theorem test_ft_build_pads_a_single_symbol :
    (first .ftBuild 0 (freqs3 5 0 0)).map (·.tree) = some (some (.node (.leaf 1) (.leaf 0))) := by decide +kernel

/-- FT = [1,1,1]: the merged entry has weight 2, so L2 is the 0-child of the root. -/
theorem test_ft_build_breaks_ties_by_the_least_symbol :
    (first .ftBuild 0 (freqs3 1 1 1)).map (·.tree) =
      some (some (.node (.leaf 2) (.node (.leaf 0) (.leaf 1)))) := by decide +kernel

/-! ## Code tree (95_test_vectors.md 2.2, P1) -/

theorem test_ct_getlen_without_a_leaf :
    (first (.ctGetlen 2) 0 { lim3 with tree := some pair }).bind errorOf = some (3, 2, 2) := by decide

theorem test_ct_getlen_without_a_tree_comes_before_the_range :
    (first (.ctGetlen 500) 0).bind errorOf = some (3, 1, 0) := by decide

/-- Code `11` of symbol 2 stands in the two high bits of word 0. -/
theorem test_ct_getcode_puts_the_first_bit_at_bit_31 :
    (first (.ctGetcode 2 0) 0 { lim3 with tree := some tri }).map (·.result) = some 0xC0000000 := by decide

theorem test_ct_getcode_past_the_end_reads_zero :
    (first (.ctGetcode 2 7) 0 { lim3 with tree := some tri }).map (·.result) = some 0 := by decide

theorem test_ct_clear : (first .ctClear 0 { lim3 with tree := some tri }).map (·.treeValid) = some false := by decide

/-! ## Canonical code (95_test_vectors.md 1.1, 2.3) -/

theorem test_cl_get : (first (.clGet 2) 0 (lens3 1 2 2)).map (·.result) = some 2 := by decide

theorem test_cl_set : (first (.clSet 0) 5).map (·.len 0) = some 5 := by decide

theorem test_cl_set_refuses_a_negative_length :
    (first (.clSet 0) 0xFFFFFFFF).map (fun t => (errorOf t, t.len 0)) = some (some (1, 3, 0xFFFFFFFF), 0) := by decide

theorem test_cc_check_accepts_a_complete_code :
    (first .ccCheck 0 (lens3 1 2 2)).map (fun t => (errorOf t, t.seq)) = some (none, .idle) := by decide +kernel

theorem test_cc_check_names_the_odd_level : (first .ccCheck 0 (lens3 1 2 3)).bind errorOf = some (1, 4, 3) := by
  decide +kernel

theorem test_cc_check_of_no_length : (first .ccCheck 0 (lens3 0 0 0)).bind errorOf = some (1, 5, 0) := by
  decide +kernel

theorem test_cc_from_tree :
    (first .ccFromTree 0 { lim3 with tree := some pair }).map (fun t => (t.len 0, t.len 1, t.len 2)) =
      some (1, 1, 0) := by decide +kernel

theorem test_cc_to_tree_is_canonical :
    (first .ccToTree 0 (lens3 2 2 1)).map (·.tree) =
      some (some (.node (.leaf 2) (.node (.leaf 0) (.leaf 1)))) := by decide +kernel

theorem test_cc_to_tree_keeps_the_tree_on_error :
    (first .ccToTree 0 { lens3 1 1 1 with tree := some pair }).map (fun t => (errorOf t, t.tree)) =
      some (some (4, 2, 3), some pair) := by decide +kernel

/-! ## Codec (95_test_vectors.md 2.4, P1) -/

/-- P1: the bits `10` of symbol 1. -/
theorem test_enc_sym_puts_the_code_in_order :
    (first (.encSym 1) 0 { lim3 with tree := some tri }).map (fun t => (t.boBuf, t.boNbits, t.seq)) =
      some (2, 2, .idle) := by decide

/-- Seven pending 0 bits, then `11`: the byte 0x01 is pushed and the second 1 stays pending. -/
theorem test_enc_sym_goes_on_after_its_push :
    ((first (.encSym 2) 0 { lim3 with tree := some tri, boNbits := 7 }).bind (after (.encSym 2))).map
      (fun t => (t.outQ, t.boBuf, t.boNbits, t.seq)) = some ([.byte 0x01], 1, 1, .idle) := by decide

/-- The bits `1`, `1` of 0xC0 walk to L2 and leave six bits. -/
theorem test_dec_sym_pops_a_byte :
    ((first .decSym 0 { lim3 with tree := some tri, inQ := [.byte 0xC0] }).bind (after .decSym)).map
      (fun t => (t.result, t.biNrem, t.inQ, t.seq)) = some (2, 6, [], .idle) := by decide

theorem test_dec_sym_at_the_end_of_the_stream :
    ((first .decSym 0 { lim3 with tree := some tri, inQ := [.endItem] }).bind (after .decSym)).map
      (fun t => (errorOf t, t.biEof)) = some (some (5, 1, 0), true) := by decide

/-! ## Bit streams (95_test_vectors.md 1.2, 1.3, 2.5) -/

theorem test_bo_write_refuses_two : (first .boWrite 2).map (fun t => (errorOf t, t.boNbits)) = some (some (2, 2, 2), 0) := by
  decide

theorem test_bo_write_waits_to_push_the_eighth_bit :
    (first .boWrite 1 { State.reset with boBuf := 0x7F, boNbits := 7 }).map (·.seq) =
      some (.running 0x50 1 (.pushOut (.byte 0xFF) .bit)) := by decide

/-- Pending `101` closes as 0xA0, then END. -/
theorem test_bo_close_pads_with_zeros :
    (((first .boClose 0 { State.reset with boBuf := 5, boNbits := 3 }).bind (after .boClose)).map
      (fun t => (t.outQ, t.seq))) = some ([.byte 0xA0], .running 0x51 0 (.pushOut .endItem .close)) := by decide

theorem test_bi_read_pops_a_byte :
    ((first .biRead 0 { State.reset with inQ := [.byte 0x80, .endItem] }).bind (after .biRead)).map
      (fun t => (t.result, t.biNrem)) = some (1, 7) := by decide

theorem test_bi_read_stays_at_the_end :
    (first .biRead 0 { State.reset with biEof := true, inQ := [.byte 5] }).map (fun t => (t.result, t.inQ)) =
      some (0xFFFFFFFF, [.byte 5]) := by decide

theorem test_bi_read_noeof_at_the_end :
    ((first .biReadNoeof 0 { State.reset with inQ := [.endItem] }).bind (after .biReadNoeof)).map
      (fun t => (errorOf t, t.biEof)) = some (some (5, 1, 0), true) := by decide

theorem test_stream_reset :
    (first .streamReset 0 { State.reset with boBuf := 5, boNbits := 3, biEof := true, biNrem := 2 }).map
      (fun t => (t.boNbits, t.biNrem, t.biEof)) = some (0, 0, false) := by decide

theorem test_in_skip_stops_after_end :
    (after .inSkip (running .inSkip 0 (.popIn .drain) { State.reset with inQ := [.endItem, .byte 3] })).map
      (fun t => (t.inQ, t.seq)) = some ([.byte 3], .idle) := by decide

/-! ## Protocols (95_test_vectors.md 2.6, 2.7) -/

theorem test_sc_scan_counts_a_byte :
    (after .scScan (running .scScan 0 (.popIn .item) { State.reset with inQ := [.byte 0x61] })).map
      (fun t => (t.freq 0x61, t.inQ, t.seq)) = some (1, [], .running 0x60 0 (.popIn .item)) := by decide

theorem test_sc_scan_needs_the_byte_alphabet :
    (first .scScan 0 (freqs3 1 2 3)).map (fun t => (errorOf t, t.freq 2)) = some (some (7, 3, 3), 3) := by decide

/-- The empty input: the padding leaf L0 and EOF_SYM, each with one bit; the header begins with the length 1. -/
theorem test_sc_header_of_the_empty_input :
    (first .scHeader 0).map (fun t => (t.freq 256, t.len 0, t.len 256, t.tree, t.seq)) =
      some (1, 1, 1, some (.node (.leaf 0) (.leaf 256)),
        .running 0x61 0 (.pushOut (.byte 1) (.header 256 []))) := by decide +kernel

theorem test_sc_encode_of_a_byte_without_a_code :
    (after .scEncode (running .scEncode 0 (.popIn .item)
      { State.reset with tree := some pair, inQ := [.byte 99] })).bind errorOf = some (3, 2, 99) := by decide

/-- Code `1` of EOF_SYM closes the empty session's stream as the byte 0x80. -/
theorem test_sc_encode_of_the_empty_input :
    (after .scEncode (running .scEncode 0 (.popIn .item)
      { State.reset with tree := some (.node (.leaf 0) (.leaf 256)), inQ := [.endItem] })).map (·.seq) =
      some (.running 0x62 0 (.pushOut (.byte 0x80) .pad)) := by decide

theorem test_sd_decode_ends_inside_the_header :
    (after .sdDecode (running .sdDecode 0 (.popIn (.header 2055 0)) { State.reset with inQ := [.endItem] })).bind errorOf
      = some (5, 1, 0) := by decide

/-- A zero byte decodes as 97 under N(L97, L98). -/
theorem test_sd_decode_pushes_a_symbol :
    (after .sdDecode (running .sdDecode 0 (.popIn (.walk (.leaf 97) (.leaf 98)))
      { State.reset with inQ := [.byte 0] })).map (fun t => (t.biNrem, t.seq)) =
      some (7, .running 0x63 0 (.pushOut (.byte 97) (.data 97))) := by decide

/-- The first byte `a` under the flat tree is 0x5F. -/
theorem test_ac_encode_of_the_first_byte :
    (((first .acEncode 0).map fun t => { t with inQ := [.byte 97] }).bind (after .acEncode)).map (·.seq) =
      some (.running 0x70 0 (.pushOut (.byte 0x5F) (.code 97 []))) := by decide +kernel

theorem test_ac_encode_needs_the_byte_alphabet :
    (first .acEncode 0 { State.reset with symLim := 2 }).bind errorOf = some (7, 3, 2) := by decide

/-- The byte 0x5F under the flat tree is the symbol 97. -/
theorem test_ad_decode_of_the_first_byte :
    (((first .adDecode 0).map fun t => { t with inQ := [.byte 0x5F] }).bind (after .adDecode)).map (·.seq) =
      some (.running 0x71 0 (.pushOut (.byte 97) (.data 97))) := by decide +kernel

/-- 46_adaptive_protocol.md R226: the flat codes of 2, 97 and 256 are the bytes 0x00, 0x5F and 0xFE; those of 0 and 1 have
nine bits. -/
theorem test_ad_decode_starts_with_the_flat_codes :
    ((first .adDecode 0).bind (·.tree)).map (fun tr => [2, 97, 256, 0, 1].map tr.code) = some
      [some [false, false, false, false, false, false, false, false],
       some [false, true, false, true, true, true, true, true],
       some [true, true, true, true, true, true, true, false],
       some [true, true, true, true, true, true, true, true, false],
       some [true, true, true, true, true, true, true, true, true]] := by decide +kernel

/-- 95_test_vectors.md 1.6. -/
theorem test_checkpoint_schedule :
    (List.map rebuildsAt [1, 2, 3, 131072, 262143, 262144, 262145, 524288]) =
      [true, true, false, true, false, true, false, true] ∧
    epochEnds 131072 = false ∧ epochEnds 262144 = true := by decide

/-! ## Control and the window (95_test_vectors.md 2.8) -/

theorem test_nop_completes : (first .nop 0).map (·.seq) = some .idle := by decide

theorem test_err_clear :
    (first .errClear 0 { State.reset with err := true, errCode := 3, errDetail := 1, inOvf := true }).map
      (fun t => (errorOf t, t.errCode, t.inOvf)) = some (none, 0, false) := by decide

theorem test_set_symlim_writes_config : (first .setSymlim 2).map (·.config) = some 0x00200002 := by decide

theorem test_set_symlim_refuses_258 : (first .setSymlim 258).bind errorOf = some (2, 3, 258) := by decide

/-- STATUS after ENC_SYM 0 from reset is 0x00401302. -/
theorem test_status_after_an_error :
    (after (.encSym 0) (State.reset.accept 0x40)).map (·.status) = some 0x00401302 := by decide

theorem test_config_at_reset : State.reset.status = 0 ∧ State.reset.config = 0x00200101 := by decide

theorem test_in_push_ignores_high_bits : (State.reset.pushIn 0x241).inQ = [.byte 0x41] ∧
    (State.reset.pushIn 0x1FF).inQ = [.endItem] := by decide

theorem test_out_pop_of_an_empty_queue : State.reset.popOut.1 = 0x80000000 := by decide

/-- A placed word is decoded and run by the next step: 0x00010112 is FT_SET 257, out of range. -/
theorem test_step_runs_a_placed_word :
    (stepped (State.reset.withFetchWord 32 0x00010112)).bind errorOf = some (2, 1, 257) := by decide

/-- 30_encoding.md R99: `push b` is one IN_PUSH write. -/
theorem test_push_with_room :
    (stepped { State.reset with script := [pushByte 0x41] }).map (fun t => (t.inQ, t.script)) =
      some ([.byte 0x41], []) := by decide

/-- 70_reset_and_hazards.md R294: the host pushes to no full IN; the engine gets a turn before the next try. -/
theorem test_push_waits_for_room :
    step { fullIn State.reset with script := [pushEnd] } =
      .next { fullIn State.reset with script := [.engine, pushEnd] } := by
  simp [step, takeTurn, pushTurn, pushEnd, fullIn]

/-- R99: `wait` reads STATUS until BUSY = 0. -/
theorem test_wait_polls_while_busy :
    (stepped (running .nop 0 .start { State.reset with script := [.poll] })).map (fun t => (t.reads, t.script)) =
      some ([(0x0C, 1)], [.engine, .poll]) ∧
    (stepped { State.reset with script := [.poll] }).map (fun t => (t.reads, t.script)) = some ([(0x0C, 0)], []) := by
  decide

/-- 30_encoding.md R100: engine steps between the pushes, and a pop before the next command, keep the expansion. -/
theorem test_engine_steps_and_pops_between_pushes :
    Interleaves (adaptiveCompress [7])
      [writeTo 0 0x70, .engine, pushByte 7, .engine, popItem, pushEnd, .engine, .poll, popItem] := by
  unfold Interleaves
  decide

/-- 20_memory.md R65. -/
theorem test_in_level : State.reset.inQ.length = 0 ∧ levelWord 3 = 3 := by decide

/-! ## Witnesses: each statement's hypotheses hold somewhere, clause by clause -/

/-- The hypotheses of DecodeAndEncodeAgree, at both ends of the fields. -/
theorem witness_decode_and_encode :
    (Instr.ctGetcode 511 7).WellFormed ∧ (Instr.ctGetcode 0 0).WellFormed ∧
    decode 0x000FFF21 = .ok (.ctGetcode 511 7) ∧ decode 0x00000021 = .ok (.ctGetcode 0 0) := by decide

/-- FirstSegmentDecodeOrder: an opcode of no row, a row's opcode with a reserved bit, and a word of a row. -/
theorem witness_first_segment :
    (running .nop 0 .start).seq = .running 0 0 .start ∧ (∀ r ∈ opTable, r.op ≠ opOf 0x800000FF) ∧
    (∃ r ∈ opTable, r.op = opOf 0x00000114 ∧ 0x00000114 &&& r.mask ≠ r.bits) ∧
    (∃ r ∈ opTable, r.op = opOf 0x0001FF11 ∧ 0x0001FF11 &&& r.mask = r.bits) := by decide

/-- StepRunsTheDecodedCommand: an empty script, the engine's turn, a host turn, a poll, a push to an IN with room and to a
full one. -/
theorem witness_step_runs :
    (running .ftBuild 0 .start).seq = .running 0x14 0 .start ∧ decode 0x14 = .ok .ftBuild ∧
    (running .ftBuild 0 .start).script = [] ∧
    (running .ftBuild 0 .start { State.reset with script := [.engine] }).script = .engine :: [] ∧
    State.script { State.reset with script := [writeTo 0x04 5] } = .host (.write 0x04 4 5) :: [] ∧
    State.script { State.reset with script := [.poll] } = .poll :: [] ∧
    State.script { State.reset with script := [pushEnd] } = .push 0x100 :: [] ∧
    State.reset.inQ.length < Config.inDepth ∧ Config.inDepth ≤ (fullIn State.reset).inQ.length :=
  ⟨rfl, by decide, rfl, rfl, rfl, rfl, rfl, by decide, by simp [fullIn]⟩

/-- DisabledEngineHasNoStep: IDLE, at a PopIn of an empty IN, at a PushOut of a full OUT. -/
theorem witness_disabled_engine :
    (SeqLegal State.reset ∧ State.reset.engineEnabled = false) ∧
    (SeqLegal (running .inSkip 0 (.popIn .drain)) ∧ (running .inSkip 0 (.popIn .drain)).engineEnabled = false) ∧
    (SeqLegal (running .boWrite 0 (.pushOut .endItem .bit) (fullOut State.reset)) ∧
      (running .boWrite 0 (.pushOut .endItem .bit) (fullOut State.reset)).engineEnabled = false) := by
  refine ⟨⟨trivial, rfl⟩, ⟨.inr ⟨.inSkip, by decide, rfl, by decide⟩, rfl⟩,
    ⟨.inr ⟨.boWrite, by decide, rfl, by decide⟩, ?_⟩⟩
  simp [State.engineEnabled, State.waitOut, State.pos, running, fullOut]

/-- FtFillSetsInRangeEntries: the largest, the least and a negative argument. -/
theorem witness_ft_fill :
    (running .ftFill 0 .start).seq = .running 0x10 0 .start ∧ 0 ≤ (0 : Word).toInt ∧
    (running .ftFill 0x7FFFFFFF .start).seq = .running 0x10 0x7FFFFFFF .start ∧ 0 ≤ (0x7FFFFFFF : Word).toInt ∧
    (running .ftFill 0x80000000 .start).seq = .running 0x10 0x80000000 .start ∧
    (0x80000000 : Word).toInt < 0 := by decide

/-- TableReadsReturnTheEntry: the last symbol in range and the first out of range. -/
theorem witness_table_reads :
    (running (.ftGet 2) 0 .start lim3).seq = .running 0x211 0 .start ∧ 2 < (running (.ftGet 2) 0 .start lim3).limit ∧
    (running (.ftGet 3) 0 .start lim3).seq = .running 0x311 0 .start ∧
    (running (.ftGet 3) 0 .start lim3).limit ≤ 3 := by decide

/-- FtSetWritesTheFrequency and ClSetWritesTheLength: in range with the extreme arguments, and out of range. -/
theorem witness_table_writes :
    LimitLegal (running (.ftSet 2) 0x7FFFFFFF .start lim3) ∧
    (running (.ftSet 2) 0x7FFFFFFF .start lim3).seq = .running 0x212 0x7FFFFFFF .start ∧
    2 < (running (.ftSet 2) 0x7FFFFFFF .start lim3).limit ∧ 0 ≤ (0x7FFFFFFF : Word).toInt ∧
    (running (.ftSet 2) 0x7FFFFFFF .start lim3).limit ≤ 3 ∧ (0x80000000 : Word).toInt < 0 ∧
    LimitLegal (running (.clSet 256) 0x80000000 .start) ∧
    (running (.clSet 256) 0x80000000 .start).seq = .running 0x10031 0x80000000 .start ∧
    256 < (running (.clSet 256) 0x80000000 .start).limit :=
  ⟨by unfold LimitLegal; decide, rfl, by decide, by decide, by decide, by decide, by unfold LimitLegal; decide, rfl,
    by decide⟩

/-- FtIncAddsOne: one below the largest frequency, the largest, and out of range. -/
theorem witness_ft_inc :
    LimitLegal (running (.ftInc 0) 0 .start (State.reset.setFreq 0 0xFFFFFFFE)) ∧
    (running (.ftInc 0) 0 .start (State.reset.setFreq 0 0xFFFFFFFE)).freq 0 ≠ 0xFFFFFFFF ∧
    (running (.ftInc 0) 0 .start (State.reset.setFreq 0 0xFFFFFFFF)).freq 0 = 0xFFFFFFFF ∧
    0 < (running (.ftInc 0) 0 .start (State.reset.setFreq 0 0xFFFFFFFF)).limit ∧
    (running (.ftInc 257) 0 .start).limit ≤ 257 :=
  ⟨by unfold LimitLegal; decide, by decide, by decide, by decide, by decide⟩

/-- FtBuildInstallsALegalTree: the least SYMLIM. -/
theorem witness_ft_build :
    LimitLegal (running .ftBuild 0 .start { State.reset with symLim := 2 }) ∧
    (running .ftBuild 0 .start { State.reset with symLim := 2 }).seq = .running 0x14 0 .start :=
  ⟨by unfold LimitLegal; decide, rfl⟩

/-- BuildGivesLeavesToPositiveSymbols: one positive symbol beside a padding leaf, a table all positive, and one all zero
(40_freq_table.md R116: two leaves, symbol 2 has none). -/
theorem witness_build :
    buildTree (freqs3 5 0 0).ft 3 = some (.node (.leaf 1) (.leaf 0)) ∧ tableGet (freqs3 5 0 0).ft 0 0 ≠ 0 ∧
    1 ∈ (CodeTree.node (.leaf 1) (.leaf 0)).symbols ∧ tableGet (freqs3 5 0 0).ft 1 0 = 0 ∧
    buildTree (freqs3 1 1 1).ft 3 = some (.node (.leaf 2) (.node (.leaf 0) (.leaf 1))) ∧
    (∀ sym, sym < 3 → tableGet (freqs3 1 1 1).ft sym 0 ≠ 0) ∧
    buildTree lim3.ft 3 = some pair ∧ 2 ≤ 3 := by decide +kernel

/-- ExtractMinTakesTheLeast: equal weights, the two extractions of a merge, and the tree they give. -/
theorem witness_extract_min :
    extractMin [⟨1, 1, .leaf 1⟩, ⟨1, 0, .leaf 0⟩] = some (⟨1, 0, .leaf 0⟩, [⟨1, 1, .leaf 1⟩]) ∧
    extractMin [⟨1, 1, .leaf 1⟩] = some (⟨1, 1, .leaf 1⟩, []) ∧
    mergeAll 2 [⟨1, 1, .leaf 1⟩, ⟨1, 0, .leaf 0⟩] = some pair := by decide

/-- CtGetlenReadsTheCodeLength and CtGetcodeReadsTheCodeBits: no tree, out of range, no code, the last symbol. -/
theorem witness_code_reads :
    (running (.ctGetlen 2) 0 .start lim3).seq = .running 0x220 0 .start ∧
    (running (.ctGetlen 2) 0 .start lim3).tree = none ∧
    (running (.ctGetcode 2 7) 0 .start { lim3 with tree := some tri }).seq = .running 0x000E0221 0 .start ∧
    (running (.ctGetcode 2 7) 0 .start { lim3 with tree := some tri }).tree = some tri ∧
    (running (.ctGetcode 2 7) 0 .start { lim3 with tree := some tri }).limit ≤ 3 ∧
    2 < (running (.ctGetcode 2 7) 0 .start { lim3 with tree := some tri }).limit ∧
    pair.code 2 = none ∧ tri.code 2 = some [true, true] := by decide

/-- CodesArePrefixFree: a code is a prefix of itself. -/
theorem witness_prefix_free : tri.code 2 = some [true, true] ∧ [true, true] <+: [true, true] := by decide

/-- CodesAreComplete and CodeLengthsAreBounded: a tree without repeated symbols, whose longest code has SYMLIM - 1 bits. -/
theorem witness_legal_tree : tri.symbols.Nodup ∧ tri.Legal 3 ∧ tri.code 2 = some [true, true] :=
  ⟨by decide, ⟨⟨_, _, rfl⟩, by decide, by decide⟩, by decide⟩

theorem deeper_levels_empty {L : List Nat} {d : Nat} (h : ∀ l ∈ L, l ≤ d) (e : Nat) (he : d < e) :
    ∃ k : Nat, levelSum L e = 2 * k := ⟨0, by simp [levelSum_eq_zero fun l hl => Nat.lt_of_le_of_lt (h l hl) he]⟩

/-- CcCheckAcceptsCompleteCodes: a complete code; an odd level 3; no length at all; two nodes at the root. -/
theorem witness_cc_check :
    (running .ccCheck 0 .start { lens3 1 1 0 with symLim := 2 }).seq = .running 0x32 0 .start ∧
    (∃ l ∈ (running .ccCheck 0 .start { lens3 1 1 0 with symLim := 2 }).lengthList, 0 < l) ∧
    kraftSum (running .ccCheck 0 .start { lens3 1 1 0 with symLim := 2 }).lengthList = 1 ∧
    CheckFails (running .ccCheck 0 .start (lens3 1 2 3)).lengthList 4 3 ∧
    CheckFails (running .ccCheck 0 .start lim3).lengthList 5 0 ∧ CheckFails [1, 1, 1, 1] 6 2 := by
  have h : (running .ccCheck 0 .start { lens3 1 1 0 with symLim := 2 }).lengthList = [1, 1] := by decide
  have g : (running .ccCheck 0 .start lim3).lengthList = [0, 0, 0] := by decide
  have k : (running .ccCheck 0 .start (lens3 1 2 3)).lengthList = [1, 2, 3] := by decide
  rw [h, g, k]
  refine ⟨rfl, by decide, by norm_num [kraftSum],
    .inl ⟨rfl, 3, 1, ⟨by decide, by norm_num [levelSum], rfl, deeper_levels_empty (by decide)⟩, rfl⟩,
    .inr (.inl ⟨rfl, by decide, rfl⟩),
    .inr (.inr ⟨rfl, 2, by decide, ⟨by norm_num [levelSum], fun e he => ?_⟩, rfl⟩)⟩
  rcases Nat.lt_or_ge 1 e with h1 | h1
  · exact deeper_levels_empty (by decide) e h1
  · obtain rfl : e = 1 := by omega
    exact ⟨2, by norm_num [levelSum]⟩

/-- CcFromTreeWritesDepths: without and with a tree. -/
theorem witness_cc_from_tree :
    LimitLegal (running .ccFromTree 0 .start lim3) ∧ TreeLegal (running .ccFromTree 0 .start lim3) ∧
    (running .ccFromTree 0 .start lim3).tree = none ∧
    LimitLegal (running .ccFromTree 0 .start { lim3 with tree := some tri }) ∧
    TreeLegal (running .ccFromTree 0 .start { lim3 with tree := some tri }) ∧
    (running .ccFromTree 0 .start { lim3 with tree := some tri }).tree = some tri := by
  refine ⟨by unfold LimitLegal; decide, fun t h => (by cases h), rfl, by unfold LimitLegal; decide, fun t h => ?_, rfl⟩
  cases h
  exact ⟨⟨_, _, rfl⟩, by decide, by decide⟩

/-- CcToTreeInstallsTheLengths: lengths that make a tree; lengths that make none, with 3 nodes at depth 1 and with no
node at the root (42_canonical_code.md R159). -/
theorem witness_cc_to_tree :
    LimitLegal (running .ccToTree 0 .start (lens3 1 2 2)) ∧
    (running .ccToTree 0 .start (lens3 1 2 2)).seq = .running 0x34 0 .start ∧
    toTree (running .ccToTree 0 .start (lens3 1 2 2)).lengthList = .ok tri ∧
    toTree (running .ccToTree 0 .start (lens3 1 1 1)).lengthList = .error 3 ∧
    BadLengths (running .ccToTree 0 .start (lens3 1 1 1)).lengthList 3 ∧
    BadLengths (running .ccToTree 0 .start lim3).lengthList 0 := by
  have h : (running .ccToTree 0 .start (lens3 1 1 1)).lengthList = [1, 1, 1] := by decide
  have g : (running .ccToTree 0 .start lim3).lengthList = [0, 0, 0] := by decide
  rw [h, g]
  exact ⟨by unfold LimitLegal; decide, rfl, by decide +kernel, by decide +kernel,
    .inl ⟨1, by decide, by norm_num [levelSum], rfl, deeper_levels_empty (by decide)⟩,
    .inr ⟨by decide, by norm_num [levelSum], deeper_levels_empty (by decide)⟩⟩

/-- EncSymPutsTheCodeBits: seven bits after the code, at its start; an empty rest after the push. -/
theorem witness_enc_sym :
    (running (.encSym 2) 0 .start { lim3 with tree := some tri, boNbits := 5 }).tree = some tri ∧
    2 < (running (.encSym 2) 0 .start { lim3 with tree := some tri, boNbits := 5 }).limit ∧
    tri.code 2 = some [true, true] ∧
    (running (.encSym 2) 0 .start { lim3 with tree := some tri, boNbits := 5 }).boNbits.val + [true, true].length < 8 ∧
    (running (.encSym 2) 0 (.pushOut (.byte 1) (.code 2 []))).seq =
      .running 0x240 0 (.pushOut (.byte 1) (.code 2 [])) ∧
    (running (.encSym 2) 0 (.pushOut (.byte 1) (.code 2 []))).outQ.length < Config.outDepth ∧
    (running (.encSym 2) 0 (.pushOut (.byte 1) (.code 2 []))).boNbits.val + ([] : List Bool).length < 8 := by decide

/-- EncSymParksAtAFullByte: the code ends exactly at the byte, at its start; a rest of nine bits after a push. -/
theorem witness_enc_sym_parks :
    (running (.encSym 2) 0 .start { lim3 with tree := some tri, boNbits := 6 }).seq = .running 0x240 0 .start ∧
    (running (.encSym 2) 0 .start { lim3 with tree := some tri, boNbits := 6 }).tree = some tri ∧
    2 < (running (.encSym 2) 0 .start { lim3 with tree := some tri, boNbits := 6 }).limit ∧
    tri.code 2 = some [true, true] ∧
    8 ≤ (running (.encSym 2) 0 .start { lim3 with tree := some tri, boNbits := 6 }).boNbits.val +
      [true, true].length ∧
    (running (.encSym 2) 0 (.pushOut (.byte 1) (.code 2 (List.replicate 9 true)))).seq =
      .running 0x240 0 (.pushOut (.byte 1) (.code 2 (List.replicate 9 true))) ∧
    (running (.encSym 2) 0 (.pushOut (.byte 1) (.code 2 (List.replicate 9 true)))).outQ.length < Config.outDepth ∧
    8 ≤ (running (.encSym 2) 0 (.pushOut (.byte 1) (.code 2 (List.replicate 9 true)))).boNbits.val +
      (List.replicate 9 true).length := by decide

/-- DecSymReadsACode: all the unread bits; one unread bit that ends inside the tree; the first bits of a popped byte; a
popped byte that ends inside the tree. -/
theorem witness_dec_sym :
    (running .decSym 0 .start { lim3 with tree := some tri, biByte := 3, biNrem := 2 }).tree = some tri ∧
    tri.code 2 = some [true, true] ∧
    (running .decSym 0 .start { lim3 with tree := some tri, biByte := 3, biNrem := 2 }).biEof = false ∧
    [true, true] <+: (running .decSym 0 .start { lim3 with tree := some tri, biByte := 3, biNrem := 2 }).unreadBits ∧
    tri.follow (running .decSym 0 .start { lim3 with tree := some tri, biByte := 3, biNrem := 1 }).unreadBits =
      some (.node (.leaf 1) (.leaf 2)) ∧
    (running .decSym 0 (.popIn (.walk (.leaf 0) (.leaf 1))) { lim3 with inQ := [.byte 0x80] }).inQ = .byte 0x80 :: [] ∧
    (CodeTree.node (.leaf 0) (.leaf 1)).code 1 = some [true] ∧
    (running .decSym 0 (.popIn (.walk (.leaf 0) (.leaf 1))) { lim3 with inQ := [.byte 0x80] }).biEof = false ∧
    [true] <+: byteBits 0x80 ∧
    (CodeTree.node (.leaf 9) (comb 7)).follow (byteBits 0xFF) = some (.node (.leaf 0) (.leaf 1)) := by decide

/-- CodecCommandsWaitOrFail: no tree; out of range and without a code; at the end, waiting for a byte; END popped. -/
theorem witness_codec_fails :
    (running .decSym 0 .start).tree = none ∧
    (running (.encSym 3) 0 .start { lim3 with tree := some pair }).limit ≤ 3 ∧
    2 < (running (.encSym 2) 0 .start { lim3 with tree := some pair }).limit ∧ pair.code 2 = none ∧
    (running .decSym 0 .start { lim3 with tree := some pair, biEof := true }).biEof = true ∧
    (running .decSym 0 .start { lim3 with tree := some pair }).tree = some (.node (.leaf 0) (.leaf 1)) ∧
    (running .decSym 0 .start { lim3 with tree := some pair }).biEof = false ∧
    (running .decSym 0 .start { lim3 with tree := some pair }).biNrem = 0 ∧
    (running .decSym 0 (.popIn (.walk (.leaf 0) (.leaf 1))) { lim3 with inQ := [.endItem] }).inQ = .endItem :: [] := by
  decide

/-- BoWritePutsOneBit: six and seven pending bits, an argument that is no bit, OUT with room. -/
theorem witness_bo_write :
    (running .boWrite 1 .start { State.reset with boNbits := 6 }).seq = .running 0x50 1 .start ∧
    (1 : Word) = (BitVec.ofBool true).setWidth 32 ∧
    (running .boWrite 1 .start { State.reset with boNbits := 6 }).boNbits.val < 7 ∧
    (running .boWrite 1 .start { State.reset with boNbits := 7 }).boNbits = 7 ∧
    (2 : Word) ≠ 0 ∧ (2 : Word) ≠ 1 ∧
    (running .boWrite 1 (.pushOut (.byte 1) .bit)).seq = .running 0x50 1 (.pushOut (.byte 1) .bit) ∧
    (running .boWrite 1 (.pushOut (.byte 1) .bit)).outQ.length < Config.outDepth := by decide

/-- BoClosePadsAndEnds: an empty cursor, a cursor with one bit, and OUT with room at both pushes. -/
theorem witness_bo_close :
    (running .boClose 0 .start).seq = .running 0x51 0 .start ∧ (running .boClose 0 .start).boNbits = 0 ∧
    (running .boClose 0 .start { State.reset with boNbits := 1 }).boNbits ≠ 0 ∧
    (running .boClose 0 (.pushOut (.byte 1) .pad)).seq = .running 0x51 0 (.pushOut (.byte 1) .pad) ∧
    (running .boClose 0 (.pushOut (.byte 1) .pad)).outQ.length < Config.outDepth ∧
    (running .boClose 0 (.pushOut (.byte 1) .pad)).boNbits = 0 ∧
    (running .boClose 0 (.pushOut .endItem .close)).seq = .running 0x51 0 (.pushOut .endItem .close) ∧
    (running .boClose 0 (.pushOut .endItem .close)).outQ.length < Config.outDepth := by decide

/-- BiReadGivesTheNextBit: one unread bit, none, a byte and END popped, the end already met. -/
theorem witness_bi_read :
    (running .biRead 0 .start { State.reset with biByte := 1, biNrem := 1 }).biEof = false ∧
    (running .biRead 0 .start { State.reset with biByte := 1, biNrem := 1 }).unreadBits = true :: [] ∧
    (running .biRead 0 .start).biNrem = 0 ∧
    (running .biRead 0 (.popIn .bit) { State.reset with inQ := [.byte 1] }).inQ = .byte 1 :: [] ∧
    (running .biRead 0 (.popIn .bit) { State.reset with inQ := [.byte 1] }).seq = .running 0x52 0 (.popIn .bit) ∧
    (running .biRead 0 .start { State.reset with biEof := true }).biEof = true ∧
    (running .biRead 0 (.popIn .bit) { State.reset with inQ := [.endItem] }).inQ = .endItem :: [] := by decide

/-- InSkipDiscardsTheSession and ScScanCountsTheSession: an empty session and one of a byte. -/
theorem witness_sessions :
    (running .inSkip 0 .start { State.reset with inQ := [.endItem] }).seq = .running 0x55 0 .start ∧
    (running .inSkip 0 .start { State.reset with inQ := [.endItem] }).script = [] ∧
    (running .inSkip 0 .start { State.reset with inQ := [.endItem] }).inQ = ([] : List Byte).map .byte ++ .endItem :: [] ∧
    (running .inSkip 0 (.popIn .drain) { State.reset with inQ := [.endItem] }).seq = .running 0x55 0 (.popIn .drain) ∧
    (running .inSkip 0 (.popIn .drain) { State.reset with inQ := [.endItem] }).inQ = .endItem :: [] ∧
    (running .inSkip 0 (.popIn .drain) { State.reset with inQ := [.byte 1] }).inQ = .byte 1 :: [] ∧
    (running .scScan 0 .start { State.reset with inQ := [.byte 5, .endItem] }).seq = .running 0x60 0 .start ∧
    (running .scScan 0 .start { State.reset with inQ := [.byte 5, .endItem] }).limit = 257 ∧
    (running .scScan 0 .start { State.reset with inQ := [.byte 5, .endItem] }).inQ = [(5 : Byte)].map .byte ++ .endItem :: [] ∧
    [(5 : Byte)].length < 2 ^ 32 := by decide

/-- ScScanSegments: both limits at the start; a byte with room and at the largest frequency; END. -/
theorem witness_sc_scan :
    (running .scScan 0 .start).limit = 257 ∧ (running .scScan 0 .start lim3).limit ≠ 257 ∧
    (running .scScan 0 (.popIn .item) { State.reset with inQ := [.byte 255] }).inQ = .byte 255 :: [] ∧
    (running .scScan 0 (.popIn .item) { State.reset with inQ := [.byte 255] }).freq (255 : Byte).toNat ≠ 0xFFFFFFFF ∧
    (running .scScan 0 (.popIn .item) { State.reset.setFreq 255 0xFFFFFFFF with inQ := [.byte 255] }).freq
      (255 : Byte).toNat = 0xFFFFFFFF ∧
    (running .scScan 0 (.popIn .item) { State.reset with inQ := [.endItem] }).inQ = .endItem :: [] := by decide

/-- ScHeaderBuildsTheCanonicalCode and ScHeaderPushesEachLength: the start, with both limits; the last two entries, in and out of the
header's range; the completion. -/
theorem witness_sc_header :
    (running .scHeader 0 .start).limit = 257 ∧ (running .scHeader 0 .start lim3).limit ≠ 257 ∧
    (running .scHeader 0 .start).seq = .running 0x61 0 .start ∧
    (running .scHeader 0 (.pushOut (.byte 0) (.header 1 []))).boNbits = 0 ∧
    (running .scHeader 0 (.pushOut (.byte 0) (.header 1 []))).outQ.length < Config.outDepth ∧
    (running .scHeader 0 (.pushOut (.byte 0) (.header 256 []))).seq =
      .running 0x61 0 (.pushOut (.byte 0) (.header (255 + 1) [])) ∧
    ((running .scHeader 0 (.pushOut (.byte 0) (.header 1 []))).len (256 - 0)).toNat < 256 ∧
    256 ≤ ((running .scHeader 0 (.pushOut (.byte 0) (.header 1 [])) (State.reset.setLen 256 256)).len (256 - 0)).toNat ∧
    (running .scHeader 0 (.pushOut (.byte 0) (.header 0 []))).seq =
      .running 0x61 0 (.pushOut (.byte 0) (.header 0 [])) := by decide

/-- ScEncodeSegments: both limits at the start; a byte and END taken; the codes of both, one with no code; the rest of
EOF_SYM's code after a push that reaches the byte's end; the last two pushes. -/
theorem witness_sc_encode :
    (running .scEncode 0 .start).limit = 257 ∧ (running .scEncode 0 .start lim3).limit ≠ 257 ∧
    (running .scEncode 0 (.popIn .item) { State.reset with tree := some pair, inQ := [.byte 1] }).inQ = .byte 1 :: [] ∧
    (running .scEncode 0 (.popIn .item) { State.reset with inQ := [.endItem] }).inQ = .endItem :: [] ∧
    pair.code (Item.byte 1).sym = some [true] ∧ pair.code (Item.byte 255).sym = none ∧
    (CodeTree.node (.leaf 0) (.leaf 256)).code Item.endItem.sym = some [true] ∧
    (running .scEncode 0 (.pushOut (.byte 1) (.code 256 (List.replicate 8 true)))).seq =
      .running 0x62 0 (.pushOut (.byte 1) (.code 256 (List.replicate 8 true))) ∧
    (running .scEncode 0 (.pushOut (.byte 1) .pad)).seq = .running 0x62 0 (.pushOut (.byte 1) .pad) ∧
    (running .scEncode 0 (.pushOut .endItem .close)).seq = .running 0x62 0 (.pushOut .endItem .close) ∧
    (running .scEncode 0 (.pushOut .endItem .close)).outQ.length < Config.outDepth := by decide

/-- SdDecodeReadsTheHeader: the start, with both limits; the first and the last entry but one; END at the first bit. -/
theorem witness_sd_header :
    (running .sdDecode 0 .start).seq = .running 0x63 0 .start ∧ (running .sdDecode 0 .start).limit = 257 ∧
    (running .sdDecode 0 .start lim3).limit ≠ 257 ∧
    255 < 256 ∧ (running .sdDecode 0 (.popIn (.header 2055 0)) { State.reset with inQ := [.byte 0] }).seq =
      .running 0x63 0 (.popIn (.header (8 * 255 + 15) 0)) ∧
    (running .sdDecode 0 (.popIn (.header 15 0)) { State.reset with inQ := [.byte 0] }).seq =
      .running 0x63 0 (.popIn (.header (8 * 0 + 15) 0)) ∧
    (running .sdDecode 0 (.popIn (.header 15 0)) { State.reset with inQ := [.byte 0] }).inQ = .byte 0 :: [] ∧
    (running .sdDecode 0 (.popIn (.header 15 0)) { State.reset with inQ := [.byte 0] }).biEof = false ∧
    (running .sdDecode 0 (.popIn (.header 2055 0)) { State.reset with inQ := [.endItem] }).inQ = .endItem :: [] := by
  decide

/-- The header of two symbols with one bit each, but for the last entry, which the byte popped gives. -/
def twoSymbolHeader (b : Byte) : State :=
  running .sdDecode 0 (.popIn (.header 7 0)) { State.reset.setLen 97 1 with inQ := [.byte b] }

/-- SdDecodeRebuildsAndFinishes: a last length that completes the code and one that does not; the symbols a walk meets,
and a byte that ends inside the tree; END in a walk; a pushed symbol; the drain; the last push. -/
theorem witness_sd_decode :
    (twoSymbolHeader 1).limit = 257 ∧ (twoSymbolHeader 1).inQ = .byte 1 :: [] ∧ (twoSymbolHeader 1).biEof = false ∧
    (after .sdDecode (twoSymbolHeader 1)).map (fun t => (checkLengths t.lengthList).isOk) = some true ∧
    (after .sdDecode (twoSymbolHeader 0)).map (fun t => (checkLengths t.lengthList).isOk) = some false ∧
    (running .sdDecode 0 (.popIn (.walk (.leaf 97) (.leaf 256))) { State.reset with inQ := [.byte 0] }).inQ =
      .byte 0 :: [] ∧
    (CodeTree.node (.leaf 97) (.leaf 256)).follow [true] = some (.leaf 256) ∧ [true] <+: byteBits 0x80 ∧
    (CodeTree.node (.leaf 97) (.leaf 256)).follow [false] = some (.leaf 97) ∧ [false] <+: byteBits 0 ∧
    (CodeTree.node (.leaf 9) (comb 7)).follow (byteBits 0xFF) = some (.node (.leaf 0) (.leaf 1)) ∧
    (running .sdDecode 0 (.popIn (.walk (.leaf 97) (.leaf 256))) { State.reset with inQ := [.endItem] }).inQ =
      .endItem :: [] ∧
    (running .sdDecode 0 (.pushOut (.byte 97) (.data 97))).seq = .running 0x63 0 (.pushOut (.byte 97) (.data 97)) ∧
    (running .sdDecode 0 (.popIn .drain) { State.reset with inQ := [.byte 1] }).inQ = .byte 1 :: [] ∧
    (running .sdDecode 0 (.popIn .drain) { State.reset with inQ := [.endItem] }).inQ = .endItem :: [] ∧
    (running .sdDecode 0 (.pushOut .endItem .finish)).seq = .running 0x63 0 (.pushOut .endItem .finish) ∧
    (running .sdDecode 0 (.pushOut .endItem .finish)).outQ.length < Config.outDepth := by decide +kernel

/-- CheckpointRebuildsThenFlattens: the last power of two, a count between, and both sides of a new epoch. -/
theorem witness_checkpoint :
    ((BitVec.ofNat 64 131072).toNat < 262144 ∧ ∃ k, (BitVec.ofNat 64 131072).toNat = 2 ^ k) ∧
    ((BitVec.ofNat 64 262144) ≠ 0 ∧ (BitVec.ofNat 64 262144).toNat % 262144 = 0) ∧
    ¬ (((BitVec.ofNat 64 262145).toNat < 262144 ∧ ∃ k, (BitVec.ofNat 64 262145).toNat = 2 ^ k) ∨
      ((BitVec.ofNat 64 262145) ≠ 0 ∧ (BitVec.ofNat 64 262145).toNat % 262144 = 0)) ∧
    rebuildsAt 131072 = true ∧ rebuildsAt 262143 = false :=
  ⟨⟨by decide, 17, by decide⟩, by decide, fun h => h.elim (fun h => absurd h.1 (by decide)) (fun h => absurd h.2 (by decide)),
    by decide, by decide⟩

/-- AcEncodeSegments: both limits at the start; a byte and END taken; a code pushed with CNT one below its limit and at
it, its rest short of the byte's end and reaching it; EOF_SYM; the last two pushes. -/
theorem witness_ac_encode :
    (running .acEncode 0 .start).limit = 257 ∧ (running .acEncode 0 .start).seq = .running 0x70 0 .start ∧
    (running .acEncode 0 .start lim3).limit ≠ 257 ∧
    (running .acEncode 0 (.popIn .item) { State.reset with inQ := [.byte 1] }).inQ = .byte 1 :: [] ∧
    (running .acEncode 0 (.popIn .item) { State.reset with inQ := [.endItem] }).inQ = .endItem :: [] ∧
    (running .acEncode 0 (.pushOut (.byte 0) (.code 255 [true])) { State.reset with boNbits := 6 }).outQ.length <
      Config.outDepth ∧
    (6 : Fin 8).val + [true].length < 8 ∧ 8 ≤ (7 : Fin 8).val + [true].length ∧ (256 : Nat) ≤ 256 ∧
    (running .acEncode 0 (.pushOut (.byte 0) (.code 255 [])) { State.reset with cnt := 0xFFFFFFFFFFFFFFFE }).cnt ≠
      0xFFFFFFFFFFFFFFFF ∧
    (running .acEncode 0 (.pushOut (.byte 0) (.code 255 [])) { State.reset with cnt := 0xFFFFFFFFFFFFFFFF }).cnt =
      0xFFFFFFFFFFFFFFFF ∧
    (running .acEncode 0 (.pushOut (.byte 0) (.code 256 [true]))).seq =
      .running 0x70 0 (.pushOut (.byte 0) (.code 256 [true])) ∧
    (running .acEncode 0 (.pushOut (.byte 0) .pad)).seq = .running 0x70 0 (.pushOut (.byte 0) .pad) ∧
    (running .acEncode 0 (.pushOut .endItem .close)).seq = .running 0x70 0 (.pushOut .endItem .close) := by decide

/-- AdDecodeSegments: both limits at the start; a byte and END in a walk; a pushed symbol at a count that rebuilds, with
unread bits, and at the largest count; the drain; the last push. -/
theorem witness_ad_decode :
    (running .adDecode 0 .start).limit = 257 ∧ (running .adDecode 0 .start).seq = .running 0x71 0 .start ∧
    (running .adDecode 0 .start lim3).limit ≠ 257 ∧
    (running .adDecode 0 (.popIn (.walk (.leaf 97) (.leaf 256))) { State.reset with inQ := [.byte 0x80] }).inQ =
      .byte 0x80 :: [] ∧
    (running .adDecode 0 (.popIn (.walk (.leaf 97) (.leaf 256))) { State.reset with inQ := [.byte 0x80] }).biEof =
      false ∧
    (running .adDecode 0 (.popIn (.walk (.leaf 97) (.leaf 256))) { State.reset with inQ := [.endItem] }).inQ =
      .endItem :: [] ∧
    (running .adDecode 0 (.pushOut (.byte 0) (.data 255)) { State.reset with cnt := 1, biNrem := 3 }).outQ.length <
      Config.outDepth ∧
    rebuildsAt ((1 : BitVec 64) + 1).toNat = true ∧ (1 : BitVec 64) ≠ 0xFFFFFFFFFFFFFFFF ∧ (255 : Nat) < 256 ∧
    (running .adDecode 0 (.pushOut (.byte 0) (.data 255)) { State.reset with cnt := 0xFFFFFFFFFFFFFFFF }).cnt =
      0xFFFFFFFFFFFFFFFF ∧
    (running .adDecode 0 (.popIn .drain) { State.reset with inQ := [.byte 1] }).inQ = .byte 1 :: [] ∧
    (running .adDecode 0 (.popIn .drain) { State.reset with inQ := [.endItem] }).inQ = .endItem :: [] ∧
    (running .adDecode 0 (.pushOut .endItem .finish)).outQ.length < Config.outDepth := by decide

/-- ClearingCommandsAndNop and SetSymlimClearsTheTables: a start; the arguments where the clauses meet. -/
theorem witness_control :
    (running .nop 0 .start).seq = .running 0 0 .start ∧ (running .setSymlim 257 .start).seq = .running 2 257 .start ∧
    (1 : Word).toNat < 2 ∧ 2 ≤ (2 : Word).toNat ∧ (257 : Word).toNat ≤ 257 ∧ 257 < (258 : Word).toNat := by decide

/-- ErrorsEndTheCommand, RegistersNoCommandWrites, TablesOnlyTheirCommandsWrite, ResultWrittenOnlyAtCompletion and
SegmentsKeepQueueOrder: segments that answer a next state, with a changed table, tree and result. -/
theorem witness_segments :
    (first (.ftSet 0) 1).isSome = true ∧ (first (.ftSet 0) 1).map (·.ft) ≠ some State.reset.ft ∧
    (first (.clSet 0) 1).map (·.cl) ≠ some State.reset.cl ∧
    (first .ctClear 0 { lim3 with tree := some pair }).map (·.tree) = some none ∧
    (first (.ftGet 0) 0 (State.reset.setFreq 0 1)).map (·.result) = some 1 := by decide +kernel

/-- CmdWriteAcceptance: BUSY, an error pending with another word and with the ERR_CLEAR word, and ready. -/
theorem witness_cmd_write :
    (running .nop 0 .start).busy = true ∧ State.reset.busy = false ∧
    State.err { State.reset with err := true } = true ∧ (0x101 : Word) ≠ 0x00000001 ∧ State.reset.err = false := by decide

/-- QueueRegisterAccesses: a full IN and one with room, END and a byte pushed; OUT empty, at END and at a byte. -/
theorem witness_queue_registers :
    (fullIn State.reset).inQ.length = Config.inDepth ∧ State.reset.inQ.length ≠ Config.inDepth ∧
    (0x1FF : Word).getLsbD 8 = true ∧ (0x241 : Word).getLsbD 8 = false ∧ State.reset.outQ = [] ∧
    State.outQ { State.reset with outQ := [.endItem] } = .endItem :: [] ∧
    State.outQ { State.reset with outQ := [.byte 7] } = .byte 7 :: [] :=
  ⟨by simp [fullIn], (Nat.succ_ne_zero _).symm, by decide, by decide, rfl, rfl, rfl⟩

/-- UndefinedAccessesHaveNoEffect: the last byte of the window, a halfword, and the register offsets. -/
theorem witness_undefined_accesses :
    63 < 64 ∧ 63 % 4 ≠ 0 ∧ (2 : Nat) ≠ 4 ∧
    (0x3C : Nat) ∈ [0x08, 0x0C, 0x10, 0x14, 0x18, 0x1C, 0x24, 0x28, 0x2C, 0x34, 0x38, 0x3C] ∧
    (0x00 : Nat) ∈ [0x00, 0x20, 0x30, 0x34, 0x38, 0x3C] := by decide

/-- ResetFromEveryState: CTRL values with bit 0 set and clear, and the reset input's turn. -/
theorem witness_reset :
    (0xFFFFFFFF : Word).getLsbD 0 = true ∧ (0xFFFFFFFE : Word).getLsbD 0 = false ∧
    State.script { State.reset with script := [.resetInput] } = .resetInput :: [] := by decide

/-- The invariants' hypotheses hold at a running state that has a next state. -/
theorem witness_invariants :
    Inv (running (.ftGet 0) 0 .start) ∧ (∃ t, step (running (.ftGet 0) 0 .start) = .next t) := by
  refine ⟨⟨by unfold LimitLegal; decide, .inl rfl, fun k hk => ?_, fun t h => (by cases h), by unfold CursorClean; decide,
    ⟨fun _ => by decide, fun h => (by cases h)⟩, Nat.zero_le _, Nat.zero_le _⟩, ⟨_, rfl⟩⟩
  have h : 257 ≤ k := hk
  exact ⟨State.freq_of_ge _ _ h, State.len_of_ge _ _ h⟩

/-- LegalStepsDoNotStop: the case of a host that leaves the window is met. -/
theorem witness_outside_the_window :
    step { State.reset with script := [.host (.read 64 4)] } = .fault .outsideWindow := rfl

end Sys2Proof.Tests
end

section
/-! SUPPORT. Build() and ToTree() give legal trees (10_state.md R27; 40_freq_table.md R111; 42_canonical_code.md
R153). -/

namespace Sys2Proof.Machine

/-! ## Build(): the leaves of the queue -/

/-- The symbols of the leaves of every entry of a queue. -/
def queueSymbols (q : List Entry) : List Nat := q.flatMap fun e => e.t.symbols

@[simp] theorem queueSymbols_nil : queueSymbols [] = [] := rfl

@[simp] theorem queueSymbols_cons (e : Entry) (q : List Entry) :
    queueSymbols (e :: q) = e.t.symbols ++ queueSymbols q := rfl

@[simp] theorem queueSymbols_append (p q : List Entry) : queueSymbols (p ++ q) = queueSymbols p ++ queueSymbols q :=
  List.flatMap_append

theorem extractMin_none {q : List Entry} (h : extractMin q = none) : q = [] := by
  cases q with
  | nil => rfl
  | cons e q =>
    unfold extractMin at h
    split at h
    · cases h
    · next m rest hq => cases hb : e.before m <;> simp [hb] at h

/-- ExtractMin(Q) takes one entry out and loses none. -/
theorem extractMin_perm {q rest : List Entry} {m : Entry} (h : extractMin q = some (m, rest)) : q.Perm (m :: rest) := by
  induction q generalizing m rest with
  | nil => cases h
  | cons e q ih =>
    unfold extractMin at h
    split at h
    · next hq =>
      obtain rfl := extractMin_none hq
      cases h
      exact .refl _
    · next m' rest' hq =>
      cases hb : e.before m' <;> simp only [hb, cond_true, cond_false] at h <;> cases h
      · exact ((ih hq).cons e).trans (.swap ..)
      · exact .refl _

theorem queueSymbols_extractMin {q rest : List Entry} {m : Entry} (h : extractMin q = some (m, rest)) :
    (queueSymbols q).Perm (m.t.symbols ++ queueSymbols rest) :=
  (extractMin_perm h).flatMap_right _

/-- Merging keeps the leaves, and the tree is internal unless the queue held it alone. -/
theorem mergeAll_some {fuel : Nat} {q : List Entry} {tr : CodeTree} (h : mergeAll fuel q = some tr) :
    tr.symbols.Perm (queueSymbols q) ∧ ((∃ l r, tr = .node l r) ∨ ∃ e, q = [e] ∧ e.t = tr) := by
  induction fuel generalizing q with
  | zero => cases h
  | succ fuel ih =>
    unfold mergeAll at h
    split at h
    · cases h
    · next x q1 hx =>
      have hs := queueSymbols_extractMin hx
      split at h
      · next hn =>
        obtain rfl := extractMin_none hn
        cases h
        exact ⟨by simpa using hs.symm, .inr ⟨x, List.perm_singleton.1 (extractMin_perm hx), rfl⟩⟩
      · next y q2 hy =>
        obtain ⟨hp, hroot⟩ := ih h
        refine ⟨hp.trans ?_, .inl ?_⟩
        · have := (queueSymbols_extractMin hy).append_left x.t.symbols
          simpa [Entry.merge, CodeTree.symbols] using (hs.trans this).symm
        · rcases hroot with hnode | ⟨e, he, rfl⟩
          · exact hnode
          · obtain ⟨rfl, -⟩ := List.cons.inj he
            exact ⟨_, _, rfl⟩

/-- Step 1 of Build() puts a leaf for each symbol with a frequency. -/
theorem buildLeaves_eq (cells : List (Nat × Word)) :
    buildLeaves cells =
      (cells.filter fun c => !decide (c.2 = 0)).map fun c => ⟨c.2.toNat, c.1, .leaf c.1⟩ := by
  unfold buildLeaves
  induction cells with
  | nil => rfl
  | cons c cells ih =>
    by_cases h : c.2 = 0
    · rw [List.filterMap_cons_none (by exact if_pos h), ih, List.filter_cons_of_neg (by simpa using h)]
    · rw [List.filterMap_cons_some (by exact if_neg h), ih, List.filter_cons_of_pos (by simpa using h), List.map_cons]

theorem queueSymbols_buildLeaves (cells : List (Nat × Word)) :
    queueSymbols (buildLeaves cells) = (cells.filter fun c => !decide (c.2 = 0)).map Prod.fst := by
  rw [buildLeaves_eq, queueSymbols, List.flatMap_map]
  exact List.flatMap_pure_eq_map _ _

/-- Padding adds, for symbols of frequency 0 alone, one leaf at most each, and stops at no fewer than two entries while
there is such a symbol. -/
theorem padded (cells : List (Nat × Word)) (q : List Entry) :
    (∃ pad, queueSymbols (cells.foldl padEntry q) = queueSymbols q ++ pad ∧
      pad.Sublist ((cells.filter fun c => decide (c.2 = 0)).map Prod.fst)) ∧
    min 2 (q.length + (cells.filter fun c => decide (c.2 = 0)).length) ≤ (cells.foldl padEntry q).length := by
  induction cells generalizing q with
  | nil => exact ⟨⟨[], by simp, .slnil⟩, by simp⟩
  | cons c cells ih =>
    obtain ⟨⟨pad, hpad, hsub⟩, hlen⟩ := ih (padEntry q c)
    by_cases hc : c.2 = 0
    · rw [List.filter_cons_of_pos (by simpa using hc)]
      by_cases hq : 2 ≤ q.length
      · have hk : padEntry q c = q := by
          match q, hq with
          | _ :: _ :: _, _ => rfl
        rw [hk] at hpad hlen
        refine ⟨⟨pad, by rw [List.foldl_cons, hk, hpad], hsub.cons _⟩, ?_⟩
        rw [List.foldl_cons, hk]
        omega
      · have hk : padEntry q c = q ++ [⟨0, c.1, .leaf c.1⟩] := by
          match q, hq with
          | [], _ | [_], _ => simp [padEntry, hc]
          | _ :: _ :: _, h => simp at h
        rw [hk] at hpad hlen
        refine ⟨⟨c.1 :: pad, by rw [List.foldl_cons, hk, hpad]; simp [CodeTree.symbols], hsub.cons_cons _⟩, ?_⟩
        rw [List.foldl_cons, hk]
        simp only [List.length_append, List.length_cons, List.length_nil] at hlen ⊢
        omega
    · have hk : padEntry q c = q := by
        unfold padEntry
        split
        · rfl
        · rw [if_neg hc]
      rw [hk] at hpad hlen
      rw [List.filter_cons_of_neg (by simpa using hc), List.foldl_cons, hk]
      exact ⟨⟨pad, hpad, hsub⟩, hlen⟩

theorem length_freqCells (ft : Table Word) (lim : Nat) : (freqCells ft lim).length = min lim 257 := by
  simp [freqCells]

theorem freqCells_symbols (ft : Table Word) (lim : Nat) :
    ((freqCells ft lim).map Prod.fst).Nodup ∧ ∀ x ∈ (freqCells ft lim).map Prod.fst, x < lim := by
  unfold freqCells
  rw [List.zip_eq_zip_take_min, List.map_fst_zip (by simp)]
  exact ⟨List.nodup_range.sublist (List.take_sublist ..), fun x hx => List.mem_range.1 (List.mem_of_mem_take hx)⟩

/-- The queue Build() starts from holds leaves of distinct symbols in range. -/
theorem buildQueue_symbols (ft : Table Word) (lim : Nat) :
    (queueSymbols (buildQueue ft lim)).Nodup ∧ ∀ x ∈ queueSymbols (buildQueue ft lim), x < lim := by
  obtain ⟨⟨pad, hpad, hsub⟩, -⟩ := padded (freqCells ft lim) (buildLeaves (freqCells ft lim))
  obtain ⟨hnd, hlt⟩ := freqCells_symbols ft lim
  have hperm : (((freqCells ft lim).filter fun c => !decide (c.2 = 0)).map Prod.fst ++
      ((freqCells ft lim).filter fun c => decide (c.2 = 0)).map Prod.fst).Perm ((freqCells ft lim).map Prod.fst) := by
    rw [← List.map_append]
    exact (List.perm_append_comm.trans (List.filter_append_perm _ _)).map _
  have hq := (List.Sublist.refl (((freqCells ft lim).filter fun c => !decide (c.2 = 0)).map Prod.fst)).append hsub
  unfold buildQueue
  rw [hpad, queueSymbols_buildLeaves]
  exact ⟨(hperm.nodup_iff.2 hnd).sublist hq, fun x hx => hlt x (hperm.subset (hq.subset hx))⟩

/-- Over two symbols or more the queue Build() starts from has two entries or more. -/
theorem two_le_length_buildQueue (ft : Table Word) {lim : Nat} (h : 2 ≤ lim) : 2 ≤ (buildQueue ft lim).length := by
  obtain ⟨-, hlen⟩ := padded (freqCells ft lim) (buildLeaves (freqCells ft lim))
  have hsum := ((freqCells ft lim).filter_append_perm fun c => decide (c.2 = 0)).length_eq
  rw [List.length_append, length_freqCells] at hsum
  unfold buildQueue
  rw [buildLeaves_eq, List.length_map] at hlen
  rw [buildLeaves_eq]
  omega

/-- Build() over two symbols or more gives a legal tree. -/
theorem buildTree_legal {ft : Table Word} {lim : Nat} {tr : CodeTree} (h : 2 ≤ lim) (ht : buildTree ft lim = some tr) :
    tr.Legal lim := by
  obtain ⟨hp, hroot⟩ := mergeAll_some ht
  obtain ⟨hnd, hlt⟩ := buildQueue_symbols ft lim
  refine ⟨?_, hp.nodup_iff.2 hnd, fun x hx => hlt x (hp.subset hx)⟩
  rcases hroot with hnode | ⟨e, he, -⟩
  · exact hnode
  · have := two_le_length_buildQueue ft h
    simp [he] at this

/-! ## ToTree(): the leaves of a level -/

/-- The symbols of the leaves of a list of nodes. -/
def nodeSymbols (nodes : List CodeTree) : List Nat := nodes.flatMap CodeTree.symbols

theorem nodeSymbols_pairUp : (nodes : List CodeTree) → (nodeSymbols (pairUp nodes)).Sublist (nodeSymbols nodes)
  | [] => .slnil
  | [_] => List.nil_sublist _
  | a :: b :: rest => by
    have := (nodeSymbols_pairUp rest).append_left (a.symbols ++ b.symbols)
    simpa [nodeSymbols, pairUp, CodeTree.symbols] using this

theorem pairUp_internal : (nodes : List CodeTree) → ∀ t ∈ pairUp nodes, ∃ l r, t = .node l r
  | [], t, h | [_], t, h => by simp [pairUp] at h
  | a :: b :: rest, t, h => by
    rcases List.mem_cons.1 h with rfl | h
    · exact ⟨a, b, rfl⟩
    · exact pairUp_internal rest t h

/-- The leaves of depth `i` carry, once each, the symbols of length `i`. -/
theorem nodeSymbols_leavesAt (L : List Nat) (i : Nat) :
    (nodeSymbols (leavesAt L i)).Nodup ∧ ∀ x ∈ nodeSymbols (leavesAt L i), L[x]? = some i := by
  have hs : nodeSymbols (leavesAt L i) = (L.zipIdx.filter fun c => decide (c.1 = i)).map Prod.snd := by
    unfold leavesAt
    induction L.zipIdx with
    | nil => rfl
    | cons c l ih =>
      unfold nodeSymbols at ih ⊢
      by_cases h : c.1 = i <;> simp [h, ih, CodeTree.symbols]
  rw [hs]
  refine ⟨.sublist (List.filter_sublist.map _) ?_, fun x hx => ?_⟩
  · rw [List.zipIdx_map_snd]
    exact List.nodup_range'
  · obtain ⟨⟨d, y⟩, hc, rfl⟩ := List.mem_map.1 hx
    obtain ⟨hm, hd⟩ := List.mem_filter.1 hc
    obtain rfl : d = i := by simpa using hd
    exact List.mem_zipIdx_iff_getElem?.1 hm

/-- The nodes carried to a level above `i` carry distinct symbols, each of a length above `i`. -/
def CarriedFrom (L : List Nat) (i : Nat) (nodes : List CodeTree) : Prop :=
  (nodeSymbols nodes).Nodup ∧ ∀ x ∈ nodeSymbols nodes, ∃ d, L[x]? = some d ∧ i < d

theorem CarriedFrom.pairUp {L : List Nat} {i : Nat} {nodes : List CodeTree} (h : CarriedFrom L i nodes) :
    CarriedFrom L i (pairUp nodes) :=
  ⟨h.1.sublist (nodeSymbols_pairUp nodes), fun x hx => h.2 x ((nodeSymbols_pairUp nodes).subset hx)⟩

theorem CarriedFrom.addLeaves {L : List Nat} {i : Nat} {nodes : List CodeTree} (h : CarriedFrom L (i + 1) nodes) :
    CarriedFrom L i (leavesAt L (i + 1) ++ nodes) := by
  obtain ⟨hnd, hlen⟩ := h
  obtain ⟨hnd', hlen'⟩ := nodeSymbols_leavesAt L (i + 1)
  unfold CarriedFrom nodeSymbols
  rw [List.flatMap_append]
  refine ⟨hnd'.append hnd fun x hx hx' => ?_, fun x hx => ?_⟩
  · obtain ⟨d, hd, hi⟩ := hlen x hx'
    rw [hlen' x hx] at hd
    cases hd
    omega
  · rcases List.mem_append.1 hx with hx | hx
    · exact ⟨i + 1, hlen' x hx, by omega⟩
    · obtain ⟨d, hd, hi⟩ := hlen x hx
      exact ⟨d, hd, by omega⟩

/-- The nodes ToTree()'s loop ends with are internal and carry distinct symbols that have a length. -/
theorem treeLevels_ok {L : List Nat} {i : Nat} {nodes ts : List CodeTree} (h : treeLevels L i nodes = .ok ts)
    (hc : CarriedFrom L i nodes) : (∀ t ∈ ts, ∃ l r, t = .node l r) ∧ CarriedFrom L 0 ts := by
  induction i generalizing nodes with
  | zero =>
    unfold treeLevels at h
    split at h
    · cases h
    · cases h
      exact ⟨pairUp_internal nodes, hc.pairUp⟩
  | succ i ih =>
    unfold treeLevels at h
    split at h
    · cases h
    · exact ih h hc.pairUp.addLeaves

/-- ToTree() gives a legal tree. -/
theorem toTree_legal {L : List Nat} {tr : CodeTree} (h : toTree L = .ok tr) : tr.Legal L.length := by
  unfold toTree at h
  split at h
  · cases h
  · next ht =>
    cases h
    obtain ⟨hnode, hnd, hlen⟩ := treeLevels_ok ht ⟨List.nodup_nil, fun x hx => nomatch hx⟩
    refine ⟨hnode tr (List.mem_singleton_self _), by simpa [nodeSymbols] using hnd, fun x hx => ?_⟩
    obtain ⟨d, hd, -⟩ := hlen x (by simpa [nodeSymbols] using hx)
    exact (List.getElem?_eq_some_iff.1 hd).1
  · cases h

theorem CodeTree.Legal.mono {lim lim' : Nat} {tr : CodeTree} (h : tr.Legal lim) (hl : lim ≤ lim') : tr.Legal lim' :=
  ⟨h.1, h.2.1, fun x hx => (h.2.2 x hx).trans_le hl⟩

/-- ToTree() over CL gives a tree that is legal under SYMLIM. -/
theorem toTree_lengthList_legal {s : State} {tr : CodeTree} (h : toTree s.lengthList = .ok tr) : tr.Legal s.limit :=
  (toTree_legal h).mono (by simp [State.lengthList])

end Sys2Proof.Machine
end

section
/-! SUPPORT. What a segment of a command can do, said once: which pieces of the state its command may write and which
invariants it keeps on the way (`Moves`), and how it ends (`Segment`). Each shared operation has one rule (`Runs`); a
command's segment is put together from the rules, and the statements about every step are read off it. -/

namespace Sys2Proof.Machine

/-! ## The pieces of state a command may write -/

/-- A piece of the state that some commands write and others keep. Two of them are less than a register: `eof` is the
clearing of BI_EOF (its setting belongs to `bi`), `beyond` a nonzero table entry at or above SYMLIM. -/
inductive Piece where
  | symLim | ft | cl | tree | cnt | bo | bi | eof | error | inOvf | beyond
  deriving DecidableEq

/-- The pieces a command may write (10_state.md R22 to R36). The protocol commands write tables without regard to
SYMLIM, which is 257 while they run (60_exceptions.md R266). -/
def pieces : Instr → List Piece
  | .ftFill | .ftSet _ | .ftInc _ => [.ft]
  | .clSet _ | .ccFromTree => [.cl]
  | .ftBuild | .ctClear | .ccToTree => [.tree]
  | .encSym _ | .boWrite | .boClose | .scEncode => [.bo]
  | .decSym | .biRead | .biReadNoeof => [.bi]
  | .streamReset => [.bo, .bi, .eof]
  | .scScan => [.ft, .beyond]
  | .scHeader => [.ft, .cl, .tree, .bo, .beyond]
  | .sdDecode => [.cl, .tree, .bo, .bi, .eof, .beyond]
  | .acEncode => [.ft, .tree, .cnt, .bo, .beyond]
  | .adDecode => [.ft, .tree, .cnt, .bo, .bi, .eof, .beyond]
  | .errClear => [.error, .inOvf]
  | .setSymlim => [.symLim, .ft, .cl, .tree, .cnt]
  | .ftGet _ | .ctGetlen _ | .ctGetcode _ _ | .clGet _ | .ccCheck | .inSkip | .nop => []

/-- The command may write the piece. -/
def writes (i : Instr) (p : Piece) : Bool := (pieces i).contains p

/-- The commands that put a value in RESULT at completion (10_state.md R33). -/
def answers : Instr → Bool
  | .ftGet _ | .ctGetlen _ | .ctGetcode _ _ | .clGet _ | .decSym | .biRead | .biReadNoeof => true
  | .ftFill | .ftSet _ | .ftInc _ | .ftBuild | .ctClear | .clSet _ | .ccCheck | .ccFromTree | .ccToTree | .encSym _
  | .boWrite | .boClose | .streamReset | .inSkip | .scScan | .scHeader | .scEncode | .sdDecode | .acEncode | .adDecode
  | .nop | .errClear | .setSymlim => false

/-! ## Moves -/

/-- From `s`, where its segment starts, a command that may write the pieces `W` has come to `u`: the host's side, the
sequencer and RESULT are as they were, the other pieces are kept, and so are the invariants of the queues, of the output
cursor, of SYMLIM, of the tables' range and of the active tree. -/
structure Moves (W : Piece → Bool) (s u : State) : Prop where
  host : u.arg = s.arg ∧ u.curOp = s.curOp ∧ u.script = s.script ∧ u.reads = s.reads ∧ u.draws = s.draws
  seq : u.seq = s.seq
  result : u.result = s.result
  symLim : W .symLim = false → u.symLim = s.symLim
  ft : W .ft = false → u.ft = s.ft
  cl : W .cl = false → u.cl = s.cl
  tree : W .tree = false → u.tree = s.tree
  cnt : W .cnt = false → u.cnt = s.cnt
  bo : W .bo = false → u.boBuf = s.boBuf ∧ u.boNbits = s.boNbits
  bi : W .bi = false → u.biByte = s.biByte ∧ u.biNrem = s.biNrem ∧ u.biEof = s.biEof
  eof : W .eof = false → s.biEof = true → u.biEof = true
  error : W .error = false →
    u.err = s.err ∧ u.errCode = s.errCode ∧ u.errDetail = s.errDetail ∧ u.errInfo = s.errInfo
  inOvf : W .inOvf = false → u.inOvf = s.inOvf
  queuesFit : QueuesFit s → QueuesFit u
  cursorClean : CursorClean s → CursorClean u
  limitLegal : LimitLegal s → LimitLegal u
  tablesClear : W .beyond = false → LimitLegal s → TablesClear s → TablesClear u
  treeLegal : LimitLegal s → TreeLegal s → TreeLegal u

variable {W : Piece → Bool} {s u v : State}

theorem Moves.refl : Moves W s s where
  host := ⟨rfl, rfl, rfl, rfl, rfl⟩
  seq := rfl
  result := rfl
  symLim _ := rfl
  ft _ := rfl
  cl _ := rfl
  tree _ := rfl
  cnt _ := rfl
  bo _ := ⟨rfl, rfl⟩
  bi _ := ⟨rfl, rfl, rfl⟩
  eof _ := id
  error _ := ⟨rfl, rfl, rfl, rfl⟩
  inOvf _ := rfl
  queuesFit := id
  cursorClean := id
  limitLegal := id
  tablesClear _ _ := id
  treeLegal _ := id

theorem Moves.trans (h : Moves W s u) (g : Moves W u v) : Moves W s v where
  host := by simp only [g.host, h.host, and_self]
  seq := g.seq.trans h.seq
  result := g.result.trans h.result
  symLim hw := (g.symLim hw).trans (h.symLim hw)
  ft hw := (g.ft hw).trans (h.ft hw)
  cl hw := (g.cl hw).trans (h.cl hw)
  tree hw := (g.tree hw).trans (h.tree hw)
  cnt hw := (g.cnt hw).trans (h.cnt hw)
  bo hw := by simp only [g.bo hw, h.bo hw, and_self]
  bi hw := by simp only [g.bi hw, h.bi hw, and_self]
  eof hw he := g.eof hw (h.eof hw he)
  error hw := by simp only [g.error hw, h.error hw, and_self]
  inOvf hw := (g.inOvf hw).trans (h.inOvf hw)
  queuesFit hq := g.queuesFit (h.queuesFit hq)
  cursorClean hc := g.cursorClean (h.cursorClean hc)
  limitLegal hl := g.limitLegal (h.limitLegal hl)
  tablesClear hw hl ht := g.tablesClear hw (h.limitLegal hl) (h.tablesClear hw hl ht)
  treeLegal hl ht := g.treeLegal (h.limitLegal hl) (h.treeLegal hl ht)

/-- No Boolean is both: a piece the command may write is not one it keeps. -/
theorem not_both {b : Bool} {α : Prop} (ht : b = true) (hf : b = false) : α := Bool.noConfusion (ht.symm.trans hf)

/-! ## What each operation moves -/

theorem Moves.popped {it : Item} {rest : List Item} (hq : s.inQ = it :: rest) :
    Moves W s { s with inQ := rest } where
  __ := Moves.refl (W := W) (s := s)
  queuesFit hf := by
    obtain ⟨hin, hout⟩ := hf
    rw [hq, List.length_cons] at hin
    exact ⟨Nat.le_of_succ_le hin, hout⟩

theorem Moves.pushed {it : Item} (hl : s.outQ.length < Config.outDepth) :
    Moves W s { s with outQ := s.outQ ++ [it] } where
  __ := Moves.refl (W := W) (s := s)
  queuesFit hf := ⟨hf.1, by simpa using hl⟩

/-- The output cursor alone, kept clean. -/
theorem Moves.setBO (hs : SameButBO s u) (hw : W .bo = true) (hc : CursorClean s → CursorClean u) : Moves W s u := by
  obtain ⟨b, n, rfl⟩ : ∃ b n, u = { s with boBuf := b, boNbits := n } := ⟨_, _, hs⟩
  exact { Moves.refl (W := W) (s := s) with bo := not_both hw, cursorClean := hc }

/-- The input cursor alone, BI_EOF staying set. -/
theorem Moves.setBI (hs : SameButBI s u) (hw : W .bi = true) (he : s.biEof = true → u.biEof = true) : Moves W s u := by
  obtain ⟨b, n, e, rfl⟩ : ∃ b n e, u = { s with biByte := b, biNrem := n, biEof := e } := ⟨_, _, _, hs⟩
  exact { Moves.refl (W := W) (s := s) with bi := not_both hw, eof := fun _ => he }

theorem Moves.resetBO (hw : W .bo = true) : Moves W s s.resetBO :=
  .setBO rfl hw fun _ => Nat.one_pos

theorem Moves.resetBI (hw : W .bi = true) (he : W .eof = true) : Moves W s s.resetBI where
  __ := Moves.refl (W := W) (s := s)
  bi := not_both hw
  eof := not_both he

theorem Moves.setFt {ft : Table Word} (hw : W .ft = true)
    (hb : W .beyond = false → LimitLegal s → TablesClear s → TablesClear { s with ft := ft }) :
    Moves W s { s with ft := ft } where
  __ := Moves.refl (W := W) (s := s)
  ft := not_both hw
  tablesClear := hb

theorem Moves.setCl {cl : Table (BitVec 31)} (hw : W .cl = true)
    (hb : W .beyond = false → LimitLegal s → TablesClear s → TablesClear { s with cl := cl }) :
    Moves W s { s with cl := cl } where
  __ := Moves.refl (W := W) (s := s)
  cl := not_both hw
  tablesClear := hb

theorem Moves.setTree {tree : Option CodeTree} (hw : W .tree = true)
    (ht : LimitLegal s → ∀ tr, tree = some tr → tr.Legal s.limit) : Moves W s { s with tree := tree } where
  __ := Moves.refl (W := W) (s := s)
  tree := not_both hw
  treeLegal hl _ := ht hl

theorem Moves.setCnt {cnt : BitVec 64} (hw : W .cnt = true) : Moves W s { s with cnt := cnt } where
  __ := Moves.refl (W := W) (s := s)
  cnt := not_both hw

theorem Moves.rebuild (hw : W .tree = true) : Moves W s s.rebuild :=
  .setTree hw fun hl _ ht => buildTree_legal hl.1 ht

theorem Moves.installed {tr : CodeTree} (hw : W .tree = true) (ht : toTree s.lengthList = .ok tr) :
    Moves W s { s with tree := some tr } :=
  .setTree hw fun _ _ h => Option.some.inj h ▸ toTree_lengthList_legal ht

theorem Moves.countSym (sym : Nat) (hw : W .ft = true) (hb : W .beyond = true) : Moves W s (s.countSym sym) :=
  .setFt hw (not_both hb)

theorem Moves.adaptiveStart (hf : W .ft = true) (hb : W .beyond = true) (ht : W .tree = true) (hc : W .cnt = true) :
    Moves W s s.adaptiveStart :=
  ((Moves.setFt hf (not_both hb)).trans (.rebuild ht)).trans (.setCnt hc)

theorem Moves.checkpoint (hf : W .ft = true) (hb : W .beyond = true) (ht : W .tree = true) :
    Moves W s s.checkpoint := by
  have htree : Moves W s { s with tree := s.checkpoint.tree } := by
    rw [State.checkpoint_tree]
    split
    · exact .rebuild ht
    · exact .refl
  exact htree.trans (.setFt hf (not_both hb))

theorem Moves.headerBit (left v : Nat) (b : Bool) (hc : W .cl = true) (hb : W .beyond = true) :
    Moves W s (headerBit left v b s).2 := by
  unfold Machine.headerBit
  split
  · exact .setCl hc (not_both hb)
  · exact .refl

/-! ## The output cursor stays clean -/

theorem putBit_clean (b : Bool) (h : CursorClean s) : CursorClean (putBit b s).1 := by
  by_cases hn : s.boNbits.val + 1 < 8
  · rw [putBit_short b s hn]
    have hs : (s.boBuf <<< 1).toNat < 2 ^ (s.boNbits.val + 1) := by
      unfold CursorClean at h
      rw [BitVec.toNat_shiftLeft, Nat.shiftLeft_eq, pow_succ]
      exact (Nat.mod_le _ _).trans_lt (by omega)
    have hb : ((BitVec.ofBool b).setWidth 8).toNat < 2 ^ (s.boNbits.val + 1) :=
      (show ((BitVec.ofBool b).setWidth 8).toNat < 2 ^ 1 by cases b <;> decide).trans_le
        (Nat.pow_le_pow_right Nat.two_pos (Nat.le_add_left 1 _))
    unfold CursorClean
    rw [BitVec.toNat_or]
    exact Nat.or_lt_two_pow hs hb
  · rw [putBit_full b s (by omega)]
    exact Nat.one_pos

theorem Moves.putBit (b : Bool) (hw : W .bo = true) : Moves W s (putBit b s).1 :=
  .setBO (putBit_same b s) hw (putBit_clean b)

theorem Moves.putBits (bits : List Bool) (hw : W .bo = true) : Moves W s (putBits bits s).1 := by
  induction bits generalizing s with
  | nil => exact .refl
  | cons b bs ih =>
    have hb := Moves.putBit (s := s) b hw
    unfold Machine.putBits
    split
    · next s' h =>
      rw [h] at hb
      exact hb.trans ih
    · next s' v h =>
      rw [h] at hb
      exact hb

theorem Moves.padOut (n : Nat) (hw : W .bo = true) : Moves W s (padOut n s).1 := by
  induction n generalizing s with
  | zero => exact .refl
  | succ n ih =>
    unfold Machine.padOut
    split
    · exact .refl
    · have hb := Moves.putBit (s := s) false hw
      split
      · next s' h =>
        rw [h] at hb
        exact hb.trans ih
      · next s' v h =>
        rw [h] at hb
        exact hb

end Sys2Proof.Machine
end

section
/-! SUPPORT. One rule for each shared operation: how a segment that uses it goes on and ends. -/

namespace Sys2Proof.Machine

/-- How a segment of `i` ends that starts at `s`: it waits at its blocking point, or it moves to some state `u` and
there completes, fails or parks at a blocking point of `i` (20_memory.md R66, R67, R69, R70; 60_exceptions.md R262). -/
inductive Segment (i : Instr) (s t : State) : Prop where
  | waits (ht : t = s)
  | completes (u : State) (v : Word) (hm : Moves (writes i) s u) (hv : answers i = false → v = u.result)
      (ht : t = State.toIdle { u with result := v })
  | fails (u : State) (e : ErrKind) (info : Word) (hm : Moves (writes i) s u) (ht : t = u.failed e info)
  | parks (u : State) (p : Pos) (hm : Moves (writes i) s u) (hp : hasPos i p = true) (ht : t = u.park p)

/-- The rest `o` of a segment of `i` that started at `s` answers a next state, and the segment ends as `Segment`
says. -/
def Runs (i : Instr) (s : State) (o : Out) : Prop := ∃ t, o = .next t ∧ Segment i s t

namespace Runs

variable {i : Instr} {s u : State} {p : Pos} {e : ErrKind} {info : Word} {sym : Nat}

/-! ## The ends -/

theorem complete (hm : Moves (writes i) s u) : Runs i s (complete u) :=
  ⟨_, rfl, .completes u u.result hm (fun _ => rfl) rfl⟩

theorem completeWith {v : Word} (hm : Moves (writes i) s u) (ha : answers i = true) : Runs i s (completeWith v u) :=
  ⟨_, rfl, .completes u v hm (not_both ha) rfl⟩

theorem raise (hm : Moves (writes i) s u) : Runs i s (raise e info u) := ⟨_, rfl, .fails u e info hm rfl⟩

theorem park (hm : Moves (writes i) s u) (hp : hasPos i p = true) : Runs i s (parkAt p u) :=
  ⟨_, rfl, .parks u p hm hp rfl⟩

/-! ## The start and the queues -/

/-- A command without blocking points stands at its start. -/
theorem atStart {k : Word → State → Out} (hs : s.pos = some p) (hp : hasPos i p = true)
    (hpop : ∀ q, hasPop i q = false) (hpush : ∀ q, hasPush i q = false) (hk : ∀ a, Runs i s (k a s)) :
    Runs i s (atStart s k) := by
  cases p with
  | start =>
    unfold Machine.atStart
    rw [hs]
    exact hk _
  | popIn q => exact not_both hp (hpop q)
  | pushOut it q => exact not_both hp (hpush q)

theorem popIn {k : Item → State → Out} (hk : ∀ it u, Moves (writes i) s u → Runs i s (k it u)) :
    Runs i s (popIn s k) := by
  unfold Machine.popIn
  split
  · exact ⟨s, rfl, .waits rfl⟩
  · next it rest hq => exact hk it _ (.popped hq)

theorem pushOut {it : Item} {k : State → Out} (hk : ∀ u, Moves (writes i) s u → Runs i s (k u)) :
    Runs i s (pushOut it s k) := by
  unfold Machine.pushOut
  split
  · next hl => exact hk _ (.pushed hl)
  · exact ⟨s, rfl, .waits rfl⟩

/-! ## The checks -/

theorem checkSym {k : State → Out} (hm : Moves (writes i) s u) (hk : sym < u.limit → Runs i s (k u)) :
    Runs i s (checkSym sym u k) := by
  unfold Machine.checkSym
  split
  · exact .raise hm
  · next hl => exact hk (Nat.lt_of_not_le hl)

theorem checkNonneg {a : Word} {k : State → Out} (hm : Moves (writes i) s u) (hk : Runs i s (k u)) :
    Runs i s (checkNonneg a e u k) := by
  unfold Machine.checkNonneg
  split
  · exact .raise hm
  · exact hk

theorem checkByteAlphabet {k : State → Out} (hm : Moves (writes i) s u) (hk : Runs i s (k u)) :
    Runs i s (checkByteAlphabet u k) := by
  unfold Machine.checkByteAlphabet
  split
  · exact hk
  · exact .raise hm

theorem withCode {k : List Bool → State → Out} (hm : Moves (writes i) s u) (hk : ∀ c, Runs i s (k c u)) :
    Runs i s (withCode sym u k) := by
  unfold Machine.withCode
  split
  · exact .raise hm
  · refine .checkSym hm fun _ => ?_
    split
    · exact .raise hm
    · exact hk _

theorem checking {k : State → Out} (hm : Moves (writes i) s u) (hk : Runs i s (k u)) : Runs i s (checking k u) := by
  unfold Machine.checking
  split
  · exact .raise hm
  · exact hk

theorem installing {k : State → Out} (hw : writes i .tree = true) (hm : Moves (writes i) s u)
    (hk : ∀ v, Moves (writes i) s v → Runs i s (k v)) : Runs i s (installing k u) := by
  unfold Machine.installing
  split
  · exact .raise hm
  · next ht => exact hk _ (hm.trans (.installed hw ht))

/-! ## Putting bits -/

theorem emitCode {k : State → Out} {bits : List Bool} (hw : writes i .bo = true)
    (hp : ∀ it sym rest, hasPos i (.pushOut it (.code sym rest)) = true) (hm : Moves (writes i) s u)
    (hk : ∀ v, Moves (writes i) s v → Runs i s (k v)) : Runs i s (emitCode sym k bits u) := by
  have hb := hm.trans (.putBits bits hw)
  unfold Machine.emitCode
  split
  · next h =>
    rw [h] at hb
    exact hk _ hb
  · next h =>
    rw [h] at hb
    exact .park hb (hp _ _ _)

theorem encodeSym {k : State → Out} (hw : writes i .bo = true)
    (hp : ∀ it sym rest, hasPos i (.pushOut it (.code sym rest)) = true) (hm : Moves (writes i) s u)
    (hk : ∀ v, Moves (writes i) s v → Runs i s (k v)) : Runs i s (encodeSym sym k u) :=
  .withCode hm fun _ => .emitCode hw hp hm hk

theorem closeOut (hw : writes i .bo = true) (hpad : ∀ it, hasPos i (.pushOut it .pad) = true)
    (hclose : ∀ it, hasPos i (.pushOut it .close) = true) (hm : Moves (writes i) s u) : Runs i s (closeOut u) := by
  have hb := hm.trans (.padOut 8 hw)
  unfold Machine.closeOut
  split
  · next h =>
    rw [h] at hb
    exact .park hb (hpad _)
  · next h =>
    rw [h] at hb
    exact .park hb (hclose _)

theorem emitHeader {left : Nat} {bits : List Bool} (hw : writes i .bo = true)
    (hp : ∀ it left rest, hasPos i (.pushOut it (.header left rest)) = true) (hm : Moves (writes i) s u) :
    Runs i s (emitHeader left bits u) := by
  induction left generalizing bits u with
  | zero =>
    have hb := hm.trans (.putBits bits hw)
    unfold Machine.emitHeader
    split
    · next h =>
      rw [h] at hb
      exact .park hb (hp _ _ _)
    · next h =>
      rw [h] at hb
      exact .complete hb
  | succ n ih =>
    have hb := hm.trans (.putBits bits hw)
    unfold Machine.emitHeader
    split
    · next h =>
      rw [h] at hb
      exact .park hb (hp _ _ _)
    · next h =>
      rw [h] at hb
      split
      · exact .raise hb
      · exact ih hb

/-! ## Getting bits -/

theorem getBit {onEof : State → Out} {onBit : Bool → State → Out} (hw : writes i .bi = true)
    (hp : hasPos i p = true) (hm : Moves (writes i) s u) (heof : ∀ v, Moves (writes i) s v → Runs i s (onEof v))
    (hbit : ∀ b v, Moves (writes i) s v → Runs i s (onBit b v)) : Runs i s ((getBit u).andThen p onEof onBit) := by
  rcases getBit_cases u with ⟨-, hg⟩ | ⟨-, -, hg⟩ | ⟨he, -, v, hs, -, hg⟩ <;> rw [hg]
  · exact heof u hm
  · exact .park hm hp
  · exact hbit _ v (hm.trans (.setBI hs hw fun h => absurd (he.symm.trans h) Bool.false_ne_true))

theorem gotItem {it : Item} {onEof : State → Out} {onBit : Bool → State → Out} (hw : writes i .bi = true)
    (hm : Moves (writes i) s u) (heof : ∀ v, Moves (writes i) s v → Runs i s (onEof v))
    (hbit : ∀ b v, Moves (writes i) s v → Runs i s (onBit b v)) : Runs i s ((gotItem it u).andThen p onEof onBit) := by
  rcases gotItem_cases it u with ⟨-, hg⟩ | ⟨b, -, hg⟩ <;> rw [hg]
  · exact heof _ (hm.trans (.setBI rfl hw fun _ => rfl))
  · exact hbit _ _ (hm.trans (.setBI rfl hw id))

theorem walk {k : Nat → State → Out} {tr : CodeTree} (hw : writes i .bi = true)
    (hp : ∀ l r, hasPos i (.popIn (.walk l r)) = true) (hm : Moves (writes i) s u)
    (hk : ∀ x v, Moves (writes i) s v → Runs i s (k x v)) : Runs i s (walk k tr u) := by
  induction tr generalizing u with
  | leaf x => exact hk x u hm
  | node l r ihl ihr =>
    refine .getBit hw (hp l r) hm (fun _ => .raise) fun b v hv => ?_
    cases b
    · exact ihl hv
    · exact ihr hv

theorem resumeWalk {k : Nat → State → Out} {l r : CodeTree} {it : Item} (hw : writes i .bi = true)
    (hp : ∀ l r, hasPos i (.popIn (.walk l r)) = true) (hm : Moves (writes i) s u)
    (hk : ∀ x v, Moves (writes i) s v → Runs i s (k x v)) : Runs i s (resumeWalk k l r it u) := by
  refine .gotItem hw hm (fun _ => .raise) fun b v hv => ?_
  cases b
  · exact .walk hw hp hv hk
  · exact .walk hw hp hv hk

theorem decodeSym {k : Nat → State → Out} (hw : writes i .bi = true)
    (hp : ∀ l r, hasPos i (.popIn (.walk l r)) = true) (hm : Moves (writes i) s u)
    (hk : ∀ x v, Moves (writes i) s v → Runs i s (k x v)) : Runs i s (decodeSym k u) := by
  unfold Machine.decodeSym
  split
  · exact .raise hm
  · exact .walk hw hp hm hk

theorem drained {k : State → Out} {it : Item} (hp : hasPos i (.popIn .drain) = true) (hm : Moves (writes i) s u)
    (hk : Runs i s (k u)) : Runs i s (drained k it u) := by
  cases it with
  | endItem => exact hk
  | byte b => exact .park hm hp

theorem readHeader {k : State → Out} {left v : Nat} (hw : writes i .bi = true) (hc : writes i .cl = true)
    (hb : writes i .beyond = true) (hp : ∀ left v, hasPos i (.popIn (.header left v)) = true)
    (hm : Moves (writes i) s u) (hk : ∀ v, Moves (writes i) s v → Runs i s (k v)) :
    Runs i s (readHeader k left v u) := by
  induction left generalizing v u with
  | zero => exact hk u hm
  | succ n ih =>
    exact .getBit hw (hp n v) hm (fun _ => .raise) fun b w hw => ih (hw.trans (.headerBit _ _ _ hc hb))

/-! ## Counting -/

theorem countData {k : State → Out} (hf : writes i .ft = true) (hb : writes i .beyond = true)
    (ht : writes i .tree = true) (hc : writes i .cnt = true) (hm : Moves (writes i) s u)
    (hk : ∀ v, Moves (writes i) s v → Runs i s (k v)) : Runs i s (countData sym k u) := by
  unfold Machine.countData
  split
  · exact .raise hm
  · exact hk _ (((hm.trans (.setCnt hc)).trans (.countSym sym hf hb)).trans (.checkpoint hf hb ht))

end Runs

end Sys2Proof.Machine
end

section
/-! SUPPORT. The segments of each command from its positions, put together from the rules of the operations. -/

namespace Sys2Proof.Machine

open Sys2Proof

variable {s u : State} {p : Pos} {sym : Nat}

/-! ## Table writes that stay below SYMLIM -/

theorem TablesClear.setFreq {v : Word} (hl : sym < s.limit) (h : TablesClear s) : TablesClear (s.setFreq sym v) := by
  intro k hk
  rw [State.setFreq_limit] at hk
  rw [State.freq_setFreq, State.setFreq_len, if_neg fun hks => by omega]
  exact h k hk

theorem TablesClear.setLen {v : BitVec 31} (hl : sym < s.limit) (h : TablesClear s) : TablesClear (s.setLen sym v) := by
  intro k hk
  rw [State.setLen_limit] at hk
  rw [State.len_setLen, State.setLen_freq, if_neg fun hks => by omega]
  exact h k hk

theorem TablesClear.fillFreq {v : Word} (h : TablesClear s) : TablesClear (s.fillFreq s.limit v) := by
  intro k hk
  rw [State.fillFreq_limit] at hk
  rw [State.freq_fillFreq, State.fillFreq_len, if_neg fun hks => by omega]
  exact h k hk

theorem TablesClear.fillLen {f : Nat → Nat} (h : TablesClear s) : TablesClear (s.fillLen f) := by
  intro k hk
  rw [State.fillLen_limit] at hk
  rw [State.len_fillLen, State.fillLen_freq, if_neg fun hks => by omega]
  exact h k hk

/-- SET_SYMLIM leaves all of both tables 0 (47_control.md R242). -/
theorem tablesClear_withLimit (a : Word) : TablesClear (s.withLimit a) := by
  intro k _
  by_cases hk : k < 257
  · exact ⟨(tableGet_fill _ _ _ _ _).trans (if_pos ⟨hk, hk⟩), (tableGet_fill _ _ _ _ _).trans (if_pos ⟨hk, hk⟩)⟩
  · exact ⟨State.freq_of_ge _ _ (by omega), State.len_of_ge _ _ (by omega)⟩

theorem limit_withLimit {a : Word} (ha : a.toNat ≤ 257) : (s.withLimit a).limit = a.toNat := by
  unfold State.limit
  rw [State.withLimit_symLim, BitVec.toNat_setWidth]
  exact Nat.mod_eq_of_lt (by omega)

theorem Moves.withLimit {a : Word} (h2 : ¬ a.toNat < 2) (hmax : ¬ 257 < a.toNat) :
    Moves (writes .setSymlim) s (s.withLimit a) where
  __ := Moves.refl (s := s)
  symLim := not_both rfl
  ft := not_both rfl
  cl := not_both rfl
  tree := not_both rfl
  cnt := not_both rfl
  limitLegal _ := by
    unfold LimitLegal
    rw [limit_withLimit (by omega)]
    omega
  tablesClear _ _ _ := tablesClear_withLimit a
  treeLegal _ _ tr h := nomatch h

theorem Moves.clearError : Moves (writes .errClear) s s.clearError where
  __ := Moves.refl (s := s)
  error := not_both rfl
  inOvf := not_both rfl

/-! ## The commands of one segment -/

theorem execFtFill_runs (hs : s.pos = some p) (hp : hasPos .ftFill p = true) : Runs .ftFill s (execFtFill s) :=
  .atStart hs hp (fun _ => rfl) (fun _ => rfl) fun _ =>
    .checkNonneg .refl (.complete (.setFt rfl fun _ _ => TablesClear.fillFreq))

theorem execFtGet_runs (hs : s.pos = some p) (hp : hasPos (.ftGet sym) p = true) :
    Runs (.ftGet sym) s (execFtGet sym s) :=
  .atStart hs hp (fun _ => rfl) (fun _ => rfl) fun _ => .checkSym .refl fun _ => .completeWith .refl rfl

theorem execFtSet_runs (hs : s.pos = some p) (hp : hasPos (.ftSet sym) p = true) :
    Runs (.ftSet sym) s (execFtSet sym s) :=
  .atStart hs hp (fun _ => rfl) (fun _ => rfl) fun _ => .checkSym .refl fun hl =>
    .checkNonneg .refl (.complete (.setFt rfl fun _ _ => TablesClear.setFreq hl))

theorem execFtInc_runs (hs : s.pos = some p) (hp : hasPos (.ftInc sym) p = true) :
    Runs (.ftInc sym) s (execFtInc sym s) := by
  refine .atStart hs hp (fun _ => rfl) (fun _ => rfl) fun _ => .checkSym .refl fun hl => ?_
  split
  · exact .raise .refl
  · exact .complete (.setFt rfl fun _ _ => TablesClear.setFreq hl)

theorem execFtBuild_runs (hs : s.pos = some p) (hp : hasPos .ftBuild p = true) : Runs .ftBuild s (execFtBuild s) :=
  .atStart hs hp (fun _ => rfl) (fun _ => rfl) fun _ => .complete (.rebuild rfl)

theorem execCtGetlen_runs (hs : s.pos = some p) (hp : hasPos (.ctGetlen sym) p = true) :
    Runs (.ctGetlen sym) s (execCtGetlen sym s) :=
  .atStart hs hp (fun _ => rfl) (fun _ => rfl) fun _ => .withCode .refl fun _ => .completeWith .refl rfl

theorem execCtGetcode_runs {widx : Nat} (hs : s.pos = some p) (hp : hasPos (.ctGetcode sym widx) p = true) :
    Runs (.ctGetcode sym widx) s (execCtGetcode sym widx s) :=
  .atStart hs hp (fun _ => rfl) (fun _ => rfl) fun _ => .withCode .refl fun _ => .completeWith .refl rfl

theorem execCtClear_runs (hs : s.pos = some p) (hp : hasPos .ctClear p = true) : Runs .ctClear s (execCtClear s) :=
  .atStart hs hp (fun _ => rfl) (fun _ => rfl) fun _ => .complete (.setTree rfl fun _ _ h => nomatch h)

theorem execClGet_runs (hs : s.pos = some p) (hp : hasPos (.clGet sym) p = true) :
    Runs (.clGet sym) s (execClGet sym s) :=
  .atStart hs hp (fun _ => rfl) (fun _ => rfl) fun _ => .checkSym .refl fun _ => .completeWith .refl rfl

theorem execClSet_runs (hs : s.pos = some p) (hp : hasPos (.clSet sym) p = true) :
    Runs (.clSet sym) s (execClSet sym s) :=
  .atStart hs hp (fun _ => rfl) (fun _ => rfl) fun _ => .checkSym .refl fun hl =>
    .checkNonneg .refl (.complete (.setCl rfl fun _ _ => TablesClear.setLen hl))

theorem execCcCheck_runs (hs : s.pos = some p) (hp : hasPos .ccCheck p = true) : Runs .ccCheck s (execCcCheck s) :=
  .atStart hs hp (fun _ => rfl) (fun _ => rfl) fun _ => .checking .refl (.complete .refl)

theorem execCcFromTree_runs (hs : s.pos = some p) (hp : hasPos .ccFromTree p = true) :
    Runs .ccFromTree s (execCcFromTree s) := by
  refine .atStart hs hp (fun _ => rfl) (fun _ => rfl) fun _ => ?_
  split
  · exact .raise .refl
  · exact .complete (.setCl rfl fun _ _ => TablesClear.fillLen)

theorem execCcToTree_runs (hs : s.pos = some p) (hp : hasPos .ccToTree p = true) :
    Runs .ccToTree s (execCcToTree s) :=
  .atStart hs hp (fun _ => rfl) (fun _ => rfl) fun _ => .installing rfl .refl fun _ => .complete

theorem execStreamReset_runs (hs : s.pos = some p) (hp : hasPos .streamReset p = true) :
    Runs .streamReset s (execStreamReset s) :=
  .atStart hs hp (fun _ => rfl) (fun _ => rfl) fun _ => .complete ((Moves.resetBI rfl rfl).trans (.resetBO rfl))

theorem execNop_runs (hs : s.pos = some p) (hp : hasPos .nop p = true) : Runs .nop s (execNop s) :=
  .atStart hs hp (fun _ => rfl) (fun _ => rfl) fun _ => .complete .refl

theorem execErrClear_runs (hs : s.pos = some p) (hp : hasPos .errClear p = true) :
    Runs .errClear s (execErrClear s) :=
  .atStart hs hp (fun _ => rfl) (fun _ => rfl) fun _ => .complete .clearError

theorem execSetSymlim_runs (hs : s.pos = some p) (hp : hasPos .setSymlim p = true) :
    Runs .setSymlim s (execSetSymlim s) := by
  refine .atStart hs hp (fun _ => rfl) (fun _ => rfl) fun a => ?_
  split
  · exact .raise .refl
  · next h2 =>
    split
    · exact .raise .refl
    · next hmax => exact .complete (.withLimit h2 hmax)

/-! ## The codec and the bit-stream adapters -/

theorem execEncSym_runs (hs : s.pos = some p) (hp : hasPos (.encSym sym) p = true) :
    Runs (.encSym sym) s (execEncSym sym s) := by
  unfold execEncSym
  rw [hs]
  match p, hp with
  | .start, _ => exact .encodeSym rfl (fun _ _ _ => rfl) .refl fun _ => .complete
  | .pushOut _ (.code _ _), _ =>
    exact .pushOut fun _ hu => .emitCode rfl (fun _ _ _ => rfl) hu fun _ => .complete

theorem execDecSym_runs (hs : s.pos = some p) (hp : hasPos .decSym p = true) : Runs .decSym s (execDecSym s) := by
  unfold execDecSym
  rw [hs]
  match p, hp with
  | .start, _ => exact .decodeSym rfl (fun _ _ => rfl) .refl fun _ _ hv => .completeWith hv rfl
  | .popIn (.walk _ _), _ =>
    exact .popIn fun _ _ hu => .resumeWalk rfl (fun _ _ => rfl) hu fun _ _ hv => .completeWith hv rfl

theorem execBoWrite_runs (hs : s.pos = some p) (hp : hasPos .boWrite p = true) : Runs .boWrite s (execBoWrite s) := by
  unfold execBoWrite
  rw [hs]
  match p, hp with
  | .start, _ =>
    have hb := Moves.putBit (W := writes .boWrite) (s := s) (s.argument == 1) rfl
    dsimp only
    split
    · exact .raise .refl
    · split
      · next h =>
        rw [h] at hb
        exact .complete hb
      · next h =>
        rw [h] at hb
        exact .park hb rfl
  | .pushOut _ .bit, _ => exact .pushOut fun _ => .complete

theorem execBoClose_runs (hs : s.pos = some p) (hp : hasPos .boClose p = true) : Runs .boClose s (execBoClose s) := by
  unfold execBoClose
  rw [hs]
  match p, hp with
  | .start, _ => exact .closeOut rfl (fun _ => rfl) (fun _ => rfl) .refl
  | .pushOut _ .pad, _ => exact .pushOut fun _ => .closeOut rfl (fun _ => rfl) (fun _ => rfl)
  | .pushOut _ .close, _ => exact .pushOut fun _ => .complete

theorem execBiRead_runs (hs : s.pos = some p) (hp : hasPos .biRead p = true) : Runs .biRead s (execBiRead s) := by
  unfold execBiRead
  rw [hs]
  match p, hp with
  | .start, _ => exact .getBit rfl rfl .refl (fun _ hv => .completeWith hv rfl) fun _ _ hv => .completeWith hv rfl
  | .popIn .bit, _ =>
    exact .popIn fun _ _ hu => .gotItem rfl hu (fun _ hv => .completeWith hv rfl) fun _ _ hv => .completeWith hv rfl

theorem execBiReadNoeof_runs (hs : s.pos = some p) (hp : hasPos .biReadNoeof p = true) :
    Runs .biReadNoeof s (execBiReadNoeof s) := by
  unfold execBiReadNoeof
  rw [hs]
  match p, hp with
  | .start, _ => exact .getBit rfl rfl .refl (fun _ => .raise) fun _ _ hv => .completeWith hv rfl
  | .popIn .bit, _ =>
    exact .popIn fun _ _ hu => .gotItem rfl hu (fun _ => .raise) fun _ _ hv => .completeWith hv rfl

theorem execInSkip_runs (hs : s.pos = some p) (hp : hasPos .inSkip p = true) : Runs .inSkip s (execInSkip s) := by
  unfold execInSkip
  rw [hs]
  match p, hp with
  | .start, _ => exact .park .refl rfl
  | .popIn .drain, _ => exact .popIn fun _ _ hu => .drained rfl hu (.complete hu)

/-! ## The static protocol -/

theorem execScScan_runs (hs : s.pos = some p) (hp : hasPos .scScan p = true) : Runs .scScan s (execScScan s) := by
  unfold execScScan
  rw [hs]
  match p, hp with
  | .start, _ => exact .checkByteAlphabet .refl (.park (.setFt rfl (not_both rfl)) rfl)
  | .popIn .item, _ =>
    refine .popIn fun it u hu => ?_
    cases it with
    | endItem => exact .complete hu
    | byte b =>
      unfold scanItem
      dsimp only
      split
      · exact .raise hu
      · exact .park (hu.trans (.setFt rfl (not_both rfl))) rfl

theorem Moves.scHeaderStart : Moves (writes .scHeader) s s.resetBO.forceEof.optimalLengths :=
  ((Moves.resetBO rfl).trans (.setFt rfl (not_both rfl))).trans (.setCl rfl (not_both rfl))

theorem execScHeader_runs (hs : s.pos = some p) (hp : hasPos .scHeader p = true) :
    Runs .scHeader s (execScHeader s) := by
  unfold execScHeader
  rw [hs]
  match p, hp with
  | .start, _ =>
    exact .checkByteAlphabet .refl (.installing rfl .scHeaderStart fun _ => .emitHeader rfl fun _ _ _ => rfl)
  | .pushOut _ (.header _ _), _ => exact .pushOut fun _ => .emitHeader rfl fun _ _ _ => rfl

theorem scEncoded_runs (hm : Moves (writes .scEncode) s u) : Runs .scEncode s (scEncoded sym u) := by
  unfold scEncoded
  split
  · exact .closeOut rfl (fun _ => rfl) (fun _ => rfl) hm
  · exact .park hm rfl

theorem scEncodeItem_runs {it : Item} (hm : Moves (writes .scEncode) s u) : Runs .scEncode s (scEncodeItem it u) := by
  cases it with
  | endItem => exact .encodeSym rfl (fun _ _ _ => rfl) hm fun _ => scEncoded_runs
  | byte b => exact .encodeSym rfl (fun _ _ _ => rfl) hm fun _ => scEncoded_runs

theorem execScEncode_runs (hs : s.pos = some p) (hp : hasPos .scEncode p = true) :
    Runs .scEncode s (execScEncode s) := by
  unfold execScEncode
  rw [hs]
  match p, hp with
  | .start, _ => exact .checkByteAlphabet .refl (.park .refl rfl)
  | .popIn .item, _ => exact .popIn fun _ _ => scEncodeItem_runs
  | .pushOut _ (.code _ _), _ =>
    exact .pushOut fun _ hu => .emitCode rfl (fun _ _ _ => rfl) hu fun _ => scEncoded_runs
  | .pushOut _ .pad, _ => exact .pushOut fun _ => .closeOut rfl (fun _ => rfl) (fun _ => rfl)
  | .pushOut _ .close, _ => exact .pushOut fun _ => .complete

theorem sdDecoded_runs (hm : Moves (writes .sdDecode) s u) : Runs .sdDecode s (sdDecoded sym u) := by
  unfold sdDecoded
  split
  · exact .park hm rfl
  · exact .park hm rfl

theorem sdHeaderRead_runs (hm : Moves (writes .sdDecode) s u) : Runs .sdDecode s (sdHeaderRead u) :=
  .checking hm (.installing rfl hm fun _ hv => .decodeSym rfl (fun _ _ => rfl) hv fun _ _ => sdDecoded_runs)

theorem readHeader_runs {left v : Nat} (hm : Moves (writes .sdDecode) s u) :
    Runs .sdDecode s (readHeader sdHeaderRead left v u) :=
  .readHeader rfl rfl rfl (fun _ _ => rfl) hm fun _ => sdHeaderRead_runs

theorem execSdDecode_runs (hs : s.pos = some p) (hp : hasPos .sdDecode p = true) :
    Runs .sdDecode s (execSdDecode s) := by
  unfold execSdDecode
  rw [hs]
  match p, hp with
  | .start, _ => exact .checkByteAlphabet .refl (readHeader_runs ((Moves.resetBI rfl rfl).trans (.resetBO rfl)))
  | .popIn (.header _ _), _ =>
    exact .popIn fun _ _ hu => .gotItem rfl hu (fun _ => .raise) fun _ _ hv =>
      readHeader_runs (hv.trans (.headerBit _ _ _ rfl rfl))
  | .popIn (.walk _ _), _ => exact .popIn fun _ _ hu => .resumeWalk rfl (fun _ _ => rfl) hu fun _ _ => sdDecoded_runs
  | .pushOut _ (.data _), _ => exact .pushOut fun _ hu => .decodeSym rfl (fun _ _ => rfl) hu fun _ _ => sdDecoded_runs
  | .popIn .drain, _ => exact .popIn fun _ _ hu => .drained rfl hu (.park hu rfl)
  | .pushOut _ .finish, _ => exact .pushOut fun _ hu => .complete (hu.trans (.resetBI rfl rfl))

/-! ## The adaptive protocol -/

theorem acEncoded_runs (hm : Moves (writes .acEncode) s u) : Runs .acEncode s (acEncoded sym u) := by
  unfold acEncoded
  split
  · exact .closeOut rfl (fun _ => rfl) (fun _ => rfl) (hm.trans (.countSym _ rfl rfl))
  · exact .countData rfl rfl rfl rfl hm fun _ hv => .park hv rfl

theorem acEncodeItem_runs {it : Item} (hm : Moves (writes .acEncode) s u) : Runs .acEncode s (acEncodeItem it u) := by
  cases it with
  | endItem => exact .encodeSym rfl (fun _ _ _ => rfl) hm fun _ => acEncoded_runs
  | byte b => exact .encodeSym rfl (fun _ _ _ => rfl) hm fun _ => acEncoded_runs

theorem execAcEncode_runs (hs : s.pos = some p) (hp : hasPos .acEncode p = true) :
    Runs .acEncode s (execAcEncode s) := by
  unfold execAcEncode
  rw [hs]
  match p, hp with
  | .start, _ =>
    exact .checkByteAlphabet .refl (.park ((Moves.resetBO rfl).trans (.adaptiveStart rfl rfl rfl rfl)) rfl)
  | .popIn .item, _ => exact .popIn fun _ _ => acEncodeItem_runs
  | .pushOut _ (.code _ _), _ =>
    exact .pushOut fun _ hu => .emitCode rfl (fun _ _ _ => rfl) hu fun _ => acEncoded_runs
  | .pushOut _ .pad, _ => exact .pushOut fun _ => .closeOut rfl (fun _ => rfl) (fun _ => rfl)
  | .pushOut _ .close, _ => exact .pushOut fun _ => .complete

theorem adDecoded_runs (hm : Moves (writes .adDecode) s u) : Runs .adDecode s (adDecoded sym u) := by
  unfold adDecoded
  split
  · exact .park (hm.trans (.countSym _ rfl rfl)) rfl
  · exact .park hm rfl

theorem execAdDecode_runs (hs : s.pos = some p) (hp : hasPos .adDecode p = true) :
    Runs .adDecode s (execAdDecode s) := by
  unfold execAdDecode
  rw [hs]
  match p, hp with
  | .start, _ =>
    exact .checkByteAlphabet .refl (.decodeSym rfl (fun _ _ => rfl)
      (((Moves.resetBI rfl rfl).trans (.resetBO rfl)).trans (.adaptiveStart rfl rfl rfl rfl)) fun _ _ => adDecoded_runs)
  | .popIn (.walk _ _), _ => exact .popIn fun _ _ hu => .resumeWalk rfl (fun _ _ => rfl) hu fun _ _ => adDecoded_runs
  | .pushOut _ (.data _), _ =>
    exact .pushOut fun _ hu => .countData rfl rfl rfl rfl hu fun _ hv =>
      .decodeSym rfl (fun _ _ => rfl) hv fun _ _ => adDecoded_runs
  | .popIn .drain, _ => exact .popIn fun _ _ hu => .drained rfl hu (.park hu rfl)
  | .pushOut _ .finish, _ => exact .pushOut fun _ hu => .complete (hu.trans (.resetBI rfl rfl))

/-! ## Every command -/

/-- From a position of its command, every segment answers a next state and ends as `Segment` says. -/
theorem exec_runs {i : Instr} (hs : s.pos = some p) (hp : hasPos i p = true) : Runs i s (exec i s) := by
  cases i with
  | ftFill => exact execFtFill_runs hs hp
  | ftGet sym => exact execFtGet_runs hs hp
  | ftSet sym => exact execFtSet_runs hs hp
  | ftInc sym => exact execFtInc_runs hs hp
  | ftBuild => exact execFtBuild_runs hs hp
  | ctGetlen sym => exact execCtGetlen_runs hs hp
  | ctGetcode sym widx => exact execCtGetcode_runs hs hp
  | ctClear => exact execCtClear_runs hs hp
  | clGet sym => exact execClGet_runs hs hp
  | clSet sym => exact execClSet_runs hs hp
  | ccCheck => exact execCcCheck_runs hs hp
  | ccFromTree => exact execCcFromTree_runs hs hp
  | ccToTree => exact execCcToTree_runs hs hp
  | encSym sym => exact execEncSym_runs hs hp
  | decSym => exact execDecSym_runs hs hp
  | boWrite => exact execBoWrite_runs hs hp
  | boClose => exact execBoClose_runs hs hp
  | biRead => exact execBiRead_runs hs hp
  | biReadNoeof => exact execBiReadNoeof_runs hs hp
  | streamReset => exact execStreamReset_runs hs hp
  | inSkip => exact execInSkip_runs hs hp
  | scScan => exact execScScan_runs hs hp
  | scHeader => exact execScHeader_runs hs hp
  | scEncode => exact execScEncode_runs hs hp
  | sdDecode => exact execSdDecode_runs hs hp
  | acEncode => exact execAcEncode_runs hs hp
  | adDecode => exact execAdDecode_runs hs hp
  | nop => exact execNop_runs hs hp
  | errClear => exact execErrClear_runs hs hp
  | setSymlim => exact execSetSymlim_runs hs hp

/-- A command answers a next state only from one of its positions. -/
theorem hasPos_of_next {i : Instr} {t : State} (h : exec i s = .next t) : ∃ p, s.pos = some p ∧ hasPos i p = true := by
  cases i
  case ftFill | ftGet | ftSet | ftInc | ftBuild | ctGetlen | ctGetcode | ctClear | clGet | clSet | ccCheck |
      ccFromTree | ccToTree | streamReset | nop | errClear | setSymlim =>
    simp only [exec, execFtFill, execFtGet, execFtSet, execFtInc, execFtBuild, execCtGetlen, execCtGetcode, execCtClear,
      execClGet, execClSet, execCcCheck, execCcFromTree, execCcToTree, execStreamReset, execNop, execErrClear,
      execSetSymlim] at h
    obtain ⟨w, a, hs, -⟩ := atStart_next h
    exact ⟨.start, State.pos_eq_some.2 ⟨w, a, hs⟩, rfl⟩
  all_goals
    simp only [exec, execEncSym, execDecSym, execBoWrite, execBoClose, execBiRead, execBiReadNoeof, execInSkip,
      execScScan, execScHeader, execScEncode, execSdDecode, execAcEncode, execAdDecode] at h
    split at h
    rotate_right
    · cases h
    all_goals exact ⟨_, ‹_›, rfl⟩

/-- The one account of a segment: how it ends, whatever its command and position. -/
theorem exec_segment {i : Instr} {t : State} (h : exec i s = .next t) : Segment i s t := by
  obtain ⟨p, hs, hp⟩ := hasPos_of_next h
  obtain ⟨t', ht, hseg⟩ := exec_runs hs hp
  cases h.symm.trans ht
  exact hseg

end Sys2Proof.Machine
end

section
/-! SUPPORT. What a step can do: the engine's segment or one move of the host. -/

namespace Sys2Proof.Machine

open Sys2Proof

variable {s t : State} {i : Instr}

/-! ## What a segment leaves -/

/-- Where a segment ends, only RESULT, the error state and the sequencer differ from where it moved to. -/
theorem Segment.moves (h : Segment i s t) : ∃ u, Moves (writes i) s u ∧ ∃ r e c d n q, t =
    { u with result := r, err := e, errCode := c, errDetail := d, errInfo := n, seq := q } := by
  cases h with
  | waits ht => exact ⟨s, .refl, _, _, _, _, _, _, ht⟩
  | completes u v hm hv ht => exact ⟨u, hm, _, _, _, _, _, _, ht⟩
  | fails u e info hm ht => exact ⟨u, hm, _, _, _, _, _, _, ht⟩
  | parks u p hm hp ht => exact ⟨u, hm, _, _, _, _, _, _, ht⟩

/-- At its start a protocol command raises SYMLIM_NOT_257 unless SYMLIM = 257 (60_exceptions.md R266). -/
theorem exec_protocol_start (hi : isProtocol i = true) (hs : s.pos = some .start) (hl : s.limit ≠ 257) :
    exec i s = .next (s.failed .symlimNot257 (s.symLim.setWidth 32)) := by
  cases i <;> cases hi <;>
    simp only [exec, execScScan, execScHeader, execScEncode, execSdDecode, execAcEncode, execAdDecode, hs,
      checkByteAlphabet, if_neg hl, raise]

theorem SeqLegal.of_running {w a : Word} {p : Pos} (h : SeqLegal s) (hs : s.seq = .running w a p) :
    p = .start ∨ ∃ j, decode w = .ok j ∧ hasPos j p = true ∧ (isProtocol j = true → s.limit = 257) := by
  unfold SeqLegal at h
  rw [hs] at h
  exact h

theorem SeqLegal.hasPos {w a : Word} {p : Pos} (h : SeqLegal s) (hs : s.seq = .running w a p)
    (hd : decode w = .ok i) : hasPos i p = true := by
  rcases h.of_running hs with rfl | ⟨j, hj, hp, -⟩
  · rfl
  · cases hd.symm.trans hj
    exact hp

/-- A segment of a protocol command runs with SYMLIM = 257, or raises SYMLIM_NOT_257. -/
theorem SeqLegal.protocol {w a : Word} {p : Pos} (h : SeqLegal s) (hs : s.seq = .running w a p)
    (hd : decode w = .ok i) (hi : isProtocol i = true) (hx : exec i s = .next t) :
    s.limit = 257 ∨ t = s.failed .symlimNot257 (s.symLim.setWidth 32) := by
  by_cases hl : s.limit = 257
  · exact .inl hl
  · right
    rcases h.of_running hs with rfl | ⟨j, hj, -, hlim⟩
    · cases hx.symm.trans (exec_protocol_start hi (State.pos_eq_some.2 ⟨w, a, hs⟩) hl)
      rfl
    · cases hd.symm.trans hj
      exact absurd (hlim hi) hl

/-! ## The engine's step -/

theorem engineStep_next (h : engineStep s = .next t) :
    (s.seq = .idle ∧ t = s) ∨ (∃ e w, t = s.failed e w) ∨
    ∃ w a p i, s.seq = .running w a p ∧ decode w = .ok i ∧ exec i s = .next t := by
  unfold engineStep at h
  split at h
  · next hs =>
    cases h
    exact .inl ⟨hs, rfl⟩
  · next w a p hs =>
    split at h
    · exact .inr (.inl ⟨_, w, raise_next.1 h⟩)
    · exact .inr (.inl ⟨_, w, raise_next.1 h⟩)
    · next i hd => exact .inr (.inr ⟨w, a, p, i, hs, hd, h⟩)

/-- Apart from RESULT, the error state and the sequencer, the engine's step leaves what a segment moves to. -/
theorem engineStep_moves (h : engineStep s = .next t) : ∃ W u, Moves W s u ∧ ∃ r e c d n q, t =
    { u with result := r, err := e, errCode := c, errDetail := d, errInfo := n, seq := q } := by
  rcases engineStep_next h with ⟨-, rfl⟩ | ⟨e, w, rfl⟩ | ⟨w, a, p, i, -, -, hx⟩
  · exact ⟨writes .nop, t, .refl, _, _, _, _, _, _, rfl⟩
  · exact ⟨writes .nop, s, .refl, _, _, _, _, _, _, rfl⟩
  · exact ⟨writes i, (exec_segment hx).moves⟩

/-- With a legal sequencer the engine's step answers a next state. -/
theorem engineStep_total (h : SeqLegal s) : ∃ t, engineStep s = .next t := by
  unfold engineStep
  split
  · exact ⟨s, rfl⟩
  · next w a p hs =>
    split
    · exact ⟨_, rfl⟩
    · exact ⟨_, rfl⟩
    · next i hd =>
      obtain ⟨t, ht, -⟩ := exec_runs (State.pos_eq_some.2 ⟨w, a, hs⟩) (h.hasPos hs hd)
      exact ⟨t, ht⟩

/-! ## The host's moves -/

/-- What a turn of the host or of the reset input does to the state (20_memory.md R60 to R68; 70_reset_and_hazards.md
R290, R291). `observes` stands for every turn without effect on the block, whatever it records. -/
inductive HostMove (s : State) : State → Prop where
  | observes (sc : List Turn) (rs : List (Nat × Word)) (n : Nat) :
    HostMove s { s with script := sc, reads := rs, draws := n }
  | pops (it : Item) (rest : List Item) (rs : List (Nat × Word)) (hq : s.outQ = it :: rest) :
    HostMove s { s with outQ := rest, reads := rs }
  | setsArg (v : Word) : HostMove s { s with arg := v }
  | accepts (w : Word) (hs : s.seq = .idle) (he : s.err = true → w = 0x00000001) : HostMove s (s.accept w)
  | overflows : HostMove s { s with inOvf := true }
  | pushes (it : Item) (hq : s.inQ.length ≠ Config.inDepth) : HostMove s { s with inQ := s.inQ ++ [it] }
  | resets : HostMove s s.resetBlock

theorem HostMove.refl : HostMove s s := .observes s.script s.reads s.draws

theorem busy_false (h : s.busy = false) : s.seq = .idle := by
  unfold State.busy at h
  split at h
  · assumption
  · cases h

theorem writeCmd_move (w : Word) : HostMove s (s.writeCmd w) := by
  unfold State.writeCmd
  split
  · exact .refl
  · next hb =>
    split
    · exact .refl
    · next he =>
      refine .accepts w (busy_false (by simpa using hb)) fun herr => ?_
      simpa [herr] using he

theorem pushIn_move (v : Word) : HostMove s (s.pushIn v) := by
  unfold State.pushIn
  split
  · exact .overflows
  · next hq =>
    split
    · exact .pushes _ hq
    · exact .pushes _ hq

theorem writeCtrl_move (v : Word) : HostMove s (s.writeCtrl v) := by
  unfold State.writeCtrl
  split
  · exact .resets
  · exact .refl

theorem writeReg_move (off : Nat) (v : Word) : HostMove s (writeReg off v s) := by
  unfold writeReg
  split
  · exact writeCmd_move v
  · exact .setsArg v
  · exact pushIn_move v
  · exact writeCtrl_move v
  · exact .refl

/-- A read has no side effect but that of OUT_POP (20_memory.md R64, R75). -/
theorem readReg_state (off : Nat) :
    (readReg off s).2 = s ∨ ∃ it rest, s.outQ = it :: rest ∧ (readReg off s).2 = { s with outQ := rest } := by
  unfold readReg
  split
  case h_9 =>
    unfold State.popOut
    split
    · exact .inl rfl
    · next it rest hq => exact .inr ⟨it, rest, hq, rfl⟩
  all_goals exact .inl rfl

theorem record_readReg_move (off : Nat) (v : Word) : HostMove s ((readReg off s).2.record off v) := by
  rcases readReg_state (s := s) off with h | ⟨it, rest, hq, h⟩ <;> rw [h]
  · exact .observes s.script (s.reads ++ [(off, v)]) s.draws
  · exact .pops it rest (s.reads ++ [(off, v)]) hq

/-- A host access is a move of the host, or lies outside the window (20_memory.md R60, R78). -/
theorem hostAccess_move (a : Access) (s : State) :
    (∃ t, hostAccess a s = .next t ∧ HostMove s t) ∨ hostAccess a s = .fault .outsideWindow := by
  cases a with
  | read off size =>
    unfold hostAccess
    dsimp only
    split
    · exact .inr rfl
    · split
      · exact .inl ⟨_, rfl, record_readReg_move off _⟩
      · exact .inl ⟨_, rfl, .observes s.script (s.reads ++ [(off, Config.busDraw s.draws)]) (s.draws + 1)⟩
  | write off size v =>
    unfold hostAccess
    dsimp only
    split
    · exact .inr rfl
    · split
      · exact .inl ⟨_, rfl, writeReg_move off v⟩
      · exact .inl ⟨_, rfl, .refl⟩

theorem pushTurn_move (v : Word) (rest : List Turn) (s : State) : ∃ t, pushTurn v rest s = .next t ∧ HostMove s t := by
  unfold pushTurn
  split
  · exact ⟨_, rfl, pushIn_move v⟩
  · exact ⟨_, rfl, .observes (.engine :: .push v :: rest) s.reads s.draws⟩

/-! ## The step -/

/-- A step is the engine's or a move of the host, with the turn used up (20_memory.md R61; log 1); or it is a host
access outside the window. -/
theorem step_cases (s : State) : ∃ sc,
    step s = engineStep { s with script := sc } ∨
    (∃ t, step s = .next t ∧ HostMove { s with script := sc } t) ∨
    ∃ a, s.script = .host a :: sc ∧ step s = .fault .outsideWindow := by
  unfold step takeTurn
  split
  · next hsc => exact ⟨s.script, .inl rfl⟩
  · next rest hsc => exact ⟨rest, .inl rfl⟩
  · next a rest hsc =>
    rcases hostAccess_move a { s with script := rest } with h | h
    · exact ⟨rest, .inr (.inl h)⟩
    · exact ⟨rest, .inr (.inr ⟨a, hsc, h⟩)⟩
  · next v rest hsc => exact ⟨rest, .inr (.inl (pushTurn_move v rest _))⟩
  · next rest hsc => exact ⟨rest, .inr (.inl ⟨_, rfl, .observes _ (s.reads ++ [(offStatus, s.status)]) s.draws⟩)⟩
  · next rest hsc => exact ⟨rest, .inr (.inl ⟨_, rfl, .resets⟩)⟩

/-- What does not speak of the script, and what the engine's step and the host's moves keep, every step keeps. -/
theorem step_keeps {P : State → Prop} (hscript : ∀ s sc, P s → P { s with script := sc })
    (hengine : ∀ s t, P s → engineStep s = .next t → P t) (hhost : ∀ s t, P s → HostMove s t → P t)
    (hs : P s) (h : step s = .next t) : P t := by
  obtain ⟨sc, he | ⟨u, hu, hm⟩ | ⟨a, -, hf⟩⟩ := step_cases s
  · exact hengine _ t (hscript s sc hs) (he.symm.trans h)
  · cases hu.symm.trans h
    exact hhost _ t (hscript s sc hs) hm
  · cases hf.symm.trans h

/-! ## The reset state (10_state.md R44) -/

theorem reset_freq (k : Nat) : State.reset.freq k = 0 := by
  unfold State.freq tableGet
  split
  · exact Vector.getElem_replicate _
  · rfl

theorem reset_len (k : Nat) : State.reset.len k = 0 := by
  unfold State.len tableGet
  split
  · exact Vector.getElem_replicate _
  · rfl

theorem reset_limitLegal : LimitLegal State.reset := by
  unfold LimitLegal
  decide

theorem reset_inv : Inv State.reset :=
  ⟨reset_limitLegal, trivial, fun k _ => ⟨reset_freq k, reset_len k⟩, fun _ h => (nomatch h), Nat.one_pos,
    ⟨fun _ => ⟨rfl, rfl, rfl⟩, fun _ => .inl rfl⟩, Nat.zero_le _, Nat.zero_le _⟩

end Sys2Proof.Machine
end

section
/-! SUPPORT. What every step keeps (10_state.md R22 to R36): the engine's part from `Moves` and `Segment`, the
host's from `HostMove`. -/

namespace Sys2Proof.Machine

open Sys2Proof

variable {s t : State} {i : Instr}

/-- A protocol command keeps SYMLIM. -/
theorem writes_symLim_of_protocol (hi : isProtocol i = true) : writes i .symLim = false := by
  cases i <;> cases hi <;> rfl

/-- Only a protocol command writes tables without regard to SYMLIM. -/
theorem writes_beyond_of_not_protocol (hi : isProtocol i = false) : writes i .beyond = false := by
  cases i <;> cases hi <;> rfl

/-! ## The sequencer (10_state.md R35) -/

theorem engineStep_seqLegal (hs : SeqLegal s) (h : engineStep s = .next t) : SeqLegal t := by
  rcases engineStep_next h with ⟨-, rfl⟩ | ⟨e, w, rfl⟩ | ⟨w, a, p, i, hseq, hd, hx⟩
  · exact hs
  · trivial
  · cases exec_segment hx with
    | waits ht => rwa [ht]
    | completes u v hm hv ht => rw [ht]; trivial
    | fails u e info hm ht => rw [ht]; trivial
    | parks u q hm hq ht =>
      subst ht
      have hrun : (u.park q).seq = .running w a q := by rw [State.park_seq, hm.seq, hseq]; rfl
      have hlim : isProtocol i = true → (u.park q).limit = 257 := fun hi => by
        rcases hs.protocol hseq hd hi hx with hl | hf
        · have hsym : u.symLim = s.symLim := hm.symLim (writes_symLim_of_protocol hi)
          rw [State.park_limit, State.limit, hsym]
          exact hl
        · rw [hf, State.failed_seq] at hrun
          cases hrun
      unfold SeqLegal
      rw [hrun]
      exact .inr ⟨i, hd, hq, hlim⟩

theorem HostMove.seqLegal (h : HostMove s t) (hs : SeqLegal s) : SeqLegal t := by
  cases h with
  | observes | pops | setsArg | overflows | pushes => exact hs
  | accepts => exact .inl rfl
  | resets => trivial

/-- A step keeps the sequencer legal: a segment parks only at a point of its command, and the host starts a command
only at its start. -/
theorem step_seqLegal (hs : SeqLegal s) (h : step s = .next t) : SeqLegal t :=
  step_keeps (P := SeqLegal) (fun _ _ => id) (fun _ _ => engineStep_seqLegal) (fun _ _ hs hm => hm.seqLegal hs) hs h

/-! ## SYMLIM, the tables and the tree (10_state.md R22 to R27) -/

theorem engineStep_limitLegal (hl : LimitLegal s) (h : engineStep s = .next t) : LimitLegal t := by
  obtain ⟨W, u, hm, r, e, c, d, n, q, rfl⟩ := engineStep_moves h
  exact hm.limitLegal hl

theorem HostMove.limitLegal (h : HostMove s t) (hl : LimitLegal s) : LimitLegal t := by
  cases h with
  | observes | pops | setsArg | overflows | pushes | accepts => exact hl
  | resets => exact reset_limitLegal

/-- With SYMLIM = 257 no entry lies beyond it. -/
theorem tablesClear_of_limit (hl : s.limit = 257) : TablesClear s := fun _ hk =>
  ⟨State.freq_of_ge _ _ (hl ▸ hk), State.len_of_ge _ _ (hl ▸ hk)⟩

theorem engineStep_tablesClear (hl : LimitLegal s) (hs : SeqLegal s) (hc : TablesClear s)
    (h : engineStep s = .next t) : TablesClear t := by
  rcases engineStep_next h with ⟨-, rfl⟩ | ⟨e, w, rfl⟩ | ⟨w, a, p, i, hseq, hd, hx⟩
  · exact hc
  · exact hc
  · obtain ⟨u, hm, r, e, c, d, n, q, ht⟩ := (exec_segment hx).moves
    cases hi : isProtocol i with
    | false =>
      subst ht
      exact hm.tablesClear (writes_beyond_of_not_protocol hi) hl hc
    | true =>
      rcases hs.protocol hseq hd hi hx with h257 | hf
      · subst ht
        have hsym : u.symLim = s.symLim := hm.symLim (writes_symLim_of_protocol hi)
        refine tablesClear_of_limit ?_
        unfold State.limit at h257 ⊢
        rwa [← hsym] at h257
      · rw [hf]
        exact hc

theorem HostMove.tablesClear (h : HostMove s t) (hc : TablesClear s) : TablesClear t := by
  cases h with
  | observes | pops | setsArg | overflows | pushes | accepts => exact hc
  | resets => exact fun k _ => ⟨reset_freq k, reset_len k⟩

theorem engineStep_treeLegal (hl : LimitLegal s) (htr : TreeLegal s) (h : engineStep s = .next t) : TreeLegal t := by
  obtain ⟨W, u, hm, r, e, c, d, n, q, rfl⟩ := engineStep_moves h
  exact hm.treeLegal hl htr

theorem HostMove.treeLegal (h : HostMove s t) (htr : TreeLegal s) : TreeLegal t := by
  cases h with
  | observes | pops | setsArg | overflows | pushes | accepts => exact htr
  | resets => exact fun _ h => nomatch h

/-! ## The output cursor, the error state and the queues (10_state.md R30, R34; 20_memory.md R62) -/

theorem engineStep_cursorClean (hc : CursorClean s) (h : engineStep s = .next t) : CursorClean t := by
  obtain ⟨W, u, hm, r, e, c, d, n, q, rfl⟩ := engineStep_moves h
  exact hm.cursorClean hc

theorem HostMove.cursorClean (h : HostMove s t) (hc : CursorClean s) : CursorClean t := by
  cases h with
  | observes | pops | setsArg | overflows | pushes | accepts => exact hc
  | resets => exact Nat.one_pos

theorem engineStep_queuesFit (hf : QueuesFit s) (h : engineStep s = .next t) : QueuesFit t := by
  obtain ⟨W, u, hm, r, e, c, d, n, q, rfl⟩ := engineStep_moves h
  exact hm.queuesFit hf

theorem HostMove.queuesFit (h : HostMove s t) (hf : QueuesFit s) : QueuesFit t := by
  obtain ⟨hin, hout⟩ := hf
  cases h with
  | observes | setsArg | overflows | accepts => exact ⟨hin, hout⟩
  | pops it rest rs hq =>
    rw [hq, List.length_cons] at hout
    exact ⟨hin, Nat.le_of_succ_le hout⟩
  | pushes it hq =>
    refine ⟨?_, hout⟩
    rw [List.length_append]
    exact Nat.lt_of_le_of_ne hin hq
  | resets => exact ⟨Nat.zero_le _, Nat.zero_le _⟩

theorem exec_errClear_next (h : exec .errClear s = .next t) : t = s.clearError.toIdle := by
  obtain ⟨w, a, -, hk⟩ := atStart_next (k := fun _ s => complete s.clearError) h
  exact complete_next.1 hk

theorem errorLegal_failed (e : ErrKind) (info : Word) : ErrorLegal (s.failed e info) :=
  ⟨fun h => (nomatch h), fun _ => .inl rfl⟩

theorem errorLegal_clearError : ErrorLegal s.clearError.toIdle := ⟨fun _ => ⟨rfl, rfl, rfl⟩, fun h => nomatch h⟩

/-- A state without an error keeps the error state whole as long as its error fields stay as they were. -/
theorem ErrorLegal.of_kept (hs : ErrorLegal s) (he : s.err = false)
    (hk : t.err = s.err ∧ t.errCode = s.errCode ∧ t.errDetail = s.errDetail ∧ t.errInfo = s.errInfo) :
    ErrorLegal t := by
  obtain ⟨herr, hcode, hdetail, hinfo⟩ := hk
  unfold ErrorLegal
  rw [herr, hcode, hdetail, hinfo]
  exact ⟨hs.1, fun h => absurd (he.symm.trans h) Bool.false_ne_true⟩

/-- The only command that runs while ERR = 1 is ERR_CLEAR (60_exceptions.md R267). -/
theorem ErrorLegal.only_errClear {w a : Word} {p : Pos} (hs : ErrorLegal s) (he : s.err = true)
    (hseq : s.seq = .running w a p) (hd : decode w = .ok i) : i = .errClear := by
  rcases hs.2 he with h | ⟨b, h⟩
  · cases hseq.symm.trans h
  · cases hseq.symm.trans h
    have : decode 0x00000001 = .ok .errClear := by decide
    cases hd.symm.trans this
    rfl

theorem engineStep_errorLegal (hs : ErrorLegal s) (h : engineStep s = .next t) : ErrorLegal t := by
  rcases engineStep_next h with ⟨-, rfl⟩ | ⟨e, w, rfl⟩ | ⟨w, a, p, i, hseq, hd, hx⟩
  · exact hs
  · exact errorLegal_failed e w
  · by_cases hi : i = .errClear
    · subst hi
      rw [exec_errClear_next hx]
      exact errorLegal_clearError
    · have herr : s.err = false := Bool.eq_false_iff.2 fun he => hi (hs.only_errClear he hseq hd)
      have hw : writes i .error = false := by
        cases i
        case errClear => exact absurd rfl hi
        all_goals rfl
      cases exec_segment hx with
      | waits ht => rwa [ht]
      | completes u v hm hv ht => exact hs.of_kept herr (ht ▸ hm.error hw)
      | fails u e info hm ht => rw [ht]; exact errorLegal_failed e info
      | parks u q hm hq ht => exact hs.of_kept herr (ht ▸ hm.error hw)

theorem HostMove.errorLegal (h : HostMove s t) (hs : ErrorLegal s) : ErrorLegal t := by
  cases h with
  | observes | pops | setsArg | overflows | pushes => exact hs
  | accepts w hidle he => exact ⟨hs.1, fun herr => .inr ⟨s.arg, he herr ▸ rfl⟩⟩
  | resets => exact ⟨fun _ => ⟨rfl, rfl, rfl⟩, fun _ => .inl rfl⟩

end Sys2Proof.Machine
end

section
/-! SUPPORT. Which commands write which registers (10_state.md R22 to R36), read off the pieces each command may write;
and what the registers that are computed show (10_state.md R37 to R42). -/

namespace Sys2Proof.Machine

open Sys2Proof

variable {i : Instr}

/-- A piece that only the commands in `C` write is kept by every other command. -/
theorem writes_false {p : Piece} {C : Prop} (h : writes i p = true → C) (hn : ¬ C) : writes i p = false :=
  Bool.eq_false_iff.2 fun hw => hn (h hw)

theorem writes_symLim (h : writes i .symLim = true) : i = .setSymlim := by
  cases i <;> simp [writes, pieces] at h ⊢

theorem writes_inOvf (h : writes i .inOvf = true) : i = .errClear := by
  cases i <;> simp [writes, pieces] at h ⊢

theorem writes_cnt (h : writes i .cnt = true) : i ∈ [Instr.acEncode, .adDecode, .setSymlim] := by
  cases i <;> simp [writes, pieces] at h ⊢

theorem writes_bo (h : writes i .bo = true) : (∃ sym, i = .encSym sym) ∨
    i ∈ [Instr.boWrite, .boClose, .streamReset, .scHeader, .scEncode, .sdDecode, .acEncode, .adDecode] := by
  cases i <;> simp [writes, pieces] at h ⊢

theorem writes_bi (h : writes i .bi = true) :
    i ∈ [Instr.decSym, .biRead, .biReadNoeof, .streamReset, .sdDecode, .adDecode] := by
  cases i <;> simp [writes, pieces] at h ⊢

theorem writes_eof (h : writes i .eof = true) : i ∈ [Instr.streamReset, .sdDecode, .adDecode] := by
  cases i <;> simp [writes, pieces] at h ⊢

theorem writes_ft (h : writes i .ft = true) : (∃ sym, i = .ftSet sym ∨ i = .ftInc sym) ∨
    i ∈ [Instr.ftFill, .scScan, .scHeader, .acEncode, .adDecode, .setSymlim] := by
  cases i <;> simp [writes, pieces] at h ⊢

theorem writes_cl (h : writes i .cl = true) : (∃ sym, i = .clSet sym) ∨
    i ∈ [Instr.ccFromTree, .scHeader, .sdDecode, .setSymlim] := by
  cases i <;> simp [writes, pieces] at h ⊢

theorem writes_tree (h : writes i .tree = true) :
    i ∈ [Instr.ftBuild, .ccToTree, .ctClear, .scHeader, .sdDecode, .acEncode, .adDecode, .setSymlim] := by
  cases i <;> simp [writes, pieces] at h ⊢

theorem answers_only (h : answers i = true) :
    (∃ sym, i = .ftGet sym ∨ i = .ctGetlen sym ∨ i = .clGet sym ∨ ∃ widx, i = .ctGetcode sym widx) ∨
      i ∈ [Instr.decSym, .biRead, .biReadNoeof] := by
  cases i <;> simp [answers] at h ⊢

/-- A command that answers keeps the error state. -/
theorem writes_error_of_answers (h : answers i = true) : writes i .error = false := by
  cases i <;> cases h <;> rfl

/-! ## STATUS, CONFIG and the levels (10_state.md R37, R41, R42) -/

/-- The flags of STATUS and its bits that read 0. -/
theorem status_flags (s : State) :
    s.status.getLsbD 0 = s.busy ∧ s.status.getLsbD 1 = s.err ∧ s.status.getLsbD 2 = s.waitIn ∧
    s.status.getLsbD 3 = s.waitOut ∧ s.status.getLsbD 4 = s.treeValid ∧ s.status.getLsbD 5 = s.biEof ∧
    s.status.getLsbD 6 = s.inOvf ∧ s.status.getLsbD 7 = false ∧ s.status.getLsbD 31 = false := by
  unfold State.status
  refine ⟨?_, ?_, ?_, ?_, ?_, ?_, ?_, ?_, ?_⟩
  all_goals
    -- The width as the sum of the fields' widths, as the lemma about `++` has it.
    show BitVec.getLsbD (w := 1 + 4 + 3 + 8 + 4 + 4 + 1 + 1 + 1 + 1 + 1 + 1 + 1 + 1) _ _ = _
    simp only [BitVec.getLsbD_append]
    simp

/-- The fields of STATUS that are wider than a bit. -/
theorem status_fields (s : State) :
    s.status.extractLsb' 8 4 = s.errCode ∧ s.status.extractLsb' 12 4 = s.errDetail ∧
    s.status.extractLsb' 16 8 = s.curOp ∧ s.status.extractLsb' 24 3 = BitVec.ofNat 3 s.boNbits.val ∧
    s.status.extractLsb' 27 4 = BitVec.ofNat 4 s.biNrem.val := by
  unfold State.status
  refine ⟨?_, ?_, ?_, ?_, ?_⟩
  all_goals
    show BitVec.extractLsb' (n := 1 + 4 + 3 + 8 + 4 + 4 + 1 + 1 + 1 + 1 + 1 + 1 + 1 + 1) _ _ _ = _
    simp (disch := decide) only [BitVec.extractLsb'_append_eq_of_le, BitVec.extractLsb'_append_eq_of_add_le]
    exact BitVec.extractLsb'_eq_self

theorem config_fields (s : State) :
    s.config.extractLsb' 0 9 = s.symLim ∧ s.config.extractLsb' 9 7 = 0 ∧ s.config.extractLsb' 16 8 = 32 ∧
    s.config.extractLsb' 24 8 = 0 := by
  unfold State.config
  refine ⟨?_, ?_, ?_, ?_⟩
  all_goals
    show BitVec.extractLsb' (n := 8 + 8 + 7 + 9) _ _ _ = _
    simp (disch := decide) only [BitVec.extractLsb'_append_eq_of_le, BitVec.extractLsb'_append_eq_of_add_le]
    exact BitVec.extractLsb'_eq_self

theorem busy_iff (s : State) : s.busy = true ↔ s.seq ≠ .idle := by
  unfold State.busy
  split
  · next h => simp [h]
  · next h => simp [h]

theorem waitIn_iff (s : State) : s.waitIn = true ↔ (∃ w a k, s.seq = .running w a (.popIn k)) ∧ s.inQ = [] := by
  unfold State.waitIn
  split
  · next k hp =>
    obtain ⟨w, a, hs⟩ := State.pos_eq_some.1 hp
    simp [hs]
  · next hp =>
    refine ⟨fun h => (nomatch h), fun ⟨⟨w, a, k, hs⟩, _⟩ => ?_⟩
    exact absurd (State.pos_eq_some.2 ⟨w, a, hs⟩) (hp k)

theorem waitOut_iff (s : State) : s.waitOut = true ↔
    (∃ w a it k, s.seq = .running w a (.pushOut it k)) ∧ Config.outDepth ≤ s.outQ.length := by
  unfold State.waitOut
  split
  · next it k hp =>
    obtain ⟨w, a, hs⟩ := State.pos_eq_some.1 hp
    simp [hs]
  · next hp =>
    refine ⟨fun h => (nomatch h), fun ⟨⟨w, a, it, k, hs⟩, _⟩ => ?_⟩
    exact absurd (State.pos_eq_some.2 ⟨w, a, hs⟩) (hp it k)

theorem treeValid_iff (s : State) : s.treeValid = true ↔ s.tree ≠ none := Option.isSome_iff_ne_none

/-- A level that fits 32 bits reads as the number of items. -/
theorem toNat_levelWord {n : Nat} (h : n < 2 ^ 32) : (levelWord n).toNat = n := by
  rw [levelWord, if_pos h]
  exact Nat.mod_eq_of_lt h

end Sys2Proof.Machine
end

section
/-! The statements about the state (10_state.md). -/

namespace Sys2Proof.Proofs

open Sys2Proof Sys2Proof.Machine

/-- Settles O56, from the two ways a step goes: a segment parks only at a point of its command, and the host starts a
command only at its start. -/
theorem stepKeepsTheSequencerLegal : Obligations.StepKeepsTheSequencerLegal :=
  fun _ _ => step_seqLegal

/-- Settles O58: commands write tables below SYMLIM, or run with SYMLIM = 257, beyond which there is no entry. -/
theorem stepKeepsTheTablesClear : Obligations.StepKeepsTheTablesClear := by
  intro s t hl hs hc h
  have key : LimitLegal t ∧ SeqLegal t ∧ TablesClear t :=
    step_keeps (P := fun s => LimitLegal s ∧ SeqLegal s ∧ TablesClear s) (fun _ _ => id)
      (fun _ _ ⟨hl, hs, hc⟩ h =>
        ⟨engineStep_limitLegal hl h, engineStep_seqLegal hs h, engineStep_tablesClear hl hs hc h⟩)
      (fun _ _ ⟨hl, hs, hc⟩ hm => ⟨hm.limitLegal hl, hm.seqLegal hs, hm.tablesClear hc⟩) ⟨hl, hs, hc⟩ h
  exact ⟨key.1, key.2.2⟩

/-- Settles O59: Build() and ToTree() give legal trees, and no other tree is installed. -/
theorem stepKeepsTheTreeLegal : Obligations.StepKeepsTheTreeLegal := by
  intro s t hl htr h
  have key : LimitLegal t ∧ TreeLegal t :=
    step_keeps (P := fun s => LimitLegal s ∧ TreeLegal s) (fun _ _ => id)
      (fun _ _ ⟨hl, htr⟩ h => ⟨engineStep_limitLegal hl h, engineStep_treeLegal hl htr h⟩)
      (fun _ _ ⟨hl, htr⟩ hm => ⟨hm.limitLegal hl, hm.treeLegal htr⟩) ⟨hl, htr⟩ h
  exact key.2

/-- Settles O45: a piece that a command may not write is kept. -/
theorem registersNoCommandWrites : Obligations.RegistersNoCommandWrites := by
  intro i s t h
  obtain ⟨u, hm, r, e, c, d, n, q, rfl⟩ := (exec_segment h).moves
  obtain ⟨harg, hop, hscript, hreads, hdraws⟩ := hm.host
  refine ⟨harg, hop, hscript, hreads, hdraws, fun hn => hm.symLim (writes_false writes_symLim hn),
    fun hn => hm.inOvf (writes_false writes_inOvf hn), fun hn => hm.cnt (writes_false writes_cnt hn), fun hch => ?_,
    fun hch => ?_, fun he hn => hm.eof (writes_false writes_eof hn) he⟩
  · by_contra hn
    obtain ⟨hbuf, hbits⟩ := hm.bo (writes_false writes_bo hn)
    exact hch.elim (· hbuf) (· hbits)
  · by_contra hn
    obtain ⟨hbyte, hrem, heof⟩ := hm.bi (writes_false writes_bi hn)
    exact hch.elim (· hbyte) (·.elim (· hrem) (· heof))

/-- Settles O46: a table that a command may not write is kept. -/
theorem tablesOnlyTheirCommandsWrite : Obligations.TablesOnlyTheirCommandsWrite := by
  intro i s t h
  obtain ⟨u, hm, r, e, c, d, n, q, rfl⟩ := (exec_segment h).moves
  exact ⟨fun hch => by_contra fun hn => hch (hm.ft (writes_false writes_ft hn)),
    fun hch => by_contra fun hn => hch (hm.cl (writes_false writes_cl hn)),
    fun hch => by_contra fun hn => hch (hm.tree (writes_false writes_tree hn))⟩

/-- Settles O47: RESULT changes only where a segment completes. -/
theorem resultWrittenOnlyAtCompletion : Obligations.ResultWrittenOnlyAtCompletion := by
  intro i s t h hr
  cases exec_segment h with
  | waits ht => exact absurd (congrArg State.result ht) hr
  | fails u e info hm ht => exact absurd (ht ▸ hm.result) hr
  | parks u p hm hp ht => exact absurd (ht ▸ hm.result) hr
  | completes u v hm hv ht =>
    subst ht
    have ha : answers i = true := by
      by_contra hn
      exact hr ((hv (Bool.eq_false_iff.2 hn)).trans hm.result)
    exact ⟨answers_only ha, rfl, hm.error (writes_error_of_answers ha)⟩

/-- Settles O57: the engine's step is total from a legal sequencer, and only a host access can leave the window. -/
theorem legalStepsDoNotStop : Obligations.LegalStepsDoNotStop := by
  intro s hs
  obtain ⟨sc, he | ⟨t, ht, -⟩ | ⟨a, hsc, hf⟩⟩ := step_cases s
  · obtain ⟨t, ht⟩ := engineStep_total (s := { s with script := sc }) hs
    exact .inl ⟨t, he.trans ht⟩
  · exact .inl ⟨t, ht⟩
  · exact .inr ⟨a, sc, hsc, hf⟩

/-- Settles O60, one invariant at a time. -/
theorem stepKeepsCursorErrorAndQueues : Obligations.StepKeepsCursorErrorAndQueues := by
  intro s t hc he hf h
  exact ⟨step_keeps (fun _ _ => id) (fun _ _ => engineStep_cursorClean) (fun _ _ hs hm => hm.cursorClean hs) hc h,
    step_keeps (fun _ _ => id) (fun _ _ => engineStep_errorLegal) (fun _ _ hs hm => hm.errorLegal hs) he h,
    step_keeps (fun _ _ => id) (fun _ _ => engineStep_queuesFit) (fun _ _ hs hm => hm.queuesFit hs) hf h⟩

/-- Settles O52: each field of STATUS stands at its bits. -/
theorem statusFields : Obligations.StatusFields := by
  refine ⟨by decide, fun s v => ⟨rfl, ?_⟩⟩
  obtain ⟨h0, h1, h2, h3, h4, h5, h6, h7, h31⟩ := status_flags s
  obtain ⟨hcode, hdetail, hop, hbits, hrem⟩ := status_fields s
  rw [h0, h2, h3, h4, hbits, hrem]
  exact ⟨busy_iff s, h1, waitIn_iff s, waitOut_iff s, treeValid_iff s, h5, h6, h7, hcode, hdetail, hop,
    Nat.mod_eq_of_lt s.boNbits.isLt, Nat.mod_eq_of_lt (s.biNrem.isLt.trans (by decide)), h31⟩

/-- Settles O53: every read is its register with the record of the read. -/
theorem registerReads : Obligations.RegisterReads := fun s _ =>
  ⟨rfl, rfl, rfl, rfl, ⟨s.config, rfl, config_fields s⟩, rfl, rfl, ⟨levelWord s.inQ.length, rfl, toNat_levelWord⟩,
    ⟨levelWord s.outQ.length, rfl, toNat_levelWord⟩, rfl⟩

/-- Settles O55: every table entry of the reset state reads 0, and every invariant holds there. -/
theorem resetStateIsLegal : Obligations.ResetStateIsLegal :=
  ⟨⟨rfl, fun k => ⟨reset_freq k, reset_len k⟩, rfl, rfl, rfl, rfl, rfl, rfl, rfl, rfl, rfl, rfl, rfl, rfl, rfl, rfl,
    rfl, rfl, rfl, rfl⟩, reset_inv⟩

end Sys2Proof.Proofs
end

section
/-! SUPPORT. A segment and the queues (20_memory.md R66, R67, R69): it performs the blocking point it stands at, if any,
and its rest touches neither queue. -/

namespace Sys2Proof.Machine

open Sys2Proof

variable {s t u : State} {i : Instr}

/-- IN and OUT. -/
def State.queues (s : State) : List Item × List Item := (s.inQ, s.outQ)

theorem SameButBO.queues (h : SameButBO s u) : u.queues = s.queues := by
  rw [show u = _ from h]
  rfl

theorem SameButBI.queues (h : SameButBI s u) : u.queues = s.queues := by
  rw [show u = _ from h]
  rfl

theorem SameButHeader.queues (h : SameButHeader s u) : u.queues = s.queues := by
  rw [show u = _ from h]
  rfl

/-- Where the outcome `o` is a next state, that state has the queues `q`. -/
def Leaves (q : List Item × List Item) (o : Out) : Prop := ∀ t, o = .next t → t.queues = q

/-! ## What each shared operation leaves -/

namespace Leaves

variable {q : List Item × List Item} {k : State → Out}

theorem park {p : Pos} (hu : u.queues = q) : Leaves q (parkAt p u) := fun _ h => parkAt_next.1 h ▸ hu

theorem complete (hu : u.queues = q) : Leaves q (complete u) := fun _ h => complete_next.1 h ▸ hu

theorem completeWith {v : Word} (hu : u.queues = q) : Leaves q (completeWith v u) :=
  fun _ h => completeWith_next.1 h ▸ hu

theorem raise {e : ErrKind} {info : Word} (hu : u.queues = q) : Leaves q (raise e info u) :=
  fun _ h => raise_next.1 h ▸ hu

theorem atStart {k : Word → State → Out} (hk : ∀ a, Leaves q (k a u)) : Leaves q (atStart u k) := by
  intro t h
  obtain ⟨w, a, -, h⟩ := atStart_next h
  exact hk a t h

theorem checkSym {sym : Nat} (hu : u.queues = q) (hk : Leaves q (k u)) : Leaves q (checkSym sym u k) := by
  intro t h
  rcases checkSym_next h with ⟨-, rfl⟩ | ⟨-, h⟩
  · exact hu
  · exact hk t h

theorem checkNonneg {a : Word} {e : ErrKind} (hu : u.queues = q) (hk : Leaves q (k u)) :
    Leaves q (checkNonneg a e u k) := by
  intro t h
  rcases checkNonneg_next h with ⟨-, rfl⟩ | ⟨-, h⟩
  · exact hu
  · exact hk t h

theorem checkByteAlphabet (hu : u.queues = q) (hk : Leaves q (k u)) : Leaves q (checkByteAlphabet u k) := by
  intro t h
  rcases checkByteAlphabet_next h with ⟨-, rfl⟩ | ⟨-, h⟩
  · exact hu
  · exact hk t h

theorem withCode {sym : Nat} {k : List Bool → State → Out} (hu : u.queues = q) (hk : ∀ c, Leaves q (k c u)) :
    Leaves q (withCode sym u k) := by
  intro t h
  rcases withCode_next h with ⟨-, rfl⟩ | ⟨_, -, -, rfl⟩ | ⟨_, -, -, -, rfl⟩ | ⟨_, c, -, -, -, h⟩
  · exact hu
  · exact hu
  · exact hu
  · exact hk c t h

theorem checking (hu : u.queues = q) (hk : Leaves q (k u)) : Leaves q (checking k u) := by
  intro t h
  rcases checking_next h with ⟨_, _, -, rfl⟩ | ⟨-, h⟩
  · exact hu
  · exact hk t h

theorem installing (hu : u.queues = q) (hk : ∀ v, v.queues = q → Leaves q (k v)) : Leaves q (installing k u) := by
  intro t h
  rcases installing_next h with ⟨_, -, rfl⟩ | ⟨_, -, h⟩
  · exact hu
  · refine hk _ ?_ t h
    exact hu

theorem emitCode {sym : Nat} {bits : List Bool} (hu : u.queues = q) (hk : ∀ v, v.queues = q → Leaves q (k v)) :
    Leaves q (emitCode sym k bits u) := by
  intro t h
  have hp := (putBits_same bits u).queues.trans hu
  rcases emitCode_next h with ⟨v, hb, h⟩ | ⟨v, _, _, hb, rfl⟩
  · rw [hb] at hp
    exact hk v hp t h
  · rw [hb] at hp
    exact hp

theorem encodeSym {sym : Nat} (hu : u.queues = q) (hk : ∀ v, v.queues = q → Leaves q (k v)) :
    Leaves q (encodeSym sym k u) :=
  .withCode hu fun _ => .emitCode hu hk

theorem closeOut (hu : u.queues = q) : Leaves q (closeOut u) := by
  intro t h
  have hp := (padOut_same 8 u).queues.trans hu
  rcases closeOut_next h with ⟨v, _, hb, rfl⟩ | ⟨v, hb, rfl⟩
  · rw [hb] at hp
    exact hp
  · rw [hb] at hp
    exact hp

theorem emitHeader {left : Nat} {bits : List Bool} (hu : u.queues = q) : Leaves q (emitHeader left bits u) := by
  intro t h
  obtain ⟨v, hv, rfl | ⟨_, _, _, rfl⟩ | ⟨_, rfl⟩⟩ := emitHeader_next h
  · exact hv.queues.trans hu
  · exact hv.queues.trans hu
  · exact hv.queues.trans hu

theorem getBit {p : Pos} {onEof : State → Out} {onBit : Bool → State → Out} (hu : u.queues = q)
    (he : ∀ v, v.queues = q → Leaves q (onEof v)) (hb : ∀ b v, v.queues = q → Leaves q (onBit b v)) :
    Leaves q ((getBit u).andThen p onEof onBit) := by
  rcases getBit_cases u with ⟨-, hg⟩ | ⟨-, -, hg⟩ | ⟨-, -, v, hv, -, hg⟩ <;> rw [hg]
  · exact he u hu
  · exact .park hu
  · exact hb _ v (hv.queues.trans hu)

theorem gotItem {it : Item} {p : Pos} {onEof : State → Out} {onBit : Bool → State → Out} (hu : u.queues = q)
    (he : ∀ v, v.queues = q → Leaves q (onEof v)) (hb : ∀ b v, v.queues = q → Leaves q (onBit b v)) :
    Leaves q ((gotItem it u).andThen p onEof onBit) := by
  cases it with
  | endItem => exact he _ hu
  | byte b => exact hb _ _ hu

theorem walk {k : Nat → State → Out} {tr : CodeTree} (hu : u.queues = q)
    (hk : ∀ x v, v.queues = q → Leaves q (k x v)) : Leaves q (walk k tr u) := by
  intro t h
  rcases walk_next h with ⟨_, _, v, hv, rfl⟩ | ⟨v, hv, rfl⟩ | ⟨x, v, -, hv, h⟩
  · exact hv.queues.trans hu
  · exact hv.queues.trans hu
  · exact hk x v (hv.queues.trans hu) t h

theorem resumeWalk {k : Nat → State → Out} {l r : CodeTree} {it : Item} (hu : u.queues = q)
    (hk : ∀ x v, v.queues = q → Leaves q (k x v)) : Leaves q (resumeWalk k l r it u) := by
  intro t h
  rcases resumeWalk_next h with ⟨_, _, v, hv, rfl⟩ | ⟨v, hv, rfl⟩ | ⟨x, v, -, hv, h⟩
  · exact hv.queues.trans hu
  · exact hv.queues.trans hu
  · exact hk x v (hv.queues.trans hu) t h

theorem decodeSym {k : Nat → State → Out} (hu : u.queues = q) (hk : ∀ x v, v.queues = q → Leaves q (k x v)) :
    Leaves q (decodeSym k u) := by
  intro t h
  rcases decodeSym_next h with ⟨-, rfl⟩ | ⟨tr, -, h⟩
  · exact hu
  · exact Leaves.walk hu hk t h

theorem drained {it : Item} (hu : u.queues = q) (hk : Leaves q (k u)) : Leaves q (drained k it u) := by
  intro t h
  rcases drained_next h with ⟨-, h⟩ | ⟨_, -, rfl⟩
  · exact hk t h
  · exact hu

theorem readHeader {left v : Nat} (hu : u.queues = q) (hk : ∀ x, x.queues = q → Leaves q (k x)) :
    Leaves q (readHeader k left v u) := by
  intro t h
  obtain ⟨x, hx, ⟨_, _, rfl⟩ | rfl | h⟩ := readHeader_next h
  · exact hx.queues.trans hu
  · exact hx.queues.trans hu
  · exact hk x (hx.queues.trans hu) t h

theorem countData {sym : Nat} (hu : u.queues = q) (hk : ∀ v, v.queues = q → Leaves q (k v)) :
    Leaves q (countData sym k u) := by
  intro t h
  rcases countData_next h with ⟨-, rfl⟩ | ⟨-, h⟩
  · exact hu
  · refine hk _ ?_ t h
    exact hu

/-! ## What the parts of the protocol commands leave -/

theorem scanItem {it : Item} (hu : u.queues = q) : Leaves q (scanItem it u) := by
  cases it with
  | endItem => exact .complete hu
  | byte b =>
    unfold Machine.scanItem
    dsimp only
    split
    · exact .raise hu
    · exact .park hu

theorem scEncoded {sym : Nat} (hu : u.queues = q) : Leaves q (scEncoded sym u) := by
  unfold Machine.scEncoded
  split
  · exact .closeOut hu
  · exact .park hu

theorem scEncodeItem {it : Item} (hu : u.queues = q) : Leaves q (scEncodeItem it u) := by
  cases it with
  | endItem => exact .encodeSym hu fun _ => .scEncoded
  | byte b => exact .encodeSym hu fun _ => .scEncoded

theorem acEncoded {sym : Nat} (hu : u.queues = q) : Leaves q (acEncoded sym u) := by
  unfold Machine.acEncoded
  split
  · exact .closeOut hu
  · exact .countData hu fun _ => .park

theorem acEncodeItem {it : Item} (hu : u.queues = q) : Leaves q (acEncodeItem it u) := by
  cases it with
  | endItem => exact .encodeSym hu fun _ => .acEncoded
  | byte b => exact .encodeSym hu fun _ => .acEncoded

theorem sdDecoded {sym : Nat} (hu : u.queues = q) : Leaves q (sdDecoded sym u) := by
  unfold Machine.sdDecoded
  split
  · exact .park hu
  · exact .park hu

theorem sdHeaderRead (hu : u.queues = q) : Leaves q (sdHeaderRead u) :=
  .checking hu (.installing hu fun _ hv => .decodeSym hv fun _ _ => .sdDecoded)

theorem sdHeaderItem {left v : Nat} {it : Item} (hu : u.queues = q) : Leaves q (sdHeaderItem left v it u) :=
  .gotItem hu (fun _ => .raise) fun b x hx =>
    .readHeader ((headerBit_same left v b x).queues.trans hx) fun _ => .sdHeaderRead

theorem adDecoded {sym : Nat} (hu : u.queues = q) : Leaves q (adDecoded sym u) := by
  unfold Machine.adDecoded
  split
  · exact .park hu
  · exact .park hu

end Leaves

/-! ## Every command -/

/-- A command's first segment touches neither queue. -/
theorem exec_start_leaves (hs : s.pos = some .start) : Leaves s.queues (exec i s) := by
  unfold exec
  cases i with
  | ftFill => exact .atStart fun _ => .checkNonneg rfl (.complete rfl)
  | ftGet sym => exact .atStart fun _ => .checkSym rfl (.completeWith rfl)
  | ftSet sym => exact .atStart fun _ => .checkSym rfl (.checkNonneg rfl (.complete rfl))
  | ftInc sym =>
    refine .atStart fun _ => .checkSym rfl ?_
    split
    · exact .raise rfl
    · exact .complete rfl
  | ftBuild => exact .atStart fun _ => .complete rfl
  | ctGetlen sym => exact .atStart fun _ => .withCode rfl fun _ => .completeWith rfl
  | ctGetcode sym widx => exact .atStart fun _ => .withCode rfl fun _ => .completeWith rfl
  | ctClear => exact .atStart fun _ => .complete rfl
  | clGet sym => exact .atStart fun _ => .checkSym rfl (.completeWith rfl)
  | clSet sym => exact .atStart fun _ => .checkSym rfl (.checkNonneg rfl (.complete rfl))
  | ccCheck => exact .atStart fun _ => .checking rfl (.complete rfl)
  | ccFromTree =>
    refine .atStart fun _ => ?_
    split
    · exact .raise rfl
    · exact .complete rfl
  | ccToTree => exact .atStart fun _ => .installing rfl fun _ => .complete
  | encSym sym =>
    simp only [execEncSym, hs]
    exact .encodeSym rfl fun _ => .complete
  | decSym =>
    simp only [execDecSym, hs]
    exact .decodeSym rfl fun _ _ => .completeWith
  | boWrite =>
    have hb := (putBit_same (s.argument == 1) s).queues
    simp only [execBoWrite, hs]
    split
    · exact .raise rfl
    · split
      · next h =>
        rw [h] at hb
        exact .complete hb
      · next h =>
        rw [h] at hb
        exact .park hb
  | boClose =>
    simp only [execBoClose, hs]
    exact .closeOut rfl
  | biRead =>
    simp only [execBiRead, hs]
    exact .getBit rfl (fun _ => .completeWith) fun _ _ => .completeWith
  | biReadNoeof =>
    simp only [execBiReadNoeof, hs]
    exact .getBit rfl (fun _ => .raise) fun _ _ => .completeWith
  | streamReset => exact .atStart fun _ => .complete rfl
  | inSkip =>
    simp only [execInSkip, hs]
    exact .park rfl
  | scScan =>
    simp only [execScScan, hs]
    exact .checkByteAlphabet rfl (.park rfl)
  | scHeader =>
    simp only [execScHeader, hs]
    exact .checkByteAlphabet rfl (.installing rfl fun _ => .emitHeader)
  | scEncode =>
    simp only [execScEncode, hs]
    exact .checkByteAlphabet rfl (.park rfl)
  | sdDecode =>
    simp only [execSdDecode, hs]
    exact .checkByteAlphabet rfl (.readHeader rfl fun _ => .sdHeaderRead)
  | acEncode =>
    simp only [execAcEncode, hs]
    exact .checkByteAlphabet rfl (.park rfl)
  | adDecode =>
    simp only [execAdDecode, hs]
    exact .checkByteAlphabet rfl (.decodeSym rfl fun _ _ => .adDecoded)
  | nop => exact .atStart fun _ => .complete rfl
  | errClear => exact .atStart fun _ => .complete rfl
  | setSymlim =>
    refine .atStart fun _ => ?_
    split
    · exact .raise rfl
    · split
      · exact .raise rfl
      · exact .complete rfl

/-- At a PopIn a segment is that PopIn, and what follows touches neither queue. -/
theorem exec_at_popIn {k : PopPoint} (hs : s.pos = some (.popIn k)) (hp : hasPop i k = true) :
    ∃ f, exec i s = popIn s f ∧ ∀ it u, Leaves u.queues (f it u) := by
  match i, k, hp with
  | .decSym, .walk l r, _ =>
    exact ⟨resumeWalk decSymDone l r, by simp only [exec, execDecSym, hs],
      fun _ _ => .resumeWalk rfl fun _ _ => .completeWith⟩
  | .biRead, .bit, _ =>
    exact ⟨fun it s => (gotItem it s).andThen (.popIn .bit) readSentinel readDone, by simp only [exec, execBiRead, hs],
      fun _ _ => .gotItem rfl (fun _ => .completeWith) fun _ _ => .completeWith⟩
  | .biReadNoeof, .bit, _ =>
    exact ⟨fun it s => (gotItem it s).andThen (.popIn .bit) unexpectedEof readDone,
      by simp only [exec, execBiReadNoeof, hs], fun _ _ => .gotItem rfl (fun _ => .raise) fun _ _ => .completeWith⟩
  | .inSkip, .drain, _ =>
    exact ⟨drained complete, by simp only [exec, execInSkip, hs], fun _ _ => .drained rfl (.complete rfl)⟩
  | .scScan, .item, _ => exact ⟨scanItem, by simp only [exec, execScScan, hs], fun _ _ => .scanItem rfl⟩
  | .scEncode, .item, _ => exact ⟨scEncodeItem, by simp only [exec, execScEncode, hs], fun _ _ => .scEncodeItem rfl⟩
  | .acEncode, .item, _ => exact ⟨acEncodeItem, by simp only [exec, execAcEncode, hs], fun _ _ => .acEncodeItem rfl⟩
  | .sdDecode, .header left v, _ =>
    exact ⟨sdHeaderItem left v, by simp only [exec, execSdDecode, hs], fun _ _ => .sdHeaderItem rfl⟩
  | .sdDecode, .walk l r, _ =>
    exact ⟨resumeWalk sdDecoded l r, by simp only [exec, execSdDecode, hs],
      fun _ _ => .resumeWalk rfl fun _ _ => .sdDecoded⟩
  | .sdDecode, .drain, _ =>
    exact ⟨drained drainDone, by simp only [exec, execSdDecode, hs], fun _ _ => .drained rfl (.park rfl)⟩
  | .adDecode, .walk l r, _ =>
    exact ⟨resumeWalk adDecoded l r, by simp only [exec, execAdDecode, hs],
      fun _ _ => .resumeWalk rfl fun _ _ => .adDecoded⟩
  | .adDecode, .drain, _ =>
    exact ⟨drained drainDone, by simp only [exec, execAdDecode, hs], fun _ _ => .drained rfl (.park rfl)⟩

/-- At a PushOut a segment is that PushOut, and what follows touches neither queue. -/
theorem exec_at_pushOut {it : Item} {k : PushPoint} (hs : s.pos = some (.pushOut it k)) (hp : hasPush i k = true) :
    ∃ f, exec i s = pushOut it s f ∧ ∀ u, Leaves u.queues (f u) := by
  match i, k, hp with
  | .encSym _, .code sym rest, _ =>
    exact ⟨emitCode sym complete rest, by simp only [exec, execEncSym, hs],
      fun _ => .emitCode rfl fun _ => .complete⟩
  | .boWrite, .bit, _ => exact ⟨complete, by simp only [exec, execBoWrite, hs], fun _ => .complete rfl⟩
  | .boClose, .pad, _ => exact ⟨closeOut, by simp only [exec, execBoClose, hs], fun _ => .closeOut rfl⟩
  | .boClose, .close, _ => exact ⟨complete, by simp only [exec, execBoClose, hs], fun _ => .complete rfl⟩
  | .scHeader, .header left rest, _ =>
    exact ⟨emitHeader left rest, by simp only [exec, execScHeader, hs], fun _ => .emitHeader rfl⟩
  | .scEncode, .code sym rest, _ =>
    exact ⟨emitCode sym (scEncoded sym) rest, by simp only [exec, execScEncode, hs],
      fun _ => .emitCode rfl fun _ => .scEncoded⟩
  | .scEncode, .pad, _ => exact ⟨closeOut, by simp only [exec, execScEncode, hs], fun _ => .closeOut rfl⟩
  | .scEncode, .close, _ => exact ⟨complete, by simp only [exec, execScEncode, hs], fun _ => .complete rfl⟩
  | .acEncode, .code sym rest, _ =>
    exact ⟨emitCode sym (acEncoded sym) rest, by simp only [exec, execAcEncode, hs],
      fun _ => .emitCode rfl fun _ => .acEncoded⟩
  | .acEncode, .pad, _ => exact ⟨closeOut, by simp only [exec, execAcEncode, hs], fun _ => .closeOut rfl⟩
  | .acEncode, .close, _ => exact ⟨complete, by simp only [exec, execAcEncode, hs], fun _ => .complete rfl⟩
  | .sdDecode, .data _, _ =>
    exact ⟨decodeSym sdDecoded, by simp only [exec, execSdDecode, hs],
      fun _ => .decodeSym rfl fun _ _ => .sdDecoded⟩
  | .sdDecode, .finish, _ => exact ⟨decodeDone, by simp only [exec, execSdDecode, hs], fun _ => .complete rfl⟩
  | .adDecode, .data sym, _ =>
    exact ⟨countData sym (decodeSym adDecoded), by simp only [exec, execAdDecode, hs],
      fun _ => .countData rfl fun _ hv => .decodeSym hv fun _ _ => .adDecoded⟩
  | .adDecode, .finish, _ => exact ⟨decodeDone, by simp only [exec, execAdDecode, hs], fun _ => .complete rfl⟩

end Sys2Proof.Machine
end

section
/-! SUPPORT. The engine's step and each turn of the script, one equation a case (20_memory.md R61, R66, R67, R69). -/

namespace Sys2Proof.Machine

open Sys2Proof

variable {s : State} {i : Instr}

theorem popIn_empty {k : Item → State → Out} (h : s.inQ = []) : popIn s k = .next s := by
  unfold popIn
  rw [h]

theorem pushOut_full {it : Item} {k : State → Out} (h : Config.outDepth ≤ s.outQ.length) :
    pushOut it s k = .next s :=
  if_neg (Nat.not_lt.2 h)

/-- The engine is not enabled when it is IDLE, at a PopIn of an empty IN or at a PushOut of a full OUT. -/
theorem engineEnabled_eq_false : s.engineEnabled = false ↔ s.seq = .idle ∨
    ((∃ w a k, s.seq = .running w a (.popIn k)) ∧ s.inQ = []) ∨
    ((∃ w a it k, s.seq = .running w a (.pushOut it k)) ∧ Config.outDepth ≤ s.outQ.length) := by
  have hidle : s.seq = .idle ↔ s.busy = false := by rw [← Bool.not_eq_true, busy_iff, not_not]
  rw [hidle, ← waitIn_iff, ← waitOut_iff, State.engineEnabled]
  simp only [Bool.and_eq_false_iff, Bool.not_eq_false', or_assoc]

theorem engineStep_idle (h : s.seq = .idle) : engineStep s = .next s := by
  unfold engineStep
  rw [h]

theorem engineStep_running {w a : Word} {p : Pos} (hs : s.seq = .running w a p) (hd : decode w = .ok i) :
    engineStep s = exec i s := by
  unfold engineStep
  simp only [hs, hd]

/-! ## The turns -/

theorem step_of_empty (h : s.script = []) : step s = engineStep s := by
  unfold step takeTurn
  rw [h]

theorem step_of_engine {rest : List Turn} (h : s.script = .engine :: rest) :
    step s = engineStep { s with script := rest } := by
  unfold step takeTurn
  rw [h]

theorem step_of_host {a : Access} {rest : List Turn} (h : s.script = .host a :: rest) :
    step s = hostAccess a { s with script := rest } := by
  unfold step takeTurn
  rw [h]

theorem step_of_poll {rest : List Turn} (h : s.script = .poll :: rest) :
    step s = .next { s with
      reads := s.reads ++ [(offStatus, s.status)],
      script := if s.seq = .idle then rest else .engine :: .poll :: rest } := by
  unfold step takeTurn
  rw [h]
  dsimp only [pollStatus]
  by_cases hidle : s.seq = .idle
  · rw [if_pos hidle, if_neg fun hb => (busy_iff s).1 hb hidle]
    rfl
  · rw [if_neg hidle, if_pos ((busy_iff s).2 hidle)]
    rfl

theorem step_of_push_room {v : Word} {rest : List Turn} (h : s.script = .push v :: rest)
    (hq : s.inQ.length < Config.inDepth) :
    step s = hostAccess (.write offInPush 4 v) { s with script := rest } := by
  unfold step takeTurn
  rw [h]
  exact if_pos hq

theorem step_of_push_full {v : Word} {rest : List Turn} (h : s.script = .push v :: rest)
    (hq : Config.inDepth ≤ s.inQ.length) : step s = .next { s with script := .engine :: .push v :: rest } := by
  unfold step takeTurn
  rw [h]
  exact if_neg (Nat.not_lt.2 hq)

end Sys2Proof.Machine
end

section
/-! SUPPORT. The accesses of the register window, one equation a case (20_memory.md R60, R63, R64, R68). -/

namespace Sys2Proof.Machine

open Sys2Proof

variable {s : State} {off size : Nat} {v w : Word}

theorem hostAccess_write (hoff : off < 64) (ha : off % 4 = 0) :
    hostAccess (.write off 4 v) s = .next (writeReg off v s) := by
  unfold hostAccess
  dsimp only
  rw [if_neg (Nat.not_le.2 hoff), if_pos ⟨rfl, ha⟩]

theorem hostAccess_read (hoff : off < 64) (ha : off % 4 = 0) :
    hostAccess (.read off 4) s = .next ((readReg off s).2.record off (readReg off s).1) := by
  unfold hostAccess
  dsimp only
  rw [if_neg (Nat.not_le.2 hoff), if_pos ⟨rfl, ha⟩]

/-- A write of another size or alignment has no effect. -/
theorem hostAccess_write_undefined (hoff : off < 64) (h : size ≠ 4 ∨ off % 4 ≠ 0) :
    hostAccess (.write off size v) s = .next s := by
  unfold hostAccess
  dsimp only
  rw [if_neg (Nat.not_le.2 hoff), if_neg (not_and_or.2 h)]

/-- A read of another size or alignment draws the next free value (log 4). -/
theorem hostAccess_read_undefined (hoff : off < 64) (h : size ≠ 4 ∨ off % 4 ≠ 0) :
    hostAccess (.read off size) s =
      .next { s with reads := s.reads ++ [(off, Config.busDraw s.draws)], draws := s.draws + 1 } := by
  unfold hostAccess
  dsimp only
  rw [if_neg (Nat.not_le.2 hoff), if_neg (not_and_or.2 h)]
  rfl

/-! ## CMD -/

theorem writeCmd_busy (hb : s.busy = true) : s.writeCmd w = s := if_pos hb

theorem writeCmd_error (hb : s.busy = false) (he : s.err = true) (hw : w ≠ 0x00000001) : s.writeCmd w = s := by
  have hig : (s.err && w != 0x00000001) = true := by rw [he, Bool.true_and, bne_iff_ne]; exact hw
  unfold State.writeCmd
  rw [if_neg (Bool.eq_false_iff.1 hb), if_pos hig]

theorem writeCmd_ready (hb : s.busy = false) (hr : s.err = false ∨ w = 0x00000001) :
    s.writeCmd w = { s with curOp := w.extractLsb' 0 8, seq := .running w s.arg .start } := by
  have hok : (s.err && w != 0x00000001) = false := by
    rcases hr with he | rfl
    · rw [he, Bool.false_and]
    · exact Bool.and_false _
  unfold State.writeCmd
  rw [if_neg (Bool.eq_false_iff.1 hb), if_neg (Bool.eq_false_iff.1 hok)]
  rfl

/-! ## IN_PUSH and OUT_POP -/

theorem pushIn_full (h : s.inQ.length = Config.inDepth) : s.pushIn v = { s with inOvf := true } := if_pos h

theorem pushIn_end (hq : s.inQ.length ≠ Config.inDepth) (hv : v.getLsbD 8 = true) :
    s.pushIn v = { s with inQ := s.inQ ++ [.endItem] } := by
  unfold State.pushIn
  rw [if_neg hq, if_pos hv]

theorem pushIn_byte (hq : s.inQ.length ≠ Config.inDepth) (hv : v.getLsbD 8 = false) :
    s.pushIn v = { s with inQ := s.inQ ++ [.byte (v.extractLsb' 0 8)] } := by
  unfold State.pushIn
  rw [if_neg hq, if_neg (Bool.eq_false_iff.1 hv)]
  rfl

theorem popOut_empty (h : s.outQ = []) : s.popOut = (0x80000000, s) := by
  unfold State.popOut
  rw [h]

theorem popOut_cons {it : Item} {rest : List Item} (h : s.outQ = it :: rest) :
    s.popOut = (it.word, { s with outQ := rest }) := by
  unfold State.popOut
  rw [h]

theorem readReg_outPop : readReg 0x28 s = s.popOut := rfl

end Sys2Proof.Machine
end

section
/-! The statements about the engine's segments and the register window (20_memory.md). -/

namespace Sys2Proof.Proofs

open Sys2Proof Sys2Proof.Machine

/-- Settles O48: what precedes a blocking point and what follows it touch neither queue, and a segment performs at most
one. -/
theorem segmentsKeepQueueOrder : Obligations.SegmentsKeepQueueOrder := by
  intro i s t h
  obtain ⟨p, hs, hp⟩ := hasPos_of_next h
  cases p with
  | start =>
    obtain ⟨hin, hout⟩ := Prod.mk.inj (exec_start_leaves hs t h)
    exact ⟨.inl hin, .inl hout⟩
  | popIn k =>
    obtain ⟨f, hf, hrest⟩ := exec_at_popIn hs hp
    rcases popIn_next (hf ▸ h) with ⟨-, rfl⟩ | ⟨it, rest, hq, hk⟩
    · exact ⟨.inl rfl, .inl rfl⟩
    · obtain ⟨hin, hout⟩ := Prod.mk.inj (hrest it _ t hk)
      exact ⟨.inr ⟨it, hin ▸ hq⟩, .inl hout⟩
  | pushOut it k =>
    obtain ⟨f, hf, hrest⟩ := exec_at_pushOut hs hp
    rcases pushOut_next (hf ▸ h) with ⟨-, rfl⟩ | ⟨-, hk⟩
    · exact ⟨.inl rfl, .inl rfl⟩
    · obtain ⟨hin, hout⟩ := Prod.mk.inj (hrest _ t hk)
      exact ⟨.inl hin, .inr ⟨it, hout⟩⟩

/-- Settles O5: an engine that is not enabled is IDLE or waits at its blocking point. -/
theorem disabledEngineHasNoStep : Obligations.DisabledEngineHasNoStep := by
  intro s hs he
  rcases engineEnabled_eq_false.1 he with hidle | ⟨⟨w, a, k, hseq⟩, hq⟩ | ⟨⟨w, a, it, k, hseq⟩, hq⟩
  · exact engineStep_idle hidle
  · obtain hstart | ⟨i, hd, hp, -⟩ := hs.of_running hseq
    · cases hstart
    · obtain ⟨f, hf, -⟩ := exec_at_popIn (State.pos_eq_some.2 ⟨w, a, hseq⟩) hp
      rw [engineStep_running hseq hd, hf, popIn_empty hq]
  · obtain hstart | ⟨i, hd, hp, -⟩ := hs.of_running hseq
    · cases hstart
    · obtain ⟨f, hf, -⟩ := exec_at_pushOut (State.pos_eq_some.2 ⟨w, a, hseq⟩) hp
      rw [engineStep_running hseq hd, hf, pushOut_full hq]

/-- Settles O4, one turn after another. -/
theorem stepRunsTheDecodedCommand : Obligations.StepRunsTheDecodedCommand := by
  intro s
  refine ⟨step_of_empty, fun _ => step_of_engine, fun w a p i hseq hd => ?_, fun _ _ => step_of_host,
    fun _ => step_of_poll, fun _ _ h => ⟨step_of_push_room h, step_of_push_full h⟩⟩
  exact ⟨engineStep_running hseq hd, fun h => (step_of_empty h).trans (engineStep_running hseq hd),
    fun _ h => (step_of_engine h).trans (engineStep_running hseq hd)⟩

/-- Settles O49: the three ways of a CMD write. -/
theorem cmdWriteAcceptance : Obligations.CmdWriteAcceptance := by
  intro s w
  rw [hostAccess_write (by decide) rfl]
  exact ⟨fun hb => congrArg _ (writeCmd_busy hb), fun hb he hw => congrArg _ (writeCmd_error hb he hw),
    fun hb hr => congrArg _ (writeCmd_ready hb hr)⟩

/-- Settles O50: the three ways of an IN_PUSH write and of an OUT_POP read. -/
theorem queueRegisterAccesses : Obligations.QueueRegisterAccesses := by
  intro s v rest
  rw [hostAccess_write (by decide) rfl, hostAccess_read (by decide) rfl]
  refine ⟨fun h => congrArg _ (pushIn_full h), fun hq hv => congrArg _ (pushIn_end hq hv),
    fun hq hv => congrArg _ (pushIn_byte hq hv), fun h => ?_, fun h => ?_, fun b h => ?_⟩
  · rw [readReg_outPop, popOut_empty h]
    rfl
  · rw [readReg_outPop, popOut_cons h]
    rfl
  · rw [readReg_outPop, popOut_cons h]
    rfl

/-- Settles O51: neither the accesses of another size or alignment nor the registers of the other direction reach the
block. -/
theorem undefinedAccessesHaveNoEffect : Obligations.UndefinedAccessesHaveNoEffect := by
  intro s off size v hoff
  refine ⟨fun h => ⟨hostAccess_write_undefined hoff h, _, hostAccess_read_undefined hoff h⟩, fun h => ?_, fun h => ?_⟩
  · fin_cases h <;> rfl
  · fin_cases h <;> rfl

end Sys2Proof.Proofs
end

section
/-! SUPPORT. The decoder, one equation a case, and the fields of a word (30_encoding.md R90 to R92, R98, R99). -/

namespace Sys2Proof

variable {w : Word} {r : Row} {i : Instr}

/-! ## The search of the opcode map -/

theorem opTable_op_nodup : (opTable.map Row.op).Nodup := by decide

/-- An opcode has one row at most. -/
theorem opTable_row_unique {r' : Row} (hr : r ∈ opTable) (hr' : r' ∈ opTable) (h : r.op = r'.op) : r = r' :=
  List.inj_on_of_nodup_map opTable_op_nodup hr hr' h

theorem decode_of_no_row (h : ∀ r ∈ opTable, r.op ≠ opOf w) : decode w = .error .opcode := by
  have hfind : opTable.find? (fun r => r.op == opOf w) = none :=
    List.find?_eq_none.2 fun r hr => by rw [beq_iff_eq]; exact h r hr
  unfold decode
  rw [hfind]

theorem decode_of_row (hr : r ∈ opTable) (ho : r.op = opOf w) :
    decode w = if w &&& r.mask = r.bits then .ok (r.make (symOf w) (widxOf w)) else .error .reserved := by
  have hfind : opTable.find? (fun r => r.op == opOf w) = some r := by
    cases hf : opTable.find? (fun r => r.op == opOf w) with
    | none => exact absurd (beq_iff_eq.2 ho) (List.find?_eq_none.1 hf r hr)
    | some r' =>
      have ho' : r'.op = opOf w := beq_iff_eq.1 (List.find?_some (p := fun r : Row => r.op == opOf w) hf)
      rw [opTable_row_unique (List.mem_of_find?_eq_some hf) hr (ho'.trans ho.symm)]
  unfold decode
  rw [hfind]

/-- A word decodes by a row that has its opcode and matches its fixed bits. -/
theorem decode_eq_ok_iff : decode w = .ok i ↔
    ∃ r ∈ opTable, r.op = opOf w ∧ w &&& r.mask = r.bits ∧ r.make (symOf w) (widxOf w) = i := by
  constructor
  · intro h
    by_cases hex : ∃ r ∈ opTable, r.op = opOf w
    · obtain ⟨r, hr, ho⟩ := hex
      rw [decode_of_row hr ho] at h
      split at h
      next hm => exact ⟨r, hr, ho, hm, Except.ok.inj h⟩
      next => cases h
    · rw [decode_of_no_row fun r hr ho => hex ⟨r, hr, ho⟩] at h
      cases h
  · rintro ⟨r, hr, ho, hm, rfl⟩
    rw [decode_of_row hr ho, if_pos hm]

/-! ## The rows -/

/-- What a row of the opcode map is: of one of the three layouts, and building commands of its opcode whose operands are
those it is given and 0 where it takes none (30_encoding.md R96). -/
inductive Row.Laid : Row → Prop
  | plain {op : Byte} {i : Instr} (ho : i.opcode = op := by rfl) (hs : i.symField = 0 := by rfl)
      (hw : i.widxField = 0 := by rfl) : Laid (plainRow op i)
  | sym {op : Byte} {make : Nat → Instr} (ho : ∀ n, (make n).opcode = op := by intro; rfl)
      (hs : ∀ n, (make n).symField = n := by intro; rfl)
      (hw : ∀ n, (make n).widxField = 0 := by intro; rfl) : Laid (symRow op make)
  | symWidx {op : Byte} {make : Nat → Nat → Instr} (ho : ∀ n k, (make n k).opcode = op := by intros; rfl)
      (hs : ∀ n k, (make n k).symField = n := by intros; rfl)
      (hw : ∀ n k, (make n k).widxField = k := by intros; rfl) : Laid (symWidxRow op make)

theorem opTable_laid : ∀ r ∈ opTable, r.Laid := by
  simp only [opTable, List.cons_append, List.nil_append, List.forall_mem_cons]
  exact ⟨.plain, .sym, .sym, .sym, .plain, .sym, .symWidx, .plain, .sym, .sym, .plain, .plain, .plain,
    .sym, .plain, .plain, .plain, .plain, .plain, .plain, .plain, .plain, .plain, .plain, .plain,
    .plain, .plain, .plain, .plain, .plain, List.forall_mem_nil _⟩

/-- The row of a command's opcode builds it from its own operands. -/
theorem find_row_of_opcode (i : Instr) :
    (opTable.find? fun r => r.op == i.opcode).map (fun r => r.make i.symField i.widxField) = some i := by
  cases i <;> rfl

theorem exists_row (i : Instr) : ∃ r ∈ opTable, r.make i.symField i.widxField = i := by
  obtain ⟨r, hr, hi⟩ := Option.map_eq_some_iff.1 (find_row_of_opcode i)
  exact ⟨r, List.mem_of_find?_eq_some hr, hi⟩

theorem Row.Laid.opcode_make (h : r.Laid) (sym widx : Nat) : (r.make sym widx).opcode = r.op := by
  cases h with
  | plain ho => exact ho
  | sym ho => exact ho sym
  | symWidx ho => exact ho sym widx

/-! ## The fields of a command's word -/

theorem getLsbD_opOf (w : Word) (j : Nat) : (opOf w).getLsbD j = (decide (j < 8) && w.getLsbD j) := by
  simp [opOf]

theorem testBit_symOf (w : Word) (j : Nat) : (symOf w).testBit j = (decide (j < 9) && w.getLsbD (8 + j)) := by
  rw [symOf, BitVec.testBit_toNat, BitVec.getLsbD_extractLsb']

theorem testBit_widxOf (w : Word) (j : Nat) : (widxOf w).testBit j = (decide (j < 3) && w.getLsbD (17 + j)) := by
  rw [widxOf, BitVec.testBit_toNat, BitVec.getLsbD_extractLsb']

theorem getLsbD_encode {j : Nat} (hj : j < 32) : (encode i).getLsbD j =
    (i.opcode.getLsbD j || (decide (8 ≤ j) && i.symField.testBit (j - 8)) ||
      (decide (17 ≤ j) && i.widxField.testBit (j - 17))) := by
  have hsub (k : Nat) : j - k < 32 := by omega
  have hle (k : Nat) : decide (k ≤ j) = !decide (j < k) := by rw [← decide_not, decide_eq_decide, Nat.not_lt]
  simp [encode, hj, hle, -BitVec.getLsbD_eq_getElem, BitVec.getLsbD_ofNat, hsub]

theorem opOf_encode (i : Instr) : opOf (encode i) = i.opcode := Laws.RowWord.op_of_word _ _ _

theorem symOf_encode (h : i.symField < 512) : symOf (encode i) = i.symField := by
  apply Nat.eq_of_testBit_eq
  intro j
  rw [testBit_symOf]
  by_cases hj : j < 9
  · rw [getLsbD_encode (by omega), BitVec.getLsbD_of_ge _ _ (by omega)]
    simp [hj, show ¬ 17 ≤ 8 + j by omega]
  · rw [Nat.testBit_lt_two_pow (h.trans_le (Nat.pow_le_pow_right Nat.two_pos (Nat.not_lt.1 hj)))]
    simp [hj]

theorem widxOf_encode (hs : i.symField < 512) (hw : i.widxField < 8) : widxOf (encode i) = i.widxField := by
  apply Nat.eq_of_testBit_eq
  intro j
  rw [testBit_widxOf]
  by_cases hj : j < 3
  · have hsym : i.symField.testBit (17 + j - 8) = false :=
      Nat.testBit_lt_two_pow (hs.trans_le (Nat.pow_le_pow_right Nat.two_pos (show 9 ≤ 17 + j - 8 by omega)))
    rw [getLsbD_encode (by omega), BitVec.getLsbD_of_ge _ _ (by omega), hsym]
    simp [hj]
  · rw [Nat.testBit_lt_two_pow (hw.trans_le (Nat.pow_le_pow_right Nat.two_pos (Nat.not_lt.1 hj)))]
    simp [hj]

/-- The word of a well-formed command has the fixed bits of the row that builds the command. -/
theorem Row.Laid.encode_match (h : r.Laid) {sym widx : Nat} (hwf : (r.make sym widx).WellFormed) :
    encode (r.make sym widx) &&& r.mask = r.bits := by
  obtain ⟨hs, hw⟩ := hwf
  cases h with
  | @plain op i ho hs0 hw0 =>
    show encode i &&& BitVec.allOnes 32 = op.setWidth 32
    rw [encode, ho, hs0, hw0, BitVec.and_allOnes]
    simp
  | @sym op make ho hs0 hw0 =>
    show encode (make sym) &&& 0xFFFE00FF = op.setWidth 32
    rw [encode, ho, hw0]
    exact Laws.RowWord.masked_sym_word _ _ hs
  | @symWidx op make ho hs0 hw0 =>
    show encode (make sym widx) &&& 0xFFF000FF = op.setWidth 32
    rw [encode, ho]
    exact Laws.RowWord.masked_word _ _ _ hs hw

/-- A word that matches a row whose mask has every bit from `n` on is 0 there. -/
theorem getLsbD_of_match {m : Word} {op : Byte} {n : Nat} (h : w &&& m = op.setWidth 32) (h8 : 8 ≤ n)
    (hm : ∀ j < 32, n ≤ j → m.getLsbD j = true) : ∀ j, n ≤ j → w.getLsbD j = false := by
  intro j hj
  by_cases hj32 : j < 32
  · have hbit := congrArg (BitVec.getLsbD · j) h
    simpa [hm j hj32 hj, BitVec.getLsbD_of_ge op j (h8.trans hj)] using hbit
  · exact BitVec.getLsbD_of_ge _ _ (Nat.not_lt.1 hj32)

/-- A word whose reserved bits are 0 is the word of any command that has its three fields. -/
theorem encode_eq_of_fields (ho : i.opcode = opOf w) (hs : i.symField = symOf w) (hw : i.widxField = widxOf w)
    (hres : ∀ j, 20 ≤ j → w.getLsbD j = false) : encode i = w := by
  apply BitVec.eq_of_getLsbD_eq
  intro j hj
  rw [getLsbD_encode hj, ho, hs, hw, getLsbD_opOf, testBit_symOf, testBit_widxOf]
  rcases Nat.lt_or_ge j 8 with h8 | h8
  · simp [h8, Nat.not_le.2 h8, show ¬ 17 ≤ j by omega]
  rcases Nat.lt_or_ge j 17 with h17 | h17
  · simp [h8, Nat.not_lt.2 h8, Nat.not_le.2 h17, Nat.add_sub_cancel' h8, show j - 8 < 9 by omega]
  rcases Nat.lt_or_ge j 20 with h20 | h20
  · simp [h8, Nat.not_lt.2 h8, h17, Nat.add_sub_cancel' h17, show ¬ j - 8 < 9 by omega, show j - 17 < 3 by omega]
  · simp [hres j h20, Nat.not_lt.2 h8, show ¬ j - 8 < 9 by omega, show ¬ j - 17 < 3 by omega]

/-! ## Round trip -/

theorem decode_encode (h : i.WellFormed) : decode (encode i) = .ok i := by
  obtain ⟨r, hr, hi⟩ := exists_row i
  have hlaid := opTable_laid r hr
  refine decode_eq_ok_iff.2 ⟨r, hr, ?_, ?_, ?_⟩
  · rw [opOf_encode, ← hlaid.opcode_make i.symField i.widxField, hi]
  · rw [← hi]
    exact hlaid.encode_match (hi.symm ▸ h)
  · rw [symOf_encode h.1, widxOf_encode h.1 h.2, hi]

/-- The operands of the command a row builds are no larger than those the row is given. -/
theorem Row.Laid.operands_le (h : r.Laid) (sym widx : Nat) :
    (r.make sym widx).symField ≤ sym ∧ (r.make sym widx).widxField ≤ widx := by
  cases h with
  | plain _ hs hw => exact ⟨hs.trans_le (Nat.zero_le _), hw.trans_le (Nat.zero_le _)⟩
  | sym _ hs hw => exact ⟨(hs sym).le, (hw sym).trans_le (Nat.zero_le _)⟩
  | symWidx _ hs hw => exact ⟨(hs sym widx).le, (hw sym widx).le⟩

theorem Row.Laid.wellFormed_make (h : r.Laid) (w : Word) : (r.make (symOf w) (widxOf w)).WellFormed :=
  ⟨(h.operands_le _ _).1.trans_lt (BitVec.isLt _), (h.operands_le _ _).2.trans_lt (BitVec.isLt _)⟩

theorem symOf_eq_zero (h : ∀ j, 8 ≤ j → w.getLsbD j = false) : symOf w = 0 := by
  apply Nat.eq_of_testBit_eq
  intro j
  rw [testBit_symOf, h _ (Nat.le_add_right 8 j), Bool.and_false, Nat.zero_testBit]

theorem widxOf_eq_zero (h : ∀ j, 17 ≤ j → w.getLsbD j = false) : widxOf w = 0 := by
  apply Nat.eq_of_testBit_eq
  intro j
  rw [testBit_widxOf, h _ (Nat.le_add_right 17 j), Bool.and_false, Nat.zero_testBit]

/-- A word that matches a row is the word of the command the row builds from it. -/
theorem Row.Laid.encode_make (h : r.Laid) (ho : r.op = opOf w) (hm : w &&& r.mask = r.bits) :
    encode (r.make (symOf w) (widxOf w)) = w := by
  have hop := (h.opcode_make (symOf w) (widxOf w)).trans ho
  cases h with
  | plain _ hs hw =>
    have hzero := getLsbD_of_match (m := 0xFFFFFFFF) (n := 8) hm (by decide) (by decide)
    exact encode_eq_of_fields hop (hs.trans (symOf_eq_zero hzero).symm)
      (hw.trans (widxOf_eq_zero fun j hj => hzero j (by omega)).symm) fun j hj => hzero j (by omega)
  | sym _ hs hw =>
    have hzero := getLsbD_of_match (m := 0xFFFE00FF) (n := 17) hm (by decide) (by decide)
    exact encode_eq_of_fields hop (hs _) ((hw _).trans (widxOf_eq_zero hzero).symm) fun j hj => hzero j (by omega)
  | symWidx _ hs hw =>
    exact encode_eq_of_fields hop (hs _ _) (hw _ _) (getLsbD_of_match (m := 0xFFF000FF) hm (by decide) (by decide))

theorem encode_of_decode (h : decode w = .ok i) : i.WellFormed ∧ encode i = w := by
  obtain ⟨r, hr, ho, hm, rfl⟩ := decode_eq_ok_iff.1 h
  exact ⟨(opTable_laid r hr).wellFormed_make w, (opTable_laid r hr).encode_make ho hm⟩

end Sys2Proof
end

section
/-! SUPPORT. The engine's step on a word that is no command (30_encoding.md R98; 60_exceptions.md R261). -/

namespace Sys2Proof.Machine

open Sys2Proof

variable {s : State} {w a : Word} {p : Pos}

theorem engineStep_illegal_opcode (hs : s.seq = .running w a p) (hd : decode w = .error .opcode) :
    engineStep s = .next (s.withError 7 1 w) := by
  unfold engineStep
  simp only [hs, hd]
  rfl

theorem engineStep_illegal_reserved (hs : s.seq = .running w a p) (hd : decode w = .error .reserved) :
    engineStep s = .next (s.withError 7 2 w) := by
  unfold engineStep
  simp only [hs, hd]
  rfl

end Sys2Proof.Machine
end

section
/-! The statements about the encoding (30_encoding.md). -/

namespace Sys2Proof.Proofs

open Sys2Proof Sys2Proof.Machine

/-- Settles O1: each row builds commands of its opcode from the fields its mask leaves free. -/
theorem decodeAndEncodeAgree : Obligations.DecodeAndEncodeAgree :=
  ⟨fun _ => decode_encode, fun _ _ => encode_of_decode⟩

/-- Settles O2: the decoder's answer is the row's, and the engine's step follows it. -/
theorem firstSegmentDecodeOrder : Obligations.FirstSegmentDecodeOrder := by
  intro s w a hs
  refine ⟨fun h => engineStep_illegal_opcode hs (decode_of_no_row h), fun r hr ho => ⟨fun hm => ?_, fun hm => ?_⟩⟩
  · exact engineStep_illegal_reserved hs ((decode_of_row hr ho).trans (if_neg hm))
  · exact engineStep_running hs ((decode_of_row hr ho).trans (if_pos hm))

/-- Settles O3: thirteen fixed words, by running the decoder. -/
theorem wordsOfTheOpcodeMap : Obligations.WordsOfTheOpcodeMap := by
  unfold Obligations.WordsOfTheOpcodeMap
  decide

end Sys2Proof.Proofs
end

section
/-! SUPPORT. Build() step by step (40_freq_table.md R110): the symbols of the queue it starts from, the order that
ExtractMin takes entries in, and the merging. -/

namespace Sys2Proof.Machine

variable {ft : Table Word} {lim : Nat}

/-! ## The in-range symbols -/

/-- The in-range symbols of positive frequency, ascending. -/
def positiveSymbols (ft : Table Word) (lim : Nat) : List Nat := (List.range lim).filter fun k => tableGet ft k 0 ≠ 0

/-- The in-range symbols of frequency 0, ascending. -/
def zeroSymbols (ft : Table Word) (lim : Nat) : List Nat := (List.range lim).filter fun k => tableGet ft k 0 = 0

@[simp] theorem mem_positiveSymbols {k : Nat} : k ∈ positiveSymbols ft lim ↔ k < lim ∧ tableGet ft k 0 ≠ 0 := by
  simp [positiveSymbols]

@[simp] theorem mem_zeroSymbols {k : Nat} : k ∈ zeroSymbols ft lim ↔ k < lim ∧ tableGet ft k 0 = 0 := by
  simp [zeroSymbols]

theorem length_positiveSymbols_add_zeroSymbols (ft : Table Word) (lim : Nat) :
    (positiveSymbols ft lim).length + (zeroSymbols ft lim).length = lim := by
  have h := List.length_eq_length_filter_add (l := List.range lim) fun k => decide (tableGet ft k 0 ≠ 0)
  simpa [positiveSymbols, zeroSymbols] using h.symm

theorem zeroSymbols_pairwise (ft : Table Word) (lim : Nat) : (zeroSymbols ft lim).Pairwise (· < ·) :=
  List.pairwise_lt_range.filter _

/-- The first elements of a strictly ascending list hold every element of the list below one of theirs. -/
theorem mem_take_of_lt {l : List Nat} (hl : l.Pairwise (· < ·)) {n x k : Nat} (hx : x ∈ l.take n) (hk : k ∈ l)
    (hlt : k < x) : k ∈ l.take n := by
  rw [← List.take_append_drop n l] at hl hk
  rcases List.mem_append.1 hk with h | h
  · exact h
  · exact absurd ((List.pairwise_append.1 hl).2.2 x hx k h) (Nat.lt_asymm hlt)

/-! ## The queue after steps 1 and 2 -/

/-- The leaf entry of a symbol with its frequency. -/
def leafEntry (c : Nat × Word) : Entry := ⟨c.2.toNat, c.1, .leaf c.1⟩

theorem padEntry_positive (q : List Entry) {c : Nat × Word} (hc : c.2 ≠ 0) : padEntry q c = q := by
  unfold padEntry
  split
  · rfl
  · exact if_neg hc

theorem padEntry_full {q : List Entry} (c : Nat × Word) (hq : 2 ≤ q.length) : padEntry q c = q := by
  match q, hq with
  | _ :: _ :: _, _ => rfl

theorem padEntry_room {q : List Entry} {c : Nat × Word} (hq : q.length < 2) (hc : c.2 = 0) :
    padEntry q c = q ++ [leafEntry c] := by
  match q, hq with
  | [], _ | [_], _ => simp [padEntry, leafEntry, hc]
  | _ :: _ :: _, h => simp at h

/-- Step 2 adds leaves for the first symbols of frequency 0, as many as two entries need. -/
theorem foldl_padEntry (cells : List (Nat × Word)) (q : List Entry) :
    cells.foldl padEntry q =
      q ++ ((cells.filter fun c => decide (c.2 = 0)).take (2 - q.length)).map leafEntry := by
  induction cells generalizing q with
  | nil => simp
  | cons c cells ih =>
    rw [List.foldl_cons, ih]
    by_cases hc : c.2 = 0
    · rw [List.filter_cons_of_pos (by simpa using hc)]
      rcases Nat.lt_or_ge q.length 2 with hq | hq
      · rw [padEntry_room hq hc, List.length_append, List.length_singleton,
          show 2 - q.length = 2 - (q.length + 1) + 1 by omega]
        simp
      · rw [padEntry_full c hq, Nat.sub_eq_zero_of_le hq]
        simp
    · rw [padEntry_positive q hc, List.filter_cons_of_neg (by simpa using hc)]

theorem freqCells_eq_map (ft : Table Word) (h : lim ≤ 257) :
    freqCells ft lim = (List.range lim).map fun k => (k, tableGet ft k 0) := by
  unfold freqCells
  apply List.ext_getElem
  · simpa using h
  · intro k hk hk'
    have hlt : k < 257 := by simp at hk; omega
    simp [tableGet, hlt]

/-- The symbols of the queue Build() starts from: those of positive frequency, and the least ones of frequency 0 where
fewer than two are positive. -/
def queuedSymbols (ft : Table Word) (lim : Nat) : List Nat :=
  positiveSymbols ft lim ++ (zeroSymbols ft lim).take (2 - (positiveSymbols ft lim).length)

theorem buildQueue_eq (ft : Table Word) (h : lim ≤ 257) :
    buildQueue ft lim = (queuedSymbols ft lim).map fun k => leafEntry (k, tableGet ft k 0) := by
  unfold buildQueue
  rw [foldl_padEntry, buildLeaves_eq, freqCells_eq_map ft h, List.filter_map, List.filter_map]
  simp [queuedSymbols, positiveSymbols, zeroSymbols, Function.comp_def, leafEntry, List.map_take]

theorem queueSymbols_buildQueue (ft : Table Word) (h : lim ≤ 257) :
    queueSymbols (buildQueue ft lim) = queuedSymbols ft lim := by
  rw [buildQueue_eq ft h, queueSymbols, List.flatMap_map]
  exact (List.flatMap_pure_eq_map id _).trans (List.map_id _)

theorem map_r_buildQueue (ft : Table Word) (h : lim ≤ 257) : (buildQueue ft lim).map Entry.r = queuedSymbols ft lim := by
  rw [buildQueue_eq ft h, List.map_map]
  exact List.map_id _

theorem mem_buildQueue {e : Entry} (h : lim ≤ 257) :
    e ∈ buildQueue ft lim ↔ e.r ∈ queuedSymbols ft lim ∧ e = leafEntry (e.r, tableGet ft e.r 0) := by
  rw [buildQueue_eq ft h, List.mem_map]
  constructor
  · rintro ⟨k, hk, rfl⟩
    exact ⟨hk, rfl⟩
  · rintro ⟨hr, he⟩
    exact ⟨e.r, hr, he.symm⟩

theorem nodup_queuedSymbols (ft : Table Word) (h : lim ≤ 257) : (queuedSymbols ft lim).Nodup :=
  queueSymbols_buildQueue ft h ▸ (buildQueue_symbols ft lim).1

theorem lt_of_mem_queuedSymbols {k : Nat} (hk : k ∈ queuedSymbols ft lim) : k < lim := by
  rcases List.mem_append.1 hk with hk | hk
  · exact (mem_positiveSymbols.1 hk).1
  · exact (mem_zeroSymbols.1 (List.mem_of_mem_take hk)).1

theorem positive_mem_queuedSymbols {k : Nat} (hk : k < lim) (hf : tableGet ft k 0 ≠ 0) : k ∈ queuedSymbols ft lim :=
  List.mem_append_left _ (mem_positiveSymbols.2 ⟨hk, hf⟩)

/-- A queued symbol of frequency 0 is there by the padding. -/
theorem zero_mem_queuedSymbols {k : Nat} (hf : tableGet ft k 0 = 0) :
    k ∈ queuedSymbols ft lim ↔ k ∈ (zeroSymbols ft lim).take (2 - (positiveSymbols ft lim).length) := by
  have hpos : k ∉ positiveSymbols ft lim := fun h => (mem_positiveSymbols.1 h).2 hf
  rw [queuedSymbols, List.mem_append, or_iff_right hpos]

theorem length_positiveSymbols_lt_two_of_zero {k : Nat} (hf : tableGet ft k 0 = 0) (hk : k ∈ queuedSymbols ft lim) :
    (positiveSymbols ft lim).length < 2 := by
  have hpad := List.length_pos_of_mem ((zero_mem_queuedSymbols hf).1 hk)
  rw [List.length_take] at hpad
  omega

/-- The padding takes the symbols of frequency 0 in ascending order. -/
theorem zero_mem_queuedSymbols_of_lt {j k : Nat} (hk : k ∈ queuedSymbols ft lim) (hkf : tableGet ft k 0 = 0)
    (hj : j < k) (hjf : tableGet ft j 0 = 0) : j ∈ queuedSymbols ft lim :=
  have hlim : j < lim := hj.trans (lt_of_mem_queuedSymbols hk)
  (zero_mem_queuedSymbols hjf).2 <|
    mem_take_of_lt (zeroSymbols_pairwise ft lim) ((zero_mem_queuedSymbols hkf).1 hk) (mem_zeroSymbols.2 ⟨hlim, hjf⟩) hj

theorem length_queuedSymbols (ft : Table Word) (h : 2 ≤ lim) :
    (queuedSymbols ft lim).length = max 2 (positiveSymbols ft lim).length := by
  have hsum := length_positiveSymbols_add_zeroSymbols ft lim
  rw [queuedSymbols, List.length_append, List.length_take]
  omega

theorem queuedSymbols_of_all_positive (h : ∀ k, k < lim → tableGet ft k 0 ≠ 0) :
    queuedSymbols ft lim = List.range lim := by
  have hpos : positiveSymbols ft lim = List.range lim :=
    List.filter_eq_self.2 fun k hk => decide_eq_true (h k (List.mem_range.1 hk))
  have hzero : zeroSymbols ft lim = [] :=
    List.filter_eq_nil_iff.2 fun k hk => by simpa using h k (List.mem_range.1 hk)
  rw [queuedSymbols, hpos, hzero, List.take_nil, List.append_nil]

/-! ## ExtractMin(Q) -/

/-- (w, r) of `x` is at most that of `y` in lexicographic order. -/
def Entry.AtMost (x y : Entry) : Prop := x.w < y.w ∨ (x.w = y.w ∧ x.r ≤ y.r)

theorem Entry.AtMost.trans {x y z : Entry} (hxy : x.AtMost y) (hyz : y.AtMost z) : x.AtMost z := by
  unfold Entry.AtMost at *
  omega

theorem Entry.before_iff {x y : Entry} : x.before y = true ↔ x.w < y.w ∨ (x.w = y.w ∧ x.r < y.r) := by
  simp [Entry.before, Nat.blt_eq]

theorem Entry.atMost_of_before {x y : Entry} (h : x.before y = true) : x.AtMost y := by
  rw [Entry.before_iff] at h
  unfold Entry.AtMost
  omega

theorem Entry.atMost_of_not_before {x y : Entry} (h : x.before y = false) : y.AtMost x := by
  rw [← Bool.not_eq_true, Entry.before_iff] at h
  unfold Entry.AtMost
  omega

/-- ExtractMin(Q) takes an entry that is at most every other. -/
theorem extractMin_atMost {q rest : List Entry} {m : Entry} (h : extractMin q = some (m, rest)) :
    ∀ e ∈ rest, m.AtMost e := by
  induction q generalizing m rest with
  | nil => cases h
  | cons x q ih =>
    unfold extractMin at h
    split at h
    · cases h
      exact List.forall_mem_nil _
    · next m' rest' hq =>
      have hall : ∀ e ∈ rest', m'.AtMost e := ih hq
      cases hb : x.before m' <;> simp only [hb, cond_true, cond_false] at h <;> cases h
      · exact List.forall_mem_cons.2 ⟨Entry.atMost_of_not_before hb, hall⟩
      · have hx : x.AtMost m' := Entry.atMost_of_before hb
        intro e he
        rcases List.mem_cons.1 ((extractMin_perm hq).subset he) with rfl | he
        · exact hx
        · exact hx.trans (hall e he)

/-! ## Merging -/

/-- One round of step 3: the two entries extracted give place to their merge. -/
theorem mergeAll_merge {q q1 q2 : List Entry} {x y : Entry} (hx : extractMin q = some (x, q1))
    (hy : extractMin q1 = some (y, q2)) : mergeAll q.length q = mergeAll (q2.length + 1) (x.merge y :: q2) := by
  have hlen : q.length = q2.length + 1 + 1 := by
    rw [(extractMin_perm hx).length_eq, List.length_cons, (extractMin_perm hy).length_eq, List.length_cons]
  rw [hlen, mergeAll, hx]
  simp only [hy]

/-- Steps 3 and 4 give a tree for every queue that is not empty. -/
theorem exists_mergeAll {n : Nat} {q : List Entry} (hlen : q.length = n + 1) : ∃ tr, mergeAll q.length q = some tr := by
  induction n generalizing q with
  | zero =>
    obtain ⟨e, rfl⟩ := List.length_eq_one_iff.1 hlen
    exact ⟨e.t, rfl⟩
  | succ n ih =>
    cases hx : extractMin q with
    | none => simp [extractMin_none hx] at hlen
    | some p =>
      obtain ⟨x, q1⟩ := p
      have hlen1 := (extractMin_perm hx).length_eq
      cases hy : extractMin q1 with
      | none => simp [extractMin_none hy, hlen] at hlen1
      | some p =>
        obtain ⟨y, q2⟩ := p
        have hlen2 := (extractMin_perm hy).length_eq
        simp only [List.length_cons] at hlen1 hlen2
        rw [mergeAll_merge hx hy]
        exact ih (q := x.merge y :: q2) (by rw [List.length_cons]; omega)

/-- Build() over two symbols or more gives a tree. -/
theorem exists_buildTree (ft : Table Word) (h : 2 ≤ lim) : ∃ tr, buildTree ft lim = some tr := by
  have hlen := two_le_length_buildQueue ft h
  exact exists_mergeAll (n := (buildQueue ft lim).length - 1) (by omega)

/-- The leaves of Build()'s tree are the symbols of the queue it starts from. -/
theorem buildTree_symbols {tr : CodeTree} (h : lim ≤ 257) (ht : buildTree ft lim = some tr) :
    tr.symbols.Perm (queuedSymbols ft lim) :=
  queueSymbols_buildQueue ft h ▸ (mergeAll_some ht).1

end Sys2Proof.Machine
end

section
/-! SUPPORT. The commands over the tables from their start, one equation a command (40_freq_table.md R112 to R116;
42_canonical_code.md R155). -/

namespace Sys2Proof.Machine

variable {s : State} {w a : Word} {sym : Nat}

theorem checkNonneg_of_nonneg (e : ErrKind) (k : State → Out) (h : 0 ≤ a.toInt) : checkNonneg a e s k = k s :=
  if_neg (Int.not_lt.2 h)

theorem checkNonneg_of_neg (e : ErrKind) (k : State → Out) (h : a.toInt < 0) :
    checkNonneg a e s k = .next (s.failed e a) := if_pos h

theorem exec_ftFill_start (hs : s.seq = .running w a .start) :
    exec .ftFill s = checkNonneg a .negFreq s fun s => complete (s.fillFreq s.limit a) := by
  rw [exec, execFtFill, atStart_running _ hs]

theorem exec_ftGet_start (hs : s.seq = .running w a .start) :
    exec (.ftGet sym) s = checkSym sym s fun s => completeWith (s.freq sym) s := by
  rw [exec, execFtGet, atStart_running _ hs]

theorem exec_clGet_start (hs : s.seq = .running w a .start) :
    exec (.clGet sym) s = checkSym sym s fun s => completeWith ((s.len sym).setWidth 32) s := by
  rw [exec, execClGet, atStart_running _ hs]

theorem exec_ftSet_start (hs : s.seq = .running w a .start) :
    exec (.ftSet sym) s =
      checkSym sym s fun s => checkNonneg a .negFreq s fun s => complete (s.setFreq sym a) := by
  rw [exec, execFtSet, atStart_running _ hs]

theorem exec_ftInc_start (hs : s.seq = .running w a .start) :
    exec (.ftInc sym) s = checkSym sym s fun s =>
      if s.freq sym = 0xFFFFFFFF then raise .freq (symWord sym) s else complete (s.countSym sym) := by
  rw [exec, execFtInc, atStart_running _ hs]
  rfl

theorem exec_ftBuild_start (hs : s.seq = .running w a .start) : exec .ftBuild s = .next s.rebuild.toIdle := by
  rw [exec, execFtBuild, atStart_running _ hs, complete]

end Sys2Proof.Machine
end

section
/-! The statements about the frequency table and the build (40_freq_table.md). -/

namespace Sys2Proof.Proofs

open Sys2Proof Sys2Proof.Machine

/-- Settles O10: with a legal SYMLIM the queue Build() starts from is not empty, and what the merging gives is legal. -/
theorem ftBuildInstallsALegalTree : Obligations.FtBuildInstallsALegalTree := by
  intro s w a hl hs
  obtain ⟨tr, htr⟩ := exists_buildTree s.ft hl.1
  refine ⟨tr, htr, buildTree_legal hl.1 htr, (exec_ftBuild_start hs).trans ?_⟩
  rw [State.rebuild, htr, State.toIdle]

/-- Settles O11: the leaves of the tree are the symbols of the queue Build() starts from. -/
theorem buildGivesLeavesToPositiveSymbols : Obligations.BuildGivesLeavesToPositiveSymbols := by
  intro ft lim tr hlim ht
  have hp := buildTree_symbols hlim ht
  refine ⟨fun k hk hf => hp.mem_iff.2 (positive_mem_queuedSymbols hk hf),
    fun k hk hf => length_positiveSymbols_lt_two_of_zero hf (hp.mem_iff.1 hk), fun hall => ?_,
    fun h => hp.length_eq.trans (length_queuedSymbols ft h)⟩
  rw [hp.length_eq, queuedSymbols_of_all_positive hall, List.length_range]

/-- Settles O12: ExtractMin and the merging by their own laws, and the first queue by its list of symbols. -/
theorem extractMinTakesTheLeast : Obligations.ExtractMinTakesTheLeast := by
  refine ⟨fun _ _ _ h => ⟨extractMin_perm h, extractMin_atMost h⟩, fun _ _ _ _ _ => mergeAll_merge, fun _ => rfl,
    fun ft lim hlim => ?_⟩
  have hr := map_r_buildQueue ft hlim
  have hmem : ∀ k ∈ queuedSymbols ft lim, ∃ e ∈ buildQueue ft lim, e.r = k := fun k hk => List.mem_map.1 (hr ▸ hk)
  refine ⟨buildQueue ft lim, rfl, hr ▸ nodup_queuedSymbols ft hlim, fun e he => ?_,
    fun k hk hf => hmem k (positive_mem_queuedSymbols hk hf), fun e he hw k hk hf => ?_, fun h => ?_⟩
  · obtain ⟨hsym, heq⟩ := (mem_buildQueue hlim).1 he
    exact ⟨lt_of_mem_queuedSymbols hsym, congrArg Entry.t heq, congrArg Entry.w heq⟩
  · obtain ⟨hsym, heq⟩ := (mem_buildQueue hlim).1 he
    have hzero : tableGet ft e.r 0 = 0 := BitVec.eq_of_toNat_eq ((congrArg Entry.w heq).symm.trans hw)
    exact hmem k (zero_mem_queuedSymbols_of_lt hsym hzero hk hf)
  · rw [← List.length_map Entry.r, hr]
    exact length_queuedSymbols ft h

/-- Settles O6, by the sign of the argument. -/
theorem ftFillSetsInRangeEntries : Obligations.FtFillSetsInRangeEntries := by
  intro s w a hs
  rw [exec_ftFill_start hs]
  refine ⟨fun ha => ⟨_, checkNonneg_of_nonneg _ _ ha, rfl, fun k hk => ?_⟩, checkNonneg_of_neg _ _⟩
  rw [State.toIdle_freq, State.freq_fillFreq]
  simp only [hk, and_true]

/-- Settles O7, by the range of the symbol. -/
theorem tableReadsReturnTheEntry : Obligations.TableReadsReturnTheEntry := by
  intro s w a sym hs
  rw [exec_ftGet_start hs, exec_clGet_start hs]
  exact ⟨fun hl => ⟨checkSym_of_lt _ hl, checkSym_of_lt _ hl⟩, fun hl => ⟨checkSym_of_ge _ hl, checkSym_of_ge _ hl⟩⟩

/-- Settles O8, by the range of the symbol and the sign of the argument. -/
theorem ftSetWritesTheFrequency : Obligations.FtSetWritesTheFrequency := by
  intro s w a sym hlim hs
  rw [exec_ftSet_start hs]
  refine ⟨fun hl ha => ⟨_, (checkSym_of_lt _ hl).trans (checkNonneg_of_nonneg _ _ ha), rfl, fun k => ?_⟩,
    checkSym_of_ge _, fun hl ha => (checkSym_of_lt _ hl).trans (checkNonneg_of_neg _ _ ha)⟩
  rw [State.toIdle_freq, State.freq_setFreq]
  simp only [hl.trans_le hlim.2, and_true]

/-- Settles O9: one more occurrence of the symbol, which below 2^32 - 1 does not wrap. -/
theorem ftIncAddsOne : Obligations.FtIncAddsOne := by
  intro s w a sym hlim hs
  rw [exec_ftInc_start hs]
  refine ⟨fun hl hf => ?_, checkSym_of_ge _, fun hl hf => (checkSym_of_lt _ hl).trans (if_pos hf)⟩
  obtain ⟨-, hself, hrest⟩ := countSym_added s sym (Nat.lt_succ_iff.1 (hl.trans_le hlim.2))
  refine ⟨_, (checkSym_of_lt _ hl).trans (if_neg hf), rfl, ?_, hrest⟩
  rw [State.toIdle_freq, hself]
  bv_omega

end Sys2Proof.Proofs
end

section
/-! SUPPORT. The codes of a tree (41_code_tree.md R130, R131): which symbols have one, how a node's codes come from its
children's, and the bounds and the sum of their lengths. -/

namespace Sys2Proof.Machine

variable {tr l r : CodeTree} {x y : Nat} {c : List Bool}

/-! ## Which symbols have a code -/

theorem code_leaf_eq_some : (CodeTree.leaf x).code y = some c ↔ x = y ∧ c = [] := by
  simp [CodeTree.code, eq_comm]

/-- A node's code is a bit for the child that gives it and the child's code; the 0-child is asked first. -/
theorem code_node_eq_some : (CodeTree.node l r).code x = some c ↔
    (∃ p, c = false :: p ∧ l.code x = some p) ∨ (∃ p, c = true :: p ∧ l.code x = none ∧ r.code x = some p) := by
  rw [CodeTree.code]
  cases l.code x with
  | some p => simp [eq_comm]
  | none => cases r.code x <;> simp [eq_comm]

theorem code_eq_none_iff : tr.code x = none ↔ x ∉ tr.symbols := by
  induction tr with
  | leaf y => simp [CodeTree.code, CodeTree.symbols, eq_comm]
  | node l r ihl ihr =>
    rw [CodeTree.symbols, List.mem_append, not_or, ← ihl, ← ihr, CodeTree.code]
    cases l.code x <;> cases r.code x <;> simp

theorem exists_code_of_mem (h : x ∈ tr.symbols) : ∃ c, tr.code x = some c :=
  Option.ne_none_iff_exists'.1 fun hc => code_eq_none_iff.1 hc h

/-! ## The prefix property (R131 a) -/

/-- Two leaves on one path are the same leaf: the codes take the same child at each node. -/
theorem eq_of_code_prefix {cx cy : List Bool} (hx : tr.code x = some cx) (hy : tr.code y = some cy)
    (hp : cx <+: cy) : x = y := by
  induction tr generalizing cx cy with
  | leaf z => exact (code_leaf_eq_some.1 hx).1.symm.trans (code_leaf_eq_some.1 hy).1
  | node l r ihl ihr =>
    obtain ⟨p, rfl, hpx⟩ | ⟨p, rfl, -, hpx⟩ := code_node_eq_some.1 hx <;>
      obtain ⟨q, rfl, hqy⟩ | ⟨q, rfl, -, hqy⟩ := code_node_eq_some.1 hy <;>
      obtain ⟨hbit, hpq⟩ := List.cons_prefix_cons.1 hp
    · exact ihl hpx hqy hpq
    · cases hbit
    · cases hbit
    · exact ihr hpx hqy hpq

/-! ## The bounds of a code's length (R130) -/

theorem length_symbols_pos : (tr : CodeTree) → 0 < tr.symbols.length
  | .leaf _ => Nat.one_pos
  | .node l _ => (length_symbols_pos l).trans_le ((List.sublist_append_left ..).length_le)

/-- Each bit of a code passes by a child with a leaf of its own. -/
theorem length_code_lt (h : tr.code x = some c) : c.length < tr.symbols.length := by
  induction tr generalizing c with
  | leaf y => simp [(code_leaf_eq_some.1 h).2, CodeTree.symbols]
  | node l r ihl ihr =>
    have hl := length_symbols_pos l
    have hr := length_symbols_pos r
    rw [CodeTree.symbols, List.length_append]
    obtain ⟨p, rfl, hp⟩ | ⟨p, rfl, -, hp⟩ := code_node_eq_some.1 h
    · have := ihl hp
      rw [List.length_cons]
      omega
    · have := ihr hp
      rw [List.length_cons]
      omega

theorem CodeTree.Legal.length_symbols_le {lim : Nat} (h : tr.Legal lim) : tr.symbols.length ≤ lim := by
  obtain ⟨-, hnd, hlt⟩ := h
  simpa using (hnd.subperm fun x hx => List.mem_range.2 (hlt x hx)).length_le

theorem CodeTree.Legal.length_code_pos {lim : Nat} (h : tr.Legal lim) (hc : tr.code x = some c) : 0 < c.length := by
  obtain ⟨⟨l, r, rfl⟩, -⟩ := h
  obtain ⟨p, rfl, -⟩ | ⟨p, rfl, -⟩ := code_node_eq_some.1 hc <;> exact Nat.succ_pos _

/-! ## The sum over the codes (R131 b) -/

theorem treeLength_of_code (h : tr.code x = some c) : treeLength (some tr) x = c.length := by
  simp [treeLength, h]

theorem treeLength_node_left (h : x ∈ l.symbols) :
    treeLength (some (.node l r)) x = treeLength (some l) x + 1 := by
  obtain ⟨c, hc⟩ := exists_code_of_mem h
  rw [treeLength_of_code hc, treeLength_of_code (code_node_eq_some.2 (.inl ⟨c, rfl, hc⟩)), List.length_cons]

theorem treeLength_node_right (hl : x ∉ l.symbols) (h : x ∈ r.symbols) :
    treeLength (some (.node l r)) x = treeLength (some r) x + 1 := by
  obtain ⟨c, hc⟩ := exists_code_of_mem h
  rw [treeLength_of_code hc, treeLength_of_code (code_node_eq_some.2 (.inr ⟨c, rfl, code_eq_none_iff.2 hl, hc⟩)),
    List.length_cons]

/-- The sum of 2^-|CODE(x)| over the leaf symbols of a tree. -/
def codeSum (tr : CodeTree) : ℚ := (tr.symbols.map fun x => (1 / 2 : ℚ) ^ treeLength (some tr) x).sum

/-- Symbols one level deeper in `tr` than in `t` have half the sum there. -/
theorem sum_half_of_deeper {t : CodeTree} {xs : List Nat}
    (h : ∀ x ∈ xs, treeLength (some tr) x = treeLength (some t) x + 1) :
    (xs.map fun x => (1 / 2 : ℚ) ^ treeLength (some tr) x).sum =
      (xs.map fun x => (1 / 2 : ℚ) ^ treeLength (some t) x).sum * (1 / 2) := by
  rw [← List.sum_map_mul_right]
  exact congrArg List.sum (List.map_congr_left fun x hx => by rw [h x hx, pow_succ])

/-- Each child of a node gives half of its own sum. -/
theorem codeSum_node (h : (CodeTree.node l r).symbols.Nodup) :
    codeSum (.node l r) = codeSum l * (1 / 2) + codeSum r * (1 / 2) := by
  have hdisj := List.disjoint_of_nodup_append h
  rw [codeSum, CodeTree.symbols, List.map_append, List.sum_append,
    sum_half_of_deeper fun x hx => treeLength_node_left hx,
    sum_half_of_deeper fun x hx => treeLength_node_right (fun hl => hdisj hl hx) hx]
  rfl

theorem codeSum_eq_one (h : tr.symbols.Nodup) : codeSum tr = 1 := by
  induction tr with
  | leaf x => simp [codeSum, CodeTree.symbols, treeLength_of_code (code_leaf_eq_some.2 ⟨rfl, rfl⟩)]
  | node l r ihl ihr =>
    rw [codeSum_node h, ihl h.of_append_left, ihr h.of_append_right]
    norm_num

end Sys2Proof.Machine
end

section
/-! SUPPORT. The commands over the tree and the clearing commands from their start, one equation a command
(41_code_tree.md R132 to R134; 44_bitstream.md R190; 47_control.md R240, R241). -/

namespace Sys2Proof.Machine

variable {s : State} {w a : Word} {sym : Nat} {tr : CodeTree}

/-! ## The three checks (R132) -/

theorem withCode_of_noTree (k : List Bool → State → Out) (ht : s.tree = none) :
    withCode sym s k = .next (s.failed .noTree 0) := by
  simp [withCode, ht, raise]

theorem withCode_of_ge (k : List Bool → State → Out) (ht : s.tree = some tr) (hl : s.limit ≤ sym) :
    withCode sym s k = .next (s.failed .symbol (symWord sym)) := by
  simp [withCode, ht, checkSym_of_ge _ hl]

theorem withCode_of_noCode (k : List Bool → State → Out) (ht : s.tree = some tr) (hl : sym < s.limit)
    (hc : tr.code sym = none) : withCode sym s k = .next (s.failed .noCode (symWord sym)) := by
  simp [withCode, ht, checkSym_of_lt _ hl, hc, raise]

/-! ## The word of a code (R133) -/

/-- Bits written one at a time from bit 31 down. -/
theorem getLsbD_foldl_or_bit (p : Nat → Bool) {n j : Nat} (hn : n ≤ 32) (hj : j < 32) :
    ((List.range n).foldl (fun v i => if p i then v ||| (1#32 <<< (31 - i)) else v) 0).getLsbD (31 - j) =
      (decide (j < n) && p j) := by
  induction n with
  | zero => simp
  | succ n ih =>
    have hbit : (1#32 <<< (31 - n)).getLsbD (31 - j) = decide (j = n) := by
      rw [← BitVec.twoPow_eq, BitVec.getLsbD_twoPow, ← Bool.decide_and]
      exact decide_eq_decide.2 (by omega)
    have hstep (v : Word) : (if p n then v ||| (1#32 <<< (31 - n)) else v).getLsbD (31 - j) =
        (v.getLsbD (31 - j) || (p n && decide (j = n))) := by
      cases p n
      · simp
      · rw [if_pos rfl, BitVec.getLsbD_or, hbit, Bool.true_and]
    rw [List.range_succ, List.foldl_append, List.foldl_cons, List.foldl_nil, hstep, ih (Nat.le_of_succ_le hn)]
    rcases eq_or_ne j n with rfl | hne
    · simp
    · simp [hne, hne.le_iff_lt]

theorem codeWord_getLsbD (c : List Bool) (widx : Nat) {j : Nat} (hj : j < 32) :
    (codeWord c widx).getLsbD (31 - j) = c.getD (32 * widx + j) false := by
  rw [codeWord, getLsbD_foldl_or_bit (fun j => c.getD (32 * widx + j) false) le_rfl hj, decide_eq_true hj,
    Bool.true_and]

/-! ## The commands -/

theorem exec_ctGetlen_start (hs : s.seq = .running w a .start) :
    exec (.ctGetlen sym) s = withCode sym s fun c s => completeWith (BitVec.ofNat 32 c.length) s := by
  rw [exec, execCtGetlen, atStart_running _ hs]

theorem exec_ctGetcode_start {widx : Nat} (hs : s.seq = .running w a .start) :
    exec (.ctGetcode sym widx) s = withCode sym s fun c s => completeWith (codeWord c widx) s := by
  rw [exec, execCtGetcode, atStart_running _ hs]

theorem exec_ctClear_start (hs : s.seq = .running w a .start) :
    exec .ctClear s = .next (State.toIdle { s with tree := none }) := by
  rw [exec, execCtClear, atStart_running _ hs, complete]

theorem exec_streamReset_start (hs : s.seq = .running w a .start) :
    exec .streamReset s = .next s.resetBI.resetBO.toIdle := by
  rw [exec, execStreamReset, atStart_running _ hs, complete]

theorem exec_nop_start (hs : s.seq = .running w a .start) : exec .nop s = .next s.toIdle := by
  rw [exec, execNop, atStart_running _ hs, complete]

theorem exec_errClear_start (hs : s.seq = .running w a .start) : exec .errClear s = .next s.clearError.toIdle := by
  rw [exec, execErrClear, atStart_running _ hs, complete]

end Sys2Proof.Machine
end

section
/-! The statements about the code tree (41_code_tree.md) and the clearing commands. -/

namespace Sys2Proof.Proofs

open Sys2Proof Sys2Proof.Machine

/-- Settles O14: the checks are those of the code's lookup, and the word's bits are read off its loop. -/
theorem ctGetcodeReadsTheCodeBits : Obligations.CtGetcodeReadsTheCodeBits := by
  intro s w a sym widx hs
  rw [exec_ctGetcode_start hs]
  exact ⟨withCode_of_noTree _, fun tr ht => ⟨withCode_of_ge _ ht, withCode_of_noCode _ ht,
    fun c hl hc => ⟨_, withCode_some _ ht hl hc, rfl, fun j => codeWord_getLsbD c widx⟩⟩⟩

/-- Settles O15: a code that begins with another's ends at the same leaf. -/
theorem codesArePrefixFree : Obligations.CodesArePrefixFree := fun _ _ _ _ _ => eq_of_code_prefix

/-- Settles O16, by induction on the tree: each child of a node gives half of the sum. -/
theorem codesAreComplete : Obligations.CodesAreComplete := fun _ => codeSum_eq_one

/-- Settles O17: the root is internal, and a code has fewer bits than the tree has leaves. -/
theorem codeLengthsAreBounded : Obligations.CodeLengthsAreBounded := fun _ _ _ _ h hc =>
  ⟨h.length_code_pos hc, (length_code_lt hc).trans_le h.length_symbols_le⟩

/-- Settles O13: the checks are those of the code's lookup. -/
theorem ctGetlenReadsTheCodeLength : Obligations.CtGetlenReadsTheCodeLength := by
  intro s w a sym hs
  rw [exec_ctGetlen_start hs]
  exact ⟨withCode_of_noTree _, fun tr ht => ⟨withCode_of_ge _ ht, withCode_of_noCode _ ht,
    fun c hl hc => withCode_some _ ht hl hc⟩⟩

/-- Settles O42, each command from its start. -/
theorem clearingCommandsAndNop : Obligations.ClearingCommandsAndNop := fun _ _ _ hs =>
  ⟨exec_ctClear_start hs, exec_streamReset_start hs, exec_nop_start hs, exec_errClear_start hs⟩

end Sys2Proof.Proofs
end

section
/-! SUPPORT. What Check() answers by the number of nodes of each level (42_canonical_code.md R151), and the levels of a
complete code (R153 a). -/

namespace Sys2Proof.Machine

variable {L : List Nat} {n m : Nat}

/-! ## The levels and the Kraft sum -/

theorem levelSum_nonneg (L : List Nat) (d : Nat) : 0 ≤ levelSum L d :=
  List.sum_nonneg fun x hx => by
    obtain ⟨l, -, rfl⟩ := List.mem_map.1 hx
    positivity

theorem kraftSum_eq_levelSum (L : List Nat) : kraftSum L = levelSum L 0 := by
  simp [kraftSum, levelSum]

theorem levelSum_perm {M : List Nat} (h : L.Perm M) (d : Nat) : levelSum L d = levelSum M d :=
  ((h.filter _).map _).sum_eq

theorem levelSum_of_zero (h : ∀ l ∈ L, l = 0) (d : Nat) : levelSum L d = 0 := by
  rcases Nat.eq_zero_or_pos d with rfl | hd
  · rw [levelSum_zero, levelSum_eq_zero fun l hl => by simp [h l hl], zero_div]
  · exact levelSum_eq_zero fun l hl => by simpa [h l hl] using hd

/-- A positive length has its share of the root level. -/
theorem levelSum_zero_eq_zero_iff : levelSum L 0 = 0 ↔ ∀ l ∈ L, l = 0 := by
  refine ⟨fun h => ?_, fun h => levelSum_of_zero h 0⟩
  induction L with
  | nil => simp
  | cons l L ih =>
    have hL := levelSum_nonneg L 0
    rw [levelSum_cons] at h
    rcases Nat.eq_zero_or_pos l with rfl | hl
    · rw [if_neg (by omega), zero_add] at h
      exact List.forall_mem_cons.2 ⟨rfl, ih h⟩
    · rw [if_pos ⟨hl, Nat.zero_le l⟩] at h
      have : (0 : ℚ) < (1 / 2) ^ (l - 0) := by positivity
      linarith

/-- Below a whole number of nodes there is twice the number of those that are no leaf. -/
theorem even_of_level {d : Nat} (h : levelSum L (d + 1) = n) : ∃ k : Nat, levelSum L (d + 2) = 2 * k := by
  have hdeep : levelSum L (d + 2) = 2 * ((n : ℚ) - L.count (d + 1)) := by
    linarith [levelSum_succ L d]
  have hle : L.count (d + 1) ≤ n := by
    have := levelSum_nonneg L (d + 2)
    exact_mod_cast (by linarith : (L.count (d + 1) : ℚ) ≤ n)
  exact ⟨n - L.count (d + 1), by rw [hdeep, Nat.cast_sub hle]⟩

/-- A whole number of nodes at the root makes every level below it even. -/
theorem rootNodes_iff : RootNodes L n ↔ levelSum L 0 = n := by
  refine ⟨And.left, fun h => ⟨h, fun e he => ?_⟩⟩
  obtain ⟨e, rfl⟩ := Nat.exists_eq_succ_of_ne_zero he.ne'
  clear he
  induction e with
  | zero => exact ⟨n, by rw [← h, levelSum_zero]; ring⟩
  | succ e ih =>
    obtain ⟨k, hk⟩ := ih
    exact even_of_level (n := 2 * k) (by rw [hk]; push_cast; rfl)

theorem RootNodes.unique (hn : RootNodes L n) (hm : RootNodes L m) : n = m := by
  exact_mod_cast hn.1.symm.trans hm.1

/-- The lengths of a complete code (42_canonical_code.md R153 a). -/
theorem rootNodes_one_iff : RootNodes L 1 ↔ (∃ l ∈ L, 0 < l) ∧ kraftSum L = 1 := by
  rw [rootNodes_iff, Nat.cast_one, kraftSum_eq_levelSum]
  refine ⟨fun h => ⟨?_, h⟩, And.right⟩
  by_contra hz
  push Not at hz
  rw [levelSum_of_zero fun l hl => Nat.le_zero.1 (hz l hl)] at h
  exact zero_ne_one h

/-! ## Sorting -/

theorem insertDesc_perm (c : Nat) (l : List Nat) : (insertDesc c l).Perm (c :: l) := by
  induction l with
  | nil => rfl
  | cons x xs ih =>
    unfold insertDesc
    split
    · rfl
    · exact (ih.cons x).trans (.swap c x xs)

theorem sortDesc_perm (l : List Nat) : (sortDesc l).Perm l := by
  induction l with
  | nil => rfl
  | cons x xs ih => exact (insertDesc_perm x _).trans (ih.cons x)

theorem insertDesc_pairwise {c : Nat} {l : List Nat} (h : l.Pairwise (· ≥ ·)) : (insertDesc c l).Pairwise (· ≥ ·) := by
  induction l with
  | nil => exact List.pairwise_singleton _ c
  | cons x xs ih =>
    obtain ⟨hx, hxs⟩ := List.pairwise_cons.1 h
    unfold insertDesc
    split
    · next hc => exact List.pairwise_cons.2 ⟨List.forall_mem_cons.2 ⟨hc, fun y hy => (hx y hy).trans hc⟩, h⟩
    · next hc =>
      refine List.pairwise_cons.2 ⟨fun y hy => ?_, ih hxs⟩
      rcases List.mem_cons.1 ((insertDesc_perm c xs).subset hy) with rfl | hy
      · exact (Nat.lt_of_not_le hc).le
      · exact hx y hy

theorem sortDesc_pairwise (l : List Nat) : (sortDesc l).Pairwise (· ≥ ·) := by
  induction l with
  | nil => exact .nil
  | cons x xs ih => exact insertDesc_pairwise ih

/-! ## The scan of Check() -/

/-- Check() stands at `level` with `n` nodes there from the lengths taken so far and `rest` still to take: each higher
level has its share of the `n` nodes and what `rest` asks for, and every deeper level is even. -/
structure Counted (L rest : List Nat) (level n : Nat) : Prop where
  shares : ∀ e, e ≤ level → levelSum L e = levelSum rest e + n * (1 / 2) ^ (level - e)
  even : ∀ e, level < e → ∃ k : Nat, levelSum L e = 2 * k

/-- A length of the present level is one node more of it. -/
theorem Counted.take {rest : List Nat} {c : Nat} (h : Counted L (c :: rest) c n) (hc : 0 < c) :
    Counted L rest c (n + 1) where
  shares e he := by
    rw [h.shares e he, levelSum_cons, if_pos ⟨hc, he⟩]
    push_cast
    ring
  even := h.even

theorem Counted.take_zeros {rest : List Nat} {level : Nat} (h : Counted L rest level n) (hz : ∀ l ∈ rest, l = 0) :
    Counted L [] level n where
  shares e he := by rw [h.shares e he, levelSum_of_zero hz, levelSum_of_zero (List.forall_mem_nil _)]
  even := h.even

/-- With every other length above it, a level has the nodes counted. -/
theorem Counted.here {rest : List Nat} {level : Nat} (h : Counted L rest level n) (hr : ∀ l ∈ rest, l < level) :
    levelSum L level = n := by
  rw [h.shares level le_rfl, levelSum_eq_zero hr, Nat.sub_self, pow_zero, mul_one, zero_add]

/-- An even level pairs up to half as many nodes above it. -/
theorem Counted.halve {rest : List Nat} {level : Nat} (h : Counted L rest (level + 1) n)
    (hr : ∀ l ∈ rest, l < level + 1) (hn : n % 2 ≠ 1) : Counted L rest level (n / 2) := by
  have htwo : (n : ℚ) = 2 * (n / 2 : Nat) := by exact_mod_cast (by omega : n = 2 * (n / 2))
  refine ⟨fun e he => ?_, fun e he => ?_⟩
  · rw [h.shares e (he.trans level.le_succ), Nat.succ_sub he, pow_succ, htwo]
    ring
  · rcases Nat.lt_or_ge (level + 1) e with h1 | h1
    · exact h.even e h1
    · obtain rfl : e = level + 1 := by omega
      exact ⟨n / 2, (h.here hr).trans htwo⟩

/-- The failure `f` is ODD_LEVEL at the deepest odd level. -/
def OddLevel (L : List Nat) (f : Failure) : Prop := ∃ d n, DeepestOdd L d n ∧ f = (.oddLevel, BitVec.ofNat 32 d)

/-- Climbing to `c`, which is at least every length left, counts the nodes of level `c`, or ends at an odd level. -/
theorem climb_outcome {rest : List Nat} {c level : Nat} (h : Counted L rest level n) (hr : ∀ l ∈ rest, l ≤ c) :
    match climb c level n with
    | .ok n' => Counted L rest (min c level) n'
    | .error f => OddLevel L f := by
  induction level generalizing n with
  | zero => simpa [climb] using h
  | succ level ih =>
    unfold climb
    by_cases hc : c < level + 1
    · have hlt : ∀ l ∈ rest, l < level + 1 := fun l hl => (hr l hl).trans_lt hc
      rw [if_pos hc]
      by_cases hn : n % 2 = 1
      · rw [if_pos hn]
        exact ⟨level + 1, n, ⟨level.succ_pos, h.here hlt, hn, h.even⟩, rfl⟩
      · rw [if_neg hn, show min c (level + 1) = min c level by omega]
        exact ih (h.halve hlt hn)
    · rw [if_neg hc, Nat.min_eq_right (Nat.le_of_not_lt hc)]
      exact h

/-- The loop over the lengths takes them all, or ends at an odd level. -/
theorem countLevels_outcome {rest : List Nat} {level : Nat} (hs : rest.Pairwise (· ≥ ·)) (hl : ∀ l ∈ rest, l ≤ level)
    (h : Counted L rest level n) :
    match countLevels rest level n with
    | .ok (level', n') => Counted L [] level' n'
    | .error f => OddLevel L f := by
  induction rest generalizing level n with
  | nil => exact h
  | cons c rest ih =>
    obtain ⟨hle, hs'⟩ := List.pairwise_cons.1 hs
    unfold countLevels
    by_cases hc : c = 0
    · rw [if_pos hc]
      exact h.take_zeros (List.forall_mem_cons.2 ⟨hc, fun l hl => Nat.le_zero.1 (hc ▸ hle l hl)⟩)
    · rw [if_neg hc]
      have key := climb_outcome h (c := c) (List.forall_mem_cons.2 ⟨le_rfl, hle⟩)
      cases hk : climb c level n with
      | error f =>
        rw [hk] at key
        exact key
      | ok n' =>
        have hmin : min c level = c := Nat.min_eq_left (hl c List.mem_cons_self)
        rw [hk] at key
        simp only [hmin] at key ⊢
        exact ih hs' hle (key.take (Nat.pos_of_ne_zero hc))

theorem le_headD_sortDesc (L : List Nat) : ∀ l ∈ sortDesc L, l ≤ (sortDesc L).headD 0 := by
  have hs := sortDesc_pairwise L
  cases h : sortDesc L with
  | nil => exact List.forall_mem_nil _
  | cons c rest =>
    rw [h] at hs
    exact List.forall_mem_cons.2 ⟨le_rfl, (List.pairwise_cons.1 hs).1⟩

/-- Before the first length nothing is counted, and no level is deeper than the greatest length. -/
theorem counted_start (L : List Nat) : Counted L (sortDesc L) ((sortDesc L).headD 0) 0 where
  shares e _ := by
    rw [levelSum_perm (sortDesc_perm L)]
    simp
  even e he := ⟨0, by
    rw [← levelSum_perm (sortDesc_perm L), levelSum_eq_zero fun l hl => (le_headD_sortDesc L l hl).trans_lt he]
    simp⟩

/-! ## The answer of Check() -/

/-- Check() accepts one node at the root, and otherwise raises the check that fails first. -/
theorem checkLengths_outcome (L : List Nat) :
    match checkLengths L with
    | .ok _ => RootNodes L 1
    | .error (e, info) => e.code = 1 ∧ CheckFails L e.detail info := by
  have oddLevel : ∀ f, OddLevel L f → f.1.code = 1 ∧ CheckFails L f.1.detail f.2 := by
    rintro _ ⟨d, n, hd, rfl⟩
    exact ⟨rfl, .inl ⟨rfl, d, n, hd, rfl⟩⟩
  have hscan := countLevels_outcome (sortDesc_pairwise L) (le_headD_sortDesc L) (counted_start L)
  unfold checkLengths
  cases hc : countLevels (sortDesc L) ((sortDesc L).headD 0) 0 with
  | error f =>
    rw [hc] at hscan
    exact oddLevel f hscan
  | ok p =>
    obtain ⟨level, n⟩ := p
    rw [hc] at hscan
    have hclimb := climb_outcome (c := 0) hscan (List.forall_mem_nil _)
    cases hk : climb 0 level n with
    | error f =>
      rw [hk] at hclimb
      simp only [hk]
      exact oddLevel f hclimb
    | ok n =>
      rw [hk, Nat.zero_min] at hclimb
      have hroot : RootNodes L n := ⟨hclimb.here (List.forall_mem_nil _), hclimb.even⟩
      simp only [hk]
      rcases Nat.lt_trichotomy n 1 with hn | rfl | hn
      · rw [if_pos hn]
        obtain rfl : n = 0 := Nat.lt_one_iff.1 hn
        exact ⟨rfl, .inr (.inl ⟨rfl, levelSum_zero_eq_zero_iff.1 (by simpa using hroot.1), rfl⟩)⟩
      · exact hroot
      · rw [if_neg (by omega), if_pos hn]
        exact ⟨rfl, .inr (.inr ⟨rfl, n, hn, hroot, rfl⟩)⟩

/-- Check() fails at an odd level, or at the root by its number of nodes. -/
theorem CheckFails.odd_or_root {detail : BitVec 4} {info : Word} (h : CheckFails L detail info) :
    (detail = 4 ∧ ∃ d n, DeepestOdd L d n ∧ info = BitVec.ofNat 32 d) ∨
    ∃ n, n ≠ 1 ∧ RootNodes L n ∧ detail = (if n = 0 then 5 else 6) ∧ info = BitVec.ofNat 32 n := by
  rcases h with h | ⟨rfl, hz, rfl⟩ | ⟨rfl, n, hn, hroot, rfl⟩
  · exact .inl h
  · exact .inr ⟨0, zero_ne_one, rootNodes_iff.2 (by simpa using levelSum_of_zero hz 0), rfl, rfl⟩
  · exact .inr ⟨n, hn.ne', hroot, (if_neg (by omega)).symm, rfl⟩

theorem CheckFails.not_complete {detail : BitVec 4} {info : Word} (h : CheckFails L detail info) :
    ¬ RootNodes L 1 := fun h1 => by
  rcases h.odd_or_root with ⟨-, d, n, hd, -⟩ | ⟨n, hn, hroot, -⟩
  · exact hd.not_root h1
  · exact hn (hroot.unique h1)

theorem CheckFails.unique {detail detail' : BitVec 4} {info info' : Word} (h : CheckFails L detail info)
    (h' : CheckFails L detail' info') : detail = detail' ∧ info = info' := by
  rcases h.odd_or_root with ⟨rfl, d, n, hd, rfl⟩ | ⟨n, -, hroot, rfl, rfl⟩ <;>
    rcases h'.odd_or_root with ⟨rfl, d', n', hd', rfl⟩ | ⟨n', -, hroot', rfl, rfl⟩
  · rw [(hd.unique hd').1]
    exact ⟨rfl, rfl⟩
  · exact absurd hroot' hd.not_root
  · exact absurd hroot hd'.not_root
  · rw [hroot.unique hroot']
    exact ⟨rfl, rfl⟩

theorem checkLengths_ok_iff : checkLengths L = .ok () ↔ RootNodes L 1 := by
  have key := checkLengths_outcome L
  cases hc : checkLengths L with
  | ok u =>
    rw [hc] at key
    exact iff_of_true rfl key
  | error f =>
    rw [hc] at key
    exact iff_of_false (fun h => nomatch h) key.2.not_complete

theorem checkLengths_error {e : ErrKind} {info : Word} (h : checkLengths L = .error (e, info)) :
    e.code = 1 ∧ CheckFails L e.detail info := by
  have key := checkLengths_outcome L
  rw [h] at key
  exact key

theorem exists_toTree_iff : (∃ tr, toTree L = .ok tr) ↔ RootNodes L 1 := by
  have key := toTree_outcome L
  cases ht : toTree L with
  | ok tr =>
    rw [ht] at key
    exact iff_of_true ⟨tr, rfl⟩ key
  | error n =>
    rw [ht] at key
    refine iff_of_false (fun ⟨_, h⟩ => nomatch h) fun h1 => ?_
    rcases key with ⟨d, hd⟩ | ⟨hn, hroot⟩
    · exact hd.not_root h1
    · exact hn (hroot.unique h1)

end Sys2Proof.Machine
end

section
/-! SUPPORT. The value of a code by the leaves left of its own (42_canonical_code.md R154). -/

namespace Sys2Proof.Machine

variable {tr : CodeTree} {x y : Nat} {c : List Bool}

/-! ## A code as a number -/

theorem bitsValue_append (c d : List Bool) : bitsValue (c ++ d) = bitsValue c * 2 ^ d.length + bitsValue d := by
  induction d using List.reverseRecOn with
  | nil => simp [bitsValue]
  | append_singleton d b ih =>
    have snoc : ∀ l : List Bool, bitsValue (l ++ [b]) = 2 * bitsValue l + b.toNat := fun l => by simp [bitsValue]
    rw [← List.append_assoc, snoc, snoc, ih, List.length_append, List.length_singleton, pow_succ]
    ring

theorem bitsValue_cons (b : Bool) (c : List Bool) : bitsValue (b :: c) = b.toNat * 2 ^ c.length + bitsValue c := by
  rw [← List.singleton_append, bitsValue_append]
  simp [bitsValue]

theorem eq_replicate_of_bitsValue_eq_zero (h : bitsValue c = 0) : c = List.replicate c.length false := by
  induction c with
  | nil => rfl
  | cons b c ih =>
    rw [bitsValue_cons] at h
    have hpow := Nat.two_pow_pos c.length
    cases b with
    | false => rw [List.length_cons, List.replicate_succ, ← ih (by simpa using h)]
    | true => simp at h

/-- The number read as a binary fraction, its first bit worth 1/2. -/
def bitsFraction (c : List Bool) : ℚ := bitsValue c * (1 / 2) ^ c.length

theorem bitsFraction_cons (b : Bool) (c : List Bool) :
    bitsFraction (b :: c) = (b.toNat + bitsFraction c) * (1 / 2) := by
  have hone : (2 : ℚ) ^ c.length * (1 / 2) ^ c.length = 1 := by
    rw [← mul_pow]
    norm_num
  rw [bitsFraction, bitsFraction, bitsValue_cons, List.length_cons, pow_succ]
  push_cast
  linear_combination (b.toNat : ℚ) * (1 / 2) * hone

/-- A code that is, as a fraction, one more in the last place of another is one more with its further bits zeros. -/
theorem bitsValue_eq_of_bitsFraction_succ {d : List Bool} (hle : c.length ≤ d.length)
    (h : bitsFraction d = bitsFraction c + (1 / 2) ^ c.length) :
    bitsValue d = (bitsValue c + 1) * 2 ^ (d.length - c.length) := by
  obtain ⟨k, hk⟩ := Nat.exists_eq_add_of_le hle
  have hone : (2 : ℚ) ^ k * (1 / 2) ^ k = 1 := by
    rw [← mul_pow]
    norm_num
  have hpos : (0 : ℚ) < (1 / 2) ^ (c.length + k) := by positivity
  rw [hk, Nat.add_sub_cancel_left]
  rw [bitsFraction, bitsFraction, hk] at h
  have key : (bitsValue d : ℚ) * (1 / 2) ^ (c.length + k) =
      ((bitsValue c + 1) * 2 ^ k) * (1 / 2) ^ (c.length + k) := by
    rw [h, pow_add]
    linear_combination -((bitsValue c : ℚ) + 1) * (1 / 2) ^ c.length * hone
  exact_mod_cast mul_right_cancel₀ hpos.ne' key

/-! ## The leaves in order -/

/-- The sum of 2^-depth over leaf symbols of `tr`. -/
def depthSum (tr : CodeTree) (xs : List Nat) : ℚ := (xs.map fun x => (1 / 2 : ℚ) ^ treeLength (some tr) x).sum

theorem depthSum_append (tr : CodeTree) (xs ys : List Nat) :
    depthSum tr (xs ++ ys) = depthSum tr xs + depthSum tr ys := by
  rw [depthSum, List.map_append, List.sum_append]
  rfl

theorem depthSum_symbols (h : tr.symbols.Nodup) : depthSum tr tr.symbols = 1 := codeSum_eq_one h

/-- A code is, as a fraction, the sum over the leaves left of some occurrence of its symbol. -/
theorem exists_bitsFraction_eq (hnd : tr.symbols.Nodup) (hc : tr.code x = some c) :
    ∃ p q, tr.symbols = p ++ x :: q ∧ bitsFraction c = depthSum tr p := by
  induction tr generalizing c with
  | leaf z =>
    obtain ⟨rfl, rfl⟩ := code_leaf_eq_some.1 hc
    exact ⟨[], [], rfl, by simp [bitsFraction, bitsValue, depthSum]⟩
  | node l r ihl ihr =>
    have hdisj : l.symbols.Disjoint r.symbols := List.disjoint_of_nodup_append hnd
    have hl : ∀ z ∈ l.symbols, treeLength (some (.node l r)) z = treeLength (some l) z + 1 :=
      fun _ => treeLength_node_left
    have hr : ∀ z ∈ r.symbols, treeLength (some (.node l r)) z = treeLength (some r) z + 1 :=
      fun _ hz => treeLength_node_right (fun hzl => hdisj hzl hz) hz
    rcases code_node_eq_some.1 hc with ⟨d, rfl, hd⟩ | ⟨d, rfl, -, hd⟩
    · obtain ⟨p, q, hpq, hval⟩ := ihl hnd.of_append_left hd
      refine ⟨p, q ++ r.symbols, by simp [CodeTree.symbols, hpq], ?_⟩
      have hhalf : depthSum (.node l r) p = depthSum l p * (1 / 2) :=
        sum_half_of_deeper fun z hz => hl z (hpq ▸ List.mem_append_left _ hz)
      rw [bitsFraction_cons, hval, hhalf]
      simp
    · obtain ⟨p, q, hpq, hval⟩ := ihr hnd.of_append_right hd
      refine ⟨l.symbols ++ p, q, by simp [CodeTree.symbols, hpq], ?_⟩
      have hhalf : depthSum (.node l r) p = depthSum r p * (1 / 2) :=
        sum_half_of_deeper fun z hz => hr z (hpq ▸ List.mem_append_left _ hz)
      have hleft : depthSum (.node l r) l.symbols = depthSum l l.symbols * (1 / 2) := sum_half_of_deeper hl
      rw [bitsFraction_cons, hval, depthSum_append, hleft, depthSum_symbols hnd.of_append_left, hhalf, Bool.toNat_true,
        Nat.cast_one]
      ring

/-- A code is, as a fraction, the sum over the leaves left of its own. -/
theorem bitsFraction_code {p q : List Nat} (hnd : tr.symbols.Nodup) (h : tr.symbols = p ++ x :: q)
    (hc : tr.code x = some c) : bitsFraction c = depthSum tr p := by
  obtain ⟨p', q', h', hval⟩ := exists_bitsFraction_eq hnd hc
  have hx : x ∉ p ++ q := (List.nodup_cons.1 (List.nodup_middle.1 (h ▸ hnd))).1
  rw [List.mem_append, not_or] at hx
  rw [hval, ((List.append_cons_inj_of_notMem hx.1 hx.2).1 (h.symm.trans h')).1]

/-- The first leaf has a code of zeros. -/
theorem code_head {q : List Nat} (hnd : tr.symbols.Nodup) (h : tr.symbols = x :: q) :
    tr.code x = some (List.replicate (treeLength (some tr) x) false) := by
  obtain ⟨c, hc⟩ := exists_code_of_mem (tr := tr) (x := x) (h ▸ List.mem_cons_self)
  have hval : bitsFraction c = 0 := bitsFraction_code (p := []) hnd h hc
  have hzero : bitsValue c = 0 := by simpa [bitsFraction] using hval
  rw [hc, treeLength_of_code hc, ← eq_replicate_of_bitsValue_eq_zero hzero]

/-- The code of the next leaf, which is at least as deep, is one more with the levels between shifted in. -/
theorem code_next {p q : List Nat} (hnd : tr.symbols.Nodup) (h : tr.symbols = p ++ x :: y :: q)
    (hle : treeLength (some tr) x ≤ treeLength (some tr) y) :
    ∃ cx cy, tr.code x = some cx ∧ tr.code y = some cy ∧
      bitsValue cy = (bitsValue cx + 1) * 2 ^ (treeLength (some tr) y - treeLength (some tr) x) := by
  obtain ⟨cx, hcx⟩ := exists_code_of_mem (tr := tr) (x := x) (by simp [h])
  obtain ⟨cy, hcy⟩ := exists_code_of_mem (tr := tr) (x := y) (by simp [h])
  refine ⟨cx, cy, hcx, hcy, ?_⟩
  have hx := bitsFraction_code hnd h hcx
  have hy := bitsFraction_code (p := p ++ [x]) hnd (by simpa using h) hcy
  rw [depthSum_append, ← hx, depthSum, List.map_singleton, List.sum_singleton, treeLength_of_code hcx] at hy
  rw [treeLength_of_code hcx, treeLength_of_code hcy] at hle ⊢
  exact bitsValue_eq_of_bitsFraction_succ hle hy

end Sys2Proof.Machine
end

section
/-! SUPPORT. The order and the depths of the leaves of ToTree()'s tree (42_canonical_code.md R152, R154). -/

namespace Sys2Proof.Machine

variable {L : List Nat} {lo d x y : Nat} {nodes : List CodeTree}

/-! ## Symbols in ascending order of (L[s], s) -/

/-- `x` is before `y` in ascending order of (L[s], s). -/
def LengthBefore (L : List Nat) (x y : Nat) : Prop :=
  L.getD x 0 < L.getD y 0 ∨ (L.getD x 0 = L.getD y 0 ∧ x < y)

theorem LengthBefore.ne (h : LengthBefore L x y) : x ≠ y := by
  rintro rfl
  unfold LengthBefore at h
  omega

theorem LengthBefore.asymm (h : LengthBefore L x y) : ¬ LengthBefore L y x := by
  unfold LengthBefore at *
  omega

theorem lt_length_of_getD_pos (h : 0 < L.getD x 0) : x < L.length := by
  by_contra hx
  rw [List.getD_eq_default _ _ (Nat.le_of_not_lt hx)] at h
  exact h.ne rfl

/-! ## The leaves of a level and the pairs -/

theorem leavesAt_eq_map (L : List Nat) (i : Nat) :
    leavesAt L i = ((List.range L.length).filter fun x => decide (L.getD x 0 = i)).map .leaf := by
  have hzip : L.zipIdx = (List.range L.length).map fun x => (L.getD x 0, x) := by
    apply List.ext_getElem
    · simp
    · intro k hk hk'
      have hlt : k < L.length := by simpa using hk
      simp [hlt]
  rw [leavesAt, hzip, List.filterMap_map, ← List.filterMap_eq_map, List.filterMap_filter]
  congr 1
  funext x
  simp

theorem nodeSymbols_leavesAt_eq (L : List Nat) (i : Nat) :
    nodeSymbols (leavesAt L i) = (List.range L.length).filter fun x => decide (L.getD x 0 = i) := by
  rw [leavesAt_eq_map, nodeSymbols, List.flatMap_map]
  exact (List.flatMap_pure_eq_map id _).trans (List.map_id _)

/-- Pairing an even number of nodes keeps every leaf in its place. -/
theorem nodeSymbols_pairUp_of_even : (nodes : List CodeTree) → nodes.length % 2 ≠ 1 →
    nodeSymbols (pairUp nodes) = nodeSymbols nodes
  | [], _ => rfl
  | [_], h => absurd rfl h
  | a :: b :: rest, h => by
    have hrest : nodeSymbols (pairUp rest) = nodeSymbols rest := by
      refine nodeSymbols_pairUp_of_even rest ?_
      simp only [List.length_cons] at h
      omega
    unfold nodeSymbols at hrest ⊢
    simp [pairUp, CodeTree.symbols, hrest]

/-! ## The loop of ToTree() -/

/-- The nodes of depth `d` carry the symbols of length `lo` or more, in order, each as deep in its node as its length
says. -/
structure LaidOut (L : List Nat) (lo d : Nat) (nodes : List CodeTree) : Prop where
  order : (nodeSymbols nodes).Pairwise (LengthBefore L)
  mem : ∀ x, x ∈ nodeSymbols nodes ↔ x < L.length ∧ lo ≤ L.getD x 0
  depth : ∀ t ∈ nodes, ∀ x ∈ t.symbols, treeLength (some t) x + d = L.getD x 0

theorem LaidOut.nodup (h : LaidOut L lo d nodes) : (nodeSymbols nodes).Nodup := h.order.imp LengthBefore.ne

/-- The leaf of a symbol is one level deeper in the pair of its node. -/
theorem depth_pairUp : (nodes : List CodeTree) → (nodeSymbols nodes).Nodup →
    (∀ t ∈ nodes, ∀ x ∈ t.symbols, treeLength (some t) x + (d + 1) = L.getD x 0) →
    ∀ t ∈ pairUp nodes, ∀ x ∈ t.symbols, treeLength (some t) x + d = L.getD x 0
  | [], _, _ | [_], _, _ => by simp [pairUp]
  | a :: b :: rest, hnd, h => by
    obtain ⟨ha, hrest⟩ := List.forall_mem_cons.1 h
    obtain ⟨hb, hrest⟩ := List.forall_mem_cons.1 hrest
    have hsplit : nodeSymbols (a :: b :: rest) = (a.symbols ++ b.symbols) ++ nodeSymbols rest := by
      simp [nodeSymbols]
    rw [hsplit] at hnd
    refine List.forall_mem_cons.2 ⟨fun x hx => ?_, depth_pairUp rest hnd.of_append_right hrest⟩
    by_cases hxa : x ∈ a.symbols
    · rw [treeLength_node_left hxa, ← ha x hxa]
      omega
    · have hxb : x ∈ b.symbols := (List.mem_append.1 hx).resolve_left hxa
      rw [treeLength_node_right hxa hxb, ← hb x hxb]
      omega

theorem LaidOut.pairUp (h : LaidOut L lo (d + 1) nodes) (he : nodes.length % 2 ≠ 1) :
    LaidOut L lo d (pairUp nodes) where
  order := nodeSymbols_pairUp_of_even nodes he ▸ h.order
  mem := nodeSymbols_pairUp_of_even nodes he ▸ h.mem
  depth := depth_pairUp nodes h.nodup h.depth

/-- The fresh leaves of a level, whose lengths are less, come before the nodes carried to it. -/
theorem LaidOut.addLeaves {i : Nat} (h : LaidOut L (i + 1) i nodes) : LaidOut L i i (leavesAt L i ++ nodes) := by
  have hsplit : nodeSymbols (leavesAt L i ++ nodes) = nodeSymbols (leavesAt L i) ++ nodeSymbols nodes :=
    List.flatMap_append
  have hleaf : ∀ x, x ∈ nodeSymbols (leavesAt L i) ↔ x < L.length ∧ L.getD x 0 = i := fun x => by
    rw [nodeSymbols_leavesAt_eq, List.mem_filter, List.mem_range, decide_eq_true_iff]
  constructor
  case order =>
    rw [hsplit, List.pairwise_append]
    refine ⟨?_, h.order, fun x hx y hy => .inl ?_⟩
    · have hlt : (nodeSymbols (leavesAt L i)).Pairwise (· < ·) := by
        rw [nodeSymbols_leavesAt_eq]
        exact List.pairwise_lt_range.filter _
      exact hlt.imp_of_mem fun hx hy hxy => .inr ⟨((hleaf _).1 hx).2.trans ((hleaf _).1 hy).2.symm, hxy⟩
    · rw [((hleaf x).1 hx).2]
      exact ((h.mem y).1 hy).2
  case mem =>
    intro x
    rw [hsplit, List.mem_append, hleaf, h.mem, ← and_or_left]
    exact and_congr_right fun _ => by omega
  case depth =>
    intro t ht
    rcases List.mem_append.1 ht with hl | hn
    · rw [leavesAt_eq_map] at hl
      obtain ⟨z, hz, rfl⟩ := List.mem_map.1 hl
      rintro x hx
      obtain rfl : x = z := by simpa [CodeTree.symbols] using hx
      have hi : L.getD x 0 = i := by simpa using (List.mem_filter.1 hz).2
      rw [hi, treeLength_of_code (code_leaf_eq_some.2 ⟨rfl, rfl⟩), List.length_nil, zero_add]
    · exact h.depth t hn

theorem LaidOut.treeLevels {i : Nat} {ts : List CodeTree} (h : LaidOut L (i + 1) (i + 1) nodes)
    (ht : treeLevels L i nodes = .ok ts) : LaidOut L 1 0 ts := by
  induction i generalizing nodes with
  | zero =>
    unfold Machine.treeLevels at ht
    split at ht
    · cases ht
    · next he =>
      cases ht
      exact h.pairUp he
  | succ i ih =>
    unfold Machine.treeLevels at ht
    split at ht
    · cases ht
    · next he => exact ih (h.pairUp he).addLeaves ht

/-- Deeper than the greatest length there is no node. -/
theorem laidOut_nil (L : List Nat) : LaidOut L (L.foldl max 0 + 1) (L.foldl max 0 + 1) [] where
  order := .nil
  mem x := by
    refine iff_of_false List.not_mem_nil fun ⟨hx, hle⟩ => ?_
    rw [List.getD_eq_getElem _ _ hx] at hle
    exact Nat.not_succ_le_self _ (hle.trans ((le_foldl_max L 0).2 _ (List.getElem_mem hx)))
  depth := List.forall_mem_nil _

/-- The tree of ToTree() has a leaf for each positive length, as deep as the length says, in the order of (L[s], s). -/
theorem toTree_laidOut {tr : CodeTree} (h : toTree L = .ok tr) : LaidOut L 1 0 [tr] := by
  unfold toTree at h
  split at h
  · cases h
  · next ht =>
    cases h
    exact (laidOut_nil L).treeLevels ht
  · cases h

/-! ## The lengths and the codes of ToTree()'s tree -/

section Tree

variable {tr : CodeTree} (h : toTree L = .ok tr)
include h

theorem toTree_symbols_pairwise : tr.symbols.Pairwise (LengthBefore L) := by
  simpa [nodeSymbols] using (toTree_laidOut h).order

theorem toTree_symbols_nodup : tr.symbols.Nodup := (toTree_symbols_pairwise h).imp LengthBefore.ne

theorem mem_toTree_symbols : x ∈ tr.symbols ↔ 0 < L.getD x 0 := by
  have hmem := (toTree_laidOut h).mem x
  rw [nodeSymbols, List.flatMap_singleton] at hmem
  exact hmem.trans (and_iff_right_of_imp lt_length_of_getD_pos)

/-- The depth of every symbol's leaf is its length (42_canonical_code.md R153 c). -/
theorem treeLength_toTree (x : Nat) : treeLength (some tr) x = L.getD x 0 := by
  by_cases hx : x ∈ tr.symbols
  · exact (toTree_laidOut h).depth tr (List.mem_singleton_self tr) x hx
  · have hzero : L.getD x 0 = 0 := Nat.eq_zero_of_not_pos fun hp => hx ((mem_toTree_symbols h).2 hp)
    rw [hzero, treeLength, code_eq_none_iff.2 hx]

/-- The first symbol in the order has a code of zeros. -/
theorem toTree_code_first (hx : 0 < L.getD x 0) (hmin : ∀ z, 0 < L.getD z 0 → ¬ LengthBefore L z x) :
    tr.code x = some (List.replicate (L.getD x 0) false) := by
  obtain ⟨p, q, hpq⟩ := List.append_of_mem ((mem_toTree_symbols h).2 hx)
  have hsorted := toTree_symbols_pairwise h
  rw [hpq, List.pairwise_append] at hsorted
  obtain ⟨-, -, hbefore⟩ := hsorted
  have hp : p = [] := List.eq_nil_iff_forall_not_mem.2 fun z hz =>
    hmin z ((mem_toTree_symbols h).1 (by simp [hpq, hz])) (hbefore z hz x List.mem_cons_self)
  rw [← treeLength_toTree h]
  exact code_head (toTree_symbols_nodup h) (hpq.trans (by rw [hp, List.nil_append]))

/-- The next symbol in the order has the code before plus one, shifted by the difference of the lengths. -/
theorem toTree_code_next (hx : 0 < L.getD x 0) (hxy : LengthBefore L x y)
    (hnext : ∀ z, 0 < L.getD z 0 → ¬ (LengthBefore L x z ∧ LengthBefore L z y)) :
    ∃ cx cy, tr.code x = some cx ∧ tr.code y = some cy ∧
      bitsValue cy = (bitsValue cx + 1) * 2 ^ (L.getD y 0 - L.getD x 0) := by
  have hle : L.getD x 0 ≤ L.getD y 0 := by
    unfold LengthBefore at hxy
    omega
  have hsorted := toTree_symbols_pairwise h
  obtain ⟨p, q, hpq⟩ := List.append_of_mem ((mem_toTree_symbols h).2 hx)
  rw [hpq, List.pairwise_append, List.pairwise_cons] at hsorted
  obtain ⟨-, ⟨hafter, hq⟩, hbefore⟩ := hsorted
  have hyq : y ∈ q := by
    have hy : y ∈ p ++ x :: q := hpq ▸ (mem_toTree_symbols h).2 (hx.trans_le hle)
    rcases List.mem_append.1 hy with hyp | hy
    · exact absurd hxy (hbefore y hyp x List.mem_cons_self).asymm
    · exact (List.mem_cons.1 hy).resolve_left hxy.ne.symm
  obtain ⟨q1, q2, rfl⟩ := List.append_of_mem hyq
  have hq1 : q1 = [] := List.eq_nil_iff_forall_not_mem.2 fun z hz =>
    hnext z ((mem_toTree_symbols h).1 (by simp [hpq, hz]))
      ⟨hafter z (List.mem_append_left _ hz), (List.pairwise_append.1 hq).2.2 z hz y List.mem_cons_self⟩
  rw [← treeLength_toTree h, ← treeLength_toTree h] at hle ⊢
  exact code_next (toTree_symbols_nodup h) (hpq.trans (by rw [hq1, List.nil_append])) hle

end Tree

/-! ## The lengths in CL -/

variable {s : State}

theorem getD_lengthList (hl : s.limit ≤ 257) (hx : x < s.limit) : s.lengthList.getD x 0 = (s.len x).toNat := by
  have hlt : x < 257 := hx.trans_le hl
  simp [State.lengthList, State.len, tableGet, hlt, hx, List.getD]

theorem lt_limit_of_getD_pos (h : 0 < s.lengthList.getD x 0) : x < s.limit :=
  (lt_length_of_getD_pos h).trans_le (by simp [State.lengthList])

theorem lengthBefore_lengthList (hl : s.limit ≤ 257) (hx : x < s.limit) (hy : y < s.limit) :
    LengthBefore s.lengthList x y ↔ s.lengthBefore x y := by
  rw [LengthBefore, getD_lengthList hl hx, getD_lengthList hl hy, State.lengthBefore]

/-- ToTree() over CL assigns the codes canonically (42_canonical_code.md R154). -/
theorem toTree_canonicalCodes {tr : CodeTree} (hl : s.limit ≤ 257) (h : toTree s.lengthList = .ok tr) :
    CanonicalCodes s tr := by
  have hin : ∀ z, 0 < s.lengthList.getD z 0 → z < s.limit ∧ 0 < (s.len z).toNat := fun z hz =>
    have hzl := lt_limit_of_getD_pos hz
    ⟨hzl, getD_lengthList hl hzl ▸ hz⟩
  refine ⟨fun x hx hpos hmin => ?_, fun x y hx hy hpos hxy hnext => ?_⟩
  · rw [← getD_lengthList hl hx] at hpos ⊢
    refine toTree_code_first h hpos fun z hz hzx => ?_
    obtain ⟨hzl, hzpos⟩ := hin z hz
    exact hmin z hzl hzpos ((lengthBefore_lengthList hl hzl hx).1 hzx)
  · rw [← getD_lengthList hl hx] at hpos
    rw [← getD_lengthList hl hx, ← getD_lengthList hl hy]
    refine toTree_code_next h hpos ((lengthBefore_lengthList hl hx hy).2 hxy) fun z hz ⟨hxz, hzy⟩ => ?_
    obtain ⟨hzl, hzpos⟩ := hin z hz
    exact hnext z hzl hzpos
      ⟨(lengthBefore_lengthList hl hx hzl).1 hxz, (lengthBefore_lengthList hl hzl hy).1 hzy⟩

end Sys2Proof.Machine
end

section
/-! SUPPORT. The canonical code commands from their start, one equation a command (42_canonical_code.md R156 to R159). -/

namespace Sys2Proof.Machine

variable {s : State} {w a : Word} {tr : CodeTree}

theorem exec_clSet_start {sym : Nat} (hs : s.seq = .running w a .start) :
    exec (.clSet sym) s =
      checkSym sym s fun s => checkNonneg a .negLen s fun s => complete (s.setLen sym (a.setWidth 31)) := by
  rw [exec, execClSet, atStart_running _ hs]

theorem exec_ccCheck_ok (hs : s.seq = .running w a .start) (hc : checkLengths s.lengthList = .ok ()) :
    exec .ccCheck s = .next s.toIdle := by
  rw [exec, execCcCheck, atStart_running _ hs, checking, hc]
  rfl

theorem exec_ccCheck_error {e : ErrKind} {info : Word} (hs : s.seq = .running w a .start)
    (hc : checkLengths s.lengthList = .error (e, info)) : exec .ccCheck s = .next (s.failed e info) := by
  rw [exec, execCcCheck, atStart_running _ hs, checking, hc]
  rfl

theorem exec_ccFromTree_noTree (hs : s.seq = .running w a .start) (ht : s.tree = none) :
    exec .ccFromTree s = .next (s.failed .noTree 0) := by
  rw [exec, execCcFromTree, atStart_running _ hs, ht]
  rfl

theorem exec_ccFromTree_tree (hs : s.seq = .running w a .start) (ht : s.tree = some tr) :
    exec .ccFromTree s = .next (s.fillLen (treeLength (some tr))).toIdle := by
  rw [exec, execCcFromTree, atStart_running _ hs, ht]
  rfl

theorem exec_ccToTree_ok (hs : s.seq = .running w a .start) (ht : toTree s.lengthList = .ok tr) :
    exec .ccToTree s = .next (State.toIdle { s with tree := some tr }) := by
  rw [exec, execCcToTree, atStart_running _ hs, installing, ht]
  rfl

theorem exec_ccToTree_error {n : Nat} (hs : s.seq = .running w a .start) (ht : toTree s.lengthList = .error n) :
    exec .ccToTree s = .next (s.failed .badLengths (BitVec.ofNat 32 n)) := by
  rw [exec, execCcToTree, atStart_running _ hs, installing, ht]
  rfl

/-- An argument that is not negative keeps its value in the 31 bits of a length (42_canonical_code.md R156). -/
theorem toNat_setWidth_of_nonneg (h : 0 ≤ a.toInt) : (a.setWidth 31).toNat = a.toNat := by
  have hlt : a.toNat < 2 ^ 31 := by
    rw [BitVec.toInt_eq_toNat_cond] at h
    omega
  rw [BitVec.toNat_setWidth, Nat.mod_eq_of_lt hlt]

/-- A depth in a legal tree is below its number of leaves (00_scope.md R14). -/
theorem CodeTree.Legal.treeLength_le {lim : Nat} (h : tr.Legal lim) (x : Nat) : treeLength (some tr) x ≤ lim := by
  cases hc : tr.code x with
  | none => simp [treeLength, hc]
  | some c => exact (treeLength_of_code hc).trans_le ((length_code_lt hc).le.trans h.length_symbols_le)

end Sys2Proof.Machine
end

section
/-! The statements about the canonical code (42_canonical_code.md). -/

namespace Sys2Proof.Proofs

open Sys2Proof Sys2Proof.Machine

/-- Settles O19: Check() by the number of nodes of each level; one node at the root is a Kraft sum of 1. -/
theorem ccCheckAcceptsCompleteCodes : Obligations.CcCheckAcceptsCompleteCodes := by
  intro s w a hs
  rw [← rootNodes_one_iff, ← checkLengths_ok_iff]
  cases hc : checkLengths s.lengthList with
  | ok =>
    refine ⟨fun _ => exec_ccCheck_ok hs hc, fun hbad => absurd rfl hbad, fun detail info hf => ?_⟩
    exact absurd (checkLengths_ok_iff.1 hc) hf.not_complete
  | error f =>
    obtain ⟨hcode, hfails⟩ := checkLengths_error hc
    have hexec : exec .ccCheck s = .next (s.withError 1 f.1.detail f.2) := by
      rw [exec_ccCheck_error hs hc, ← hcode]
      rfl
    refine ⟨fun h => (nomatch h), fun _ => ⟨_, _, hfails, hexec⟩, fun detail info hf => ?_⟩
    obtain ⟨rfl, rfl⟩ := hf.unique hfails
    exact hexec

/-- Settles O20: a depth of a legal tree fits a length. -/
theorem ccFromTreeWritesDepths : Obligations.CcFromTreeWritesDepths := by
  intro s w a hlim hlegal hs
  refine ⟨exec_ccFromTree_noTree hs, fun tr ht => ⟨_, exec_ccFromTree_tree hs ht, rfl, fun k => ?_⟩⟩
  have hdepth := (hlegal tr ht).treeLength_le k
  have hmax := hlim.2
  rw [State.toIdle_len, State.len_fillLen]
  by_cases hk : k < s.limit
  · rw [if_pos ⟨hk, by omega⟩, if_pos hk, BitVec.toNat_ofNat, Nat.mod_eq_of_lt (by omega)]
  · rw [if_neg (fun h => hk h.1), if_neg hk]

/-- Settles O21: the leaves stand in the order of (CL[s], s), each as deep as its length says. -/
theorem ccToTreeInstallsTheLengths : Obligations.CcToTreeInstallsTheLengths := by
  intro s w a hlim hs
  refine ⟨fun tr ht => ⟨exec_ccToTree_ok hs ht, toTree_lengthList_legal ht, fun k hk => ?_,
    toTree_canonicalCodes hlim.2 ht⟩, fun n => (toTree_error_iff _ n).1,
    fun n hn => exec_ccToTree_error hs ((toTree_error_iff _ n).2 hn)⟩
  rw [treeLength_toTree ht, getD_lengthList hlim.2 hk]

/-- Settles O22: both ask for one node at the root and an even number at every level below it. -/
theorem toTreeSucceedsExactlyWhenCheckDoes : Obligations.ToTreeSucceedsExactlyWhenCheckDoes := fun _ =>
  exists_toTree_iff.trans checkLengths_ok_iff.symm

/-- Settles O18, by the range of the symbol and the sign of the argument. -/
theorem clSetWritesTheLength : Obligations.ClSetWritesTheLength := by
  intro s w a sym hlim hs
  rw [exec_clSet_start hs]
  refine ⟨fun hl ha => ⟨_, (checkSym_of_lt _ hl).trans (checkNonneg_of_nonneg _ _ ha), rfl, ?_, fun k hk => ?_⟩,
    checkSym_of_ge _, fun hl ha => (checkSym_of_lt _ hl).trans (checkNonneg_of_neg _ _ ha)⟩
  · rw [State.toIdle_len, State.len_setLen, if_pos ⟨rfl, hl.trans_le hlim.2⟩]
    exact toNat_setWidth_of_nonneg ha
  · rw [State.toIdle_len, State.len_setLen, if_neg (fun h => hk h.1)]

end Sys2Proof.Proofs
end

section
/-! SUPPORT. ENC_SYM and DEC_SYM by their positions, and how the putting of a code and the walk end under them
(43_codec.md R170 to R173). -/

namespace Sys2Proof.Machine

variable {s t : State} {w a : Word} {p : Pos} {sym : Nat} {tr l r : CodeTree} {c bits : List Bool}

/-! ## The commands, one equation a position -/

theorem exec_encSym_start (hs : s.seq = .running w a .start) : exec (.encSym sym) s = encodeSym sym complete s := by
  simp only [exec, execEncSym, State.pos_eq_some.2 ⟨w, a, hs⟩]

theorem exec_encSym_code {it : Item} {sym' : Nat} (hs : s.seq = .running w a (.pushOut it (.code sym' bits)))
    (hq : s.outQ.length < Config.outDepth) :
    exec (.encSym sym) s = emitCode sym' complete bits { s with outQ := s.outQ ++ [it] } := by
  simp only [exec, execEncSym, State.pos_eq_some.2 ⟨w, a, hs⟩]
  exact pushOut_room _ hq

theorem exec_encSym_start_some (hs : s.seq = .running w a .start) (ht : s.tree = some tr) (hl : sym < s.limit)
    (hc : tr.code sym = some c) : exec (.encSym sym) s = emitCode sym complete c s :=
  (exec_encSym_start hs).trans (withCode_some _ ht hl hc)

theorem exec_decSym_start (hs : s.seq = .running w a .start) : exec .decSym s = decodeSym decSymDone s := by
  simp only [exec, execDecSym, State.pos_eq_some.2 ⟨w, a, hs⟩]

theorem exec_decSym_walk {it : Item} {rest : List Item} (hs : s.seq = .running w a (.popIn (.walk l r)))
    (hq : s.inQ = it :: rest) : exec .decSym s = resumeWalk decSymDone l r it { s with inQ := rest } := by
  simp only [exec, execDecSym, State.pos_eq_some.2 ⟨w, a, hs⟩]
  exact popIn_cons _ hq

/-! ## Encode() with nothing after it -/

theorem emitCode_complete_of_fit (sym : Nat) (h : s.boNbits.val + bits.length < 8) :
    ∃ t, emitCode sym complete bits s = .next t ∧
      t = { s with boBuf := t.boBuf, boNbits := t.boNbits, seq := .idle } ∧
      t.pendingBits = s.pendingBits ++ bits := by
  obtain ⟨u, hu, hsame, -, hbits⟩ := putBits_fit bits s h
  exact ⟨u.toIdle, by rw [emitCode, hu]; rfl, congrArg State.toIdle hsame, hbits⟩

theorem emitCode_of_fill (sym : Nat) (k : State → Out) (hs : s.seq = .running w a p)
    (h : 8 ≤ s.boNbits.val + bits.length) :
    ∃ v rest, emitCode sym k bits s =
        .next { s with boBuf := 0, boNbits := 0, seq := .running w a (.pushOut (.byte v) (.code sym rest)) } ∧
      byteBits v ++ rest = s.pendingBits ++ bits := by
  obtain ⟨v, rest, hu, hbits⟩ := putBits_fill bits s h
  refine ⟨v, rest, ?_, hbits⟩
  rw [emitCode, hu]
  exact congrArg Host.Outcome.next (State.park_of_running (s := s.resetBO) hs)

/-! ## Decode() -/

theorem decodeSym_of_noTree (k : Nat → State → Out) (ht : s.tree = none) :
    decodeSym k s = .next (s.failed .noTree 0) := by
  simp only [decodeSym, ht, raise]

theorem decodeSym_some (k : Nat → State → Out) (ht : s.tree = some tr) : decodeSym k s = walk k tr s := by
  simp only [decodeSym, ht]

/-- Inside the tree the end of the input is an error, at the first bit too (R171). -/
theorem walk_node_of_eof (k : Nat → State → Out) (he : s.biEof = true) :
    walk k (.node l r) s = .next (s.failed .unexpectedEof 0) := by
  rw [walk, getBit, if_pos he]
  rfl

theorem walk_node_of_empty (k : Nat → State → Out) (he : s.biEof = false) (hn : s.biNrem = 0) :
    walk k (.node l r) s = parkAt (.popIn (.walk l r)) s := by
  rw [walk, getBit, if_neg (Bool.eq_false_iff.1 he), dif_pos (Fin.val_eq_zero_iff.2 hn)]
  rfl

/-- A symbol's code is a path to a leaf that carries it (41_code_tree.md R130). -/
theorem follow_code (hc : tr.code sym = some c) : tr.follow c = some (.leaf sym) := by
  induction tr generalizing c with
  | leaf x =>
    obtain ⟨rfl, rfl⟩ := code_leaf_eq_some.1 hc
    rfl
  | node l r ihl ihr =>
    obtain ⟨q, rfl, hq⟩ | ⟨q, rfl, -, hq⟩ := code_node_eq_some.1 hc
    · exact ihl hq
    · exact ihr hq

/-- What follows Decode() in DEC_SYM (R173): RESULT is the symbol and the command completes. -/
def DecSymAnswers (sym : Nat) (s t : State) : Prop := t = State.toIdle { s with result := symWord sym }

theorem decSymDone_answers (sym : Nat) (s : State) : ∃ t, decSymDone sym s = .next t ∧ DecSymAnswers sym s t :=
  ⟨_, rfl, rfl⟩

/-- Where the bits begin with a symbol's code, DEC_SYM's walk consumes it and answers the symbol. -/
theorem WalkOutcome.of_code (h : WalkOutcome w a tr bits s DecSymAnswers t) (hc : tr.code sym = some c)
    (hp : c <+: bits) :
    t.unreadBits = bits.drop c.length ∧
      t = { s with result := BitVec.ofNat 32 sym, biNrem := t.biNrem, seq := .idle } := by
  obtain ⟨u, hu, hbits, rfl⟩ := h.1 c sym hp (follow_code hc)
  exact ⟨hbits, congrArg (fun u : State => State.toIdle { u with result := symWord sym }) hu⟩

end Sys2Proof.Machine
end

section
/-! The statements about the symbol encoder and decoder (43_codec.md). -/

namespace Sys2Proof.Proofs

open Sys2Proof Sys2Proof.Machine

/-- Settles O23: from its start and from its push ENC_SYM goes on with the bits to put, which all fit. -/
theorem encSymPutsTheCodeBits : Obligations.EncSymPutsTheCodeBits := by
  intro s w a sym
  refine ⟨fun tr c hs ht hl hc h => ?_, fun it sym' rest hs hq h => ?_⟩
  · rw [exec_encSym_start_some hs ht hl hc]
    exact emitCode_complete_of_fit sym h
  · rw [exec_encSym_code hs hq]
    exact emitCode_complete_of_fit (s := { s with outQ := s.outQ ++ [it] }) sym' h

/-- Settles O24: from its start and from its push ENC_SYM goes on with the bits to put, which reach a byte's end. -/
theorem encSymParksAtAFullByte : Obligations.EncSymParksAtAFullByte := by
  intro s w a sym
  refine ⟨fun tr c hs ht hl hc h => ?_, fun it sym' bits hs hq h => ?_⟩
  · rw [exec_encSym_start_some hs ht hl hc]
    exact emitCode_of_fill sym complete hs h
  · rw [exec_encSym_code hs hq]
    exact emitCode_of_fill (s := { s with outQ := s.outQ ++ [it] }) sym' complete hs h

/-- Settles O25, by the outcome of the walk from the root over the unread bits, and from a node over a byte's bits. -/
theorem decSymReadsACode : Obligations.DecSymReadsACode := by
  intro s w a
  refine ⟨fun tr hs ht he => ?_, fun l r b rest hs hq he => ?_⟩
  · obtain ⟨t, hwalk, hout⟩ := walk_outcome decSymDone DecSymAnswers tr s hs he
      fun x u _ _ => decSymDone_answers x u
    rw [exec_decSym_start hs, decodeSym_some _ ht, hwalk]
    exact ⟨fun sym c hc hp => ⟨t, rfl, hout.of_code hc hp⟩, fun l r hf => congrArg _ (hout.2 l r hf)⟩
  · obtain ⟨t, hwalk, hout⟩ := resumeWalk_outcome decSymDone DecSymAnswers l r b { s with inQ := rest } hs he
      fun x u _ => decSymDone_answers x u
    rw [exec_decSym_walk hs hq, hwalk]
    exact ⟨fun sym c hc hp => ⟨t, rfl, hout.of_code hc hp⟩, fun l' r' hf => congrArg _ (hout.2 l' r' hf)⟩

/-- Settles O26: ENC_SYM's checks are those of the code's lookup, and DEC_SYM's first bit meets the end of the input, an
empty cursor, or END popped. -/
theorem codecCommandsWaitOrFail : Obligations.CodecCommandsWaitOrFail := by
  intro s w a
  refine ⟨fun hs ht => ?_, fun tr sym hs ht => ?_, fun l r hs ht => ?_, fun l r rest hs hq => ?_⟩
  · rw [exec_decSym_start hs]
    exact ⟨decodeSym_of_noTree _ ht, fun sym => (exec_encSym_start hs).trans (withCode_of_noTree _ ht)⟩
  · rw [exec_encSym_start hs]
    exact ⟨withCode_of_ge _ ht, withCode_of_noCode _ ht⟩
  · rw [exec_decSym_start hs, decodeSym_some _ ht]
    refine ⟨walk_node_of_eof _, fun he hn => (walk_node_of_empty _ he hn).trans ?_⟩
    rw [parkAt, State.park_of_running hs]
  · rw [exec_decSym_walk hs hq, resumeWalk_end]

end Sys2Proof.Proofs
end

section
/-! SUPPORT. The bit-stream commands by their positions (44_bitstream.md R186 to R191), and a run of IN_SKIP over a
session. -/

namespace Sys2Proof.Machine

open Sys2Proof

variable {s t u : State} {w a : Word} {p : Pos} {it : Item} {rest : List Item}

/-! ## BO_WRITE (R186) -/

theorem exec_boWrite_of_bit {b : Bool} (hs : s.seq = .running w ((BitVec.ofBool b).setWidth 32) .start)
    (hp : putBit b s = (u, none)) : exec .boWrite s = .next u.toIdle := by
  simp only [exec, execBoWrite, State.pos_eq_some.2 ⟨_, _, hs⟩, State.argument, hs]
  cases b <;> simp [hp, complete]

theorem exec_boWrite_of_eighth_bit {b : Bool} {v : Byte}
    (hs : s.seq = .running w ((BitVec.ofBool b).setWidth 32) .start) (hp : putBit b s = (u, some v)) :
    exec .boWrite s = parkAt (.pushOut (.byte v) .bit) u := by
  simp only [exec, execBoWrite, State.pos_eq_some.2 ⟨_, _, hs⟩, State.argument, hs]
  cases b <;> simp [hp]

theorem exec_boWrite_of_not_bit (hs : s.seq = .running w a .start) (h0 : a ≠ 0) (h1 : a ≠ 1) :
    exec .boWrite s = .next (s.failed .bitValue a) := by
  simp only [exec, execBoWrite, State.pos_eq_some.2 ⟨w, a, hs⟩, State.argument, hs]
  exact if_pos ⟨h0, h1⟩

theorem exec_boWrite_push (hs : s.seq = .running w a (.pushOut it .bit)) (hq : s.outQ.length < Config.outDepth) :
    exec .boWrite s = .next (State.toIdle { s with outQ := s.outQ ++ [it] }) := by
  simp only [exec, execBoWrite, State.pos_eq_some.2 ⟨w, a, hs⟩]
  exact pushOut_room _ hq

/-! ## BO_CLOSE (R187) -/

theorem exec_boClose_start (hs : s.seq = .running w a .start) : exec .boClose s = closeOut s := by
  simp only [exec, execBoClose, State.pos_eq_some.2 ⟨w, a, hs⟩]

theorem exec_boClose_pad (hs : s.seq = .running w a (.pushOut it .pad)) (hq : s.outQ.length < Config.outDepth) :
    exec .boClose s = closeOut { s with outQ := s.outQ ++ [it] } := by
  simp only [exec, execBoClose, State.pos_eq_some.2 ⟨w, a, hs⟩]
  exact pushOut_room _ hq

theorem exec_boClose_close (hs : s.seq = .running w a (.pushOut it .close)) (hq : s.outQ.length < Config.outDepth) :
    exec .boClose s = .next (State.toIdle { s with outQ := s.outQ ++ [it] }) := by
  simp only [exec, execBoClose, State.pos_eq_some.2 ⟨w, a, hs⟩]
  exact pushOut_room _ hq

theorem closeOut_of_empty (hs : s.seq = .running w a p) (h0 : s.boNbits = 0) :
    closeOut s = .next { s with seq := .running w a (.pushOut .endItem .close) } := by
  obtain ⟨t, ht, hclose, -⟩ := closeOut_outcome s hs
  rw [ht, hclose h0]

/-! ## BI_READ and BI_READ_NOEOF (R182, R183, R188, R189) -/

theorem getBit_of_eof (he : s.biEof = true) : getBit s = .eof s := if_pos he

theorem getBit_of_empty (he : s.biEof = false) (hn : s.biNrem = 0) : getBit s = .need s := by
  rw [getBit, if_neg (Bool.eq_false_iff.1 he), dif_pos (Fin.val_eq_zero_iff.2 hn)]

theorem exec_biRead_start (hs : s.seq = .running w a .start) :
    exec .biRead s = (getBit s).andThen (.popIn .bit) readSentinel readDone := by
  simp only [exec, execBiRead, State.pos_eq_some.2 ⟨w, a, hs⟩]

theorem exec_biReadNoeof_start (hs : s.seq = .running w a .start) :
    exec .biReadNoeof s = (getBit s).andThen (.popIn .bit) unexpectedEof readDone := by
  simp only [exec, execBiReadNoeof, State.pos_eq_some.2 ⟨w, a, hs⟩]

theorem exec_biRead_popped (hs : s.seq = .running w a (.popIn .bit)) (hq : s.inQ = it :: rest) :
    exec .biRead s = (gotItem it { s with inQ := rest }).andThen (.popIn .bit) readSentinel readDone := by
  simp only [exec, execBiRead, State.pos_eq_some.2 ⟨w, a, hs⟩]
  exact popIn_cons _ hq

theorem exec_biReadNoeof_popped (hs : s.seq = .running w a (.popIn .bit)) (hq : s.inQ = it :: rest) :
    exec .biReadNoeof s = (gotItem it { s with inQ := rest }).andThen (.popIn .bit) unexpectedEof readDone := by
  simp only [exec, execBiReadNoeof, State.pos_eq_some.2 ⟨w, a, hs⟩]
  exact popIn_cons _ hq

theorem exec_bitReader_start {i : Instr} (hi : i ∈ [Instr.biRead, .biReadNoeof]) (hs : s.seq = .running w a .start) :
    ∃ onEof, exec i s = (getBit s).andThen (.popIn .bit) onEof readDone := by
  obtain rfl | rfl := List.mem_pair.1 hi
  · exact ⟨_, exec_biRead_start hs⟩
  · exact ⟨_, exec_biReadNoeof_start hs⟩

theorem exec_bitReader_byte {i : Instr} {b : Byte} (hi : i ∈ [Instr.biRead, .biReadNoeof])
    (hs : s.seq = .running w a (.popIn .bit)) (hq : s.inQ = .byte b :: rest) :
    exec i s = readDone (b.getLsbD 7) { s with inQ := rest, biByte := b, biNrem := 7 } := by
  obtain rfl | rfl := List.mem_pair.1 hi
  · exact exec_biRead_popped hs hq
  · exact exec_biReadNoeof_popped hs hq

/-! ## IN_SKIP (R185, R191) -/

theorem exec_inSkip_start (hs : s.seq = .running w a .start) :
    exec .inSkip s = .next { s with seq := .running w a (.popIn .drain) } := by
  simp only [exec, execInSkip, State.pos_eq_some.2 ⟨w, a, hs⟩]
  exact congrArg Host.Outcome.next (State.park_of_running hs)

theorem exec_inSkip_popped (hs : s.seq = .running w a (.popIn .drain)) (hq : s.inQ = it :: rest) :
    exec .inSkip s = drained complete it { s with inQ := rest } := by
  simp only [exec, execInSkip, State.pos_eq_some.2 ⟨w, a, hs⟩]
  exact popIn_cons _ hq

theorem exec_inSkip_byte {b : Byte} (hs : s.seq = .running w a (.popIn .drain)) (hq : s.inQ = .byte b :: rest) :
    exec .inSkip s = .next { s with inQ := rest } := by
  rw [exec_inSkip_popped hs hq, drained, parkAt, State.park_of_running (s := { s with inQ := rest }) hs, ← hs]

theorem exec_inSkip_end (hs : s.seq = .running w a (.popIn .drain)) (hq : s.inQ = .endItem :: rest) :
    exec .inSkip s = .next { s with inQ := rest, seq := .idle } :=
  exec_inSkip_popped hs hq

/-- With no turn of the host to come, a run goes on from what the command's segment leaves. -/
theorem run_succ_of_exec {i : Instr} (n : Nat) (hsc : s.script = []) (hs : s.seq = .running w a p)
    (hd : decode w = .ok i) (h : exec i s = .next t) : core.run (n + 1) s = core.run n t := by
  have hstep : core.step s = .next t := (step_of_empty hsc).trans ((engineStep_running hs hd).trans h)
  simp only [Host.Core.run, hstep]

theorem decode_inSkip : decode 0x55 = .ok .inSkip := by decide

/-- From its PopIn a run of IN_SKIP takes one step for each byte of the session, and one for its END. -/
theorem run_inSkip_drain (bs : List Byte) (hs : s.seq = .running 0x55 a (.popIn .drain)) (hsc : s.script = [])
    (hq : s.inQ = bs.map .byte ++ .endItem :: rest) :
    core.run (bs.length + 1) s = .next { s with inQ := rest, seq := .idle } := by
  induction bs generalizing s with
  | nil => exact run_succ_of_exec 0 hsc hs decode_inSkip (exec_inSkip_end hs hq)
  | cons b bs ih =>
    rw [List.length_cons, run_succ_of_exec _ hsc hs decode_inSkip (exec_inSkip_byte hs hq)]
    exact ih hs hsc rfl

end Sys2Proof.Machine
end

section
/-! The statements about the bit-stream adapters (44_bitstream.md). -/

namespace Sys2Proof.Proofs

open Sys2Proof Sys2Proof.Machine

/-- Settles O27: the argument's bit is put, which completes the byte where seven bits are pending. -/
theorem boWritePutsOneBit : Obligations.BoWritePutsOneBit := by
  intro s w a
  refine ⟨fun hs => ⟨?_, ?_, exec_boWrite_of_not_bit hs⟩, fun it => exec_boWrite_push⟩
  · rintro b rfl h7
    obtain ⟨u, hput, hsame, -, hbits⟩ := putBit_pending b s (Nat.succ_lt_succ h7)
    exact ⟨u.toIdle, exec_boWrite_of_bit hs hput, congrArg State.toIdle hsame, hbits⟩
  · rintro b rfl h7
    obtain ⟨v, hput, hbits⟩ := putBit_byte b s (congrArg Fin.val h7)
    refine ⟨v, (exec_boWrite_of_eighth_bit hs hput).trans ?_, hbits⟩
    exact congrArg Host.Outcome.next (State.park_of_running (s := s.resetBO) hs)

/-- Settles O28: CloseOut() from the start, and again after the padded byte's push. -/
theorem boClosePadsAndEnds : Obligations.BoClosePadsAndEnds := by
  intro s w a
  refine ⟨fun hs => ?_, fun it hs hq h0 => ?_, fun it => exec_boClose_close⟩
  · obtain ⟨t, ht, hempty, hpad⟩ := closeOut_outcome s hs
    rw [exec_boClose_start hs, ht]
    refine ⟨fun h0 => congrArg _ (hempty h0), fun h0 => ?_⟩
    obtain ⟨v, hv, rfl⟩ := hpad h0
    exact ⟨v, rfl, hv⟩
  · rw [exec_boClose_pad hs hq]
    exact closeOut_of_empty (s := { s with outQ := s.outQ ++ [it] }) hs h0

/-- Settles O29: both commands go on alike where GetBit() meets a bit or its PopIn, and each by itself at the end. -/
theorem biReadGivesTheNextBit : Obligations.BiReadGivesTheNextBit := by
  intro s w a
  refine ⟨fun hs he => ⟨fun b bs hbits => ?_, fun hn => ?_⟩, fun b rest hs hq => ?_, fun hs he => ?_,
    fun rest hs hq => ⟨exec_biRead_popped hs hq, exec_biReadNoeof_popped hs hq⟩⟩
  · intro i hi
    obtain ⟨onEof, hexec⟩ := exec_bitReader_start hi hs
    obtain ⟨u, hget, hu, hrest⟩ := State.unreadBits_cons he hbits
    rw [hexec, hget]
    exact ⟨_, rfl, hrest,
      congrArg (fun u : State => { u with result := (BitVec.ofBool b).setWidth 32, seq := .idle }) hu⟩
  · intro i hi
    obtain ⟨onEof, hexec⟩ := exec_bitReader_start hi hs
    rw [hexec, getBit_of_empty he hn]
    exact congrArg Host.Outcome.next (State.park_of_running hs)
  · exact fun i hi => exec_bitReader_byte hi hs hq
  · rw [exec_biRead_start hs, exec_biReadNoeof_start hs, getBit_of_eof he]
    exact ⟨rfl, rfl⟩

/-- Settles O30: one step to the PopIn, then the drain by induction on the bytes of the session. -/
theorem inSkipDiscardsTheSession : Obligations.InSkipDiscardsTheSession := by
  refine ⟨fun s a bs rest hs hsc hq => ?_, fun s w a =>
    ⟨exec_inSkip_start, fun b rest => exec_inSkip_byte, fun rest => exec_inSkip_end⟩⟩
  rw [run_succ_of_exec _ hsc hs decode_inSkip (exec_inSkip_start hs)]
  exact run_inSkip_drain bs rfl hsc hq

end Sys2Proof.Proofs
end

section
/-! SUPPORT. The start of a protocol command under SYMLIM = 257 and under another limit, and SC_SCAN by its positions
with its run over a session (45_static_protocol.md R200; 60_exceptions.md R266). -/

namespace Sys2Proof.Machine

variable {s : State} {w a : Word} {p : Pos} {it : Item} {rest : List Item} {b : Byte}

/-! ## The byte alphabet (R266) -/

theorem checkByteAlphabet_of_eq (k : State → Out) (hl : s.limit = 257) : checkByteAlphabet s k = k s := if_pos hl

theorem exec_protocol_otherLimit {i : Instr} (hi : isProtocol i = true) (hs : s.seq = .running w a .start)
    (hl : s.limit ≠ 257) : exec i s = .next (s.withError 7 3 (BitVec.ofNat 32 s.limit)) := by
  rw [exec_protocol_start hi (State.pos_eq_some.2 ⟨w, a, hs⟩) hl, State.limit, BitVec.ofNat_toNat]
  rfl

/-! ## SC_SCAN (R200) -/

/-- A command that waits again at the same point moves no further. -/
theorem State.park_of_self (hs : s.seq = .running w a p) : s.park p = s := by
  rw [State.park_of_running hs, ← hs]

theorem freq_fillFreq_zero (s : State) (k : Nat) : (s.fillFreq 257 0).freq k = 0 := by
  rw [State.freq_fillFreq]
  by_cases hk : k < 257
  · rw [if_pos ⟨hk, hk⟩]
  · rw [if_neg fun h => hk h.1, State.freq_of_ge s k (not_lt.1 hk)]

theorem exec_scScan_start (hs : s.seq = .running w a .start) (hl : s.limit = 257) :
    ∃ t, exec .scScan s = .next t ∧ t = { s with ft := t.ft, seq := .running w a (.popIn .item) } ∧
      ∀ k, t.freq k = 0 := by
  refine ⟨(s.fillFreq 257 0).park (.popIn .item), ?_, ?_, freq_fillFreq_zero s⟩
  · simp only [exec, execScScan, State.pos_eq_some.2 ⟨w, a, hs⟩]
    exact checkByteAlphabet_of_eq _ hl
  · exact State.park_of_running (s := s.fillFreq 257 0) hs

theorem exec_scScan_popped (hs : s.seq = .running w a (.popIn .item)) (hq : s.inQ = it :: rest) :
    exec .scScan s = scanItem it { s with inQ := rest } := by
  simp only [exec, execScScan, State.pos_eq_some.2 ⟨w, a, hs⟩]
  exact popIn_cons _ hq

/-- A frequency below 2^32 - 1 does not wrap. -/
theorem toNat_freq_addOne (s : State) (b : Byte) (hf : s.freq b.toNat ≠ 0xFFFFFFFF) (k : Nat) :
    ((s.setFreq b.toNat (s.freq b.toNat + 1)).freq k).toNat = (s.freq k).toNat + if b.toNat = k then 1 else 0 := by
  rw [State.freq_setFreq]
  by_cases hk : b.toNat = k
  · subst hk
    rw [if_pos ⟨rfl, by omega⟩, if_pos rfl]
    bv_omega
  · rw [if_neg fun h => hk h.1.symm, if_neg hk, Nat.add_zero]

theorem exec_scScan_byte (hs : s.seq = .running w a (.popIn .item)) (hq : s.inQ = .byte b :: rest)
    (hf : s.freq b.toNat ≠ 0xFFFFFFFF) :
    ∃ t, exec .scScan s = .next t ∧ t = { s with ft := t.ft, inQ := rest } ∧
      ∀ k, (t.freq k).toNat = (s.freq k).toNat + if b.toNat = k then 1 else 0 := by
  refine ⟨_, (exec_scScan_popped hs hq).trans ((if_neg hf).trans ?_), rfl,
    toNat_freq_addOne { s with inQ := rest } b hf⟩
  exact congrArg Host.Outcome.next (State.park_of_self hs)

theorem exec_scScan_overflow (hs : s.seq = .running w a (.popIn .item)) (hq : s.inQ = .byte b :: rest)
    (hf : s.freq b.toNat = 0xFFFFFFFF) :
    exec .scScan s = .next (State.failed .freq (symWord b.toNat) { s with inQ := rest }) :=
  (exec_scScan_popped hs hq).trans (if_pos hf)

theorem exec_scScan_end (hs : s.seq = .running w a (.popIn .item)) (hq : s.inQ = .endItem :: rest) :
    exec .scScan s = .next { s with inQ := rest, seq := .idle } :=
  exec_scScan_popped hs hq

theorem decode_scScan : decode 0x60 = .ok .scScan := by decide

/-- From its PopIn a run of SC_SCAN adds to each frequency the number of times the byte occurs in the session, as long
as no sum can reach 2^32. -/
theorem run_scScan_items (bs : List Byte) (hs : s.seq = .running 0x60 a (.popIn .item)) (hsc : s.script = [])
    (hq : s.inQ = bs.map .byte ++ .endItem :: rest) (hroom : ∀ k, (s.freq k).toNat + bs.length < 2 ^ 32) :
    ∃ t, core.run (bs.length + 1) s = .next t ∧ t = { s with ft := t.ft, inQ := rest, seq := .idle } ∧
      ∀ k, (t.freq k).toNat = (s.freq k).toNat + bs.countP fun b => b.toNat = k := by
  induction bs generalizing s with
  | nil => exact ⟨_, run_succ_of_exec 0 hsc hs decode_scScan (exec_scScan_end hs hq), rfl, fun k => rfl⟩
  | cons b bs ih =>
    simp only [List.length_cons] at hroom
    have hf : s.freq b.toNat ≠ 0xFFFFFFFF := fun hf => by
      have := hroom b.toNat
      bv_omega
    obtain ⟨u, hexec, hu, hadd⟩ := exec_scScan_byte hs hq hf
    obtain ⟨t, hrun, ht, hcount⟩ := ih (s := u) (by rw [hu]; exact hs) (by rw [hu]; exact hsc) (by rw [hu]; rfl)
      fun k => by
        have := hroom k
        rw [hadd k]
        split <;> omega
    refine ⟨t, (run_succ_of_exec _ hsc hs decode_scScan hexec).trans hrun, by rw [ht, hu], fun k => ?_⟩
    rw [hcount, hadd, List.countP_cons]
    simp only [decide_eq_true_eq]
    omega

end Sys2Proof.Machine
end

section
/-! The statements about SC_SCAN (45_static_protocol.md R200). -/

namespace Sys2Proof.Proofs

open Sys2Proof Sys2Proof.Machine

/-- Settles O31: one step clears the table, then the bytes of the session are counted one by one. -/
theorem scScanCountsTheSession : Obligations.ScScanCountsTheSession := by
  intro s a bs rest hs hsc hl hq hlen
  obtain ⟨u, hexec, hu, hzero⟩ := exec_scScan_start hs hl
  obtain ⟨t, hrun, ht, hcount⟩ := run_scScan_items (s := u) (a := a) (rest := rest) bs (by rw [hu])
    (by rw [hu]; exact hsc) (by rw [hu]; exact hq) fun k => by rw [hzero]; simpa using hlen
  refine ⟨t, (run_succ_of_exec _ hsc hs decode_scScan hexec).trans hrun, by rw [ht, hu], fun k => ?_⟩
  rw [hcount, hzero]
  exact Nat.zero_add _

/-- Settles O32, each segment by its position. -/
theorem scScanSegments : Obligations.ScScanSegments := by
  intro s w a
  refine ⟨fun hs => ⟨exec_scScan_start hs, exec_protocol_otherLimit rfl hs⟩,
    fun b rest hs hq => ⟨fun hf => ?_, exec_scScan_overflow hs hq⟩, fun rest => exec_scScan_end⟩
  obtain ⟨t, hexec, ht, hadd⟩ := exec_scScan_byte hs hq hf
  refine ⟨t, hexec, ht, by rw [hadd, if_pos rfl], fun k hk => BitVec.eq_of_toNat_eq ?_⟩
  rw [hadd, if_neg hk.symm, Nat.add_zero]

end Sys2Proof.Proofs
end

section
/-! SUPPORT. The bits of a byte as a number, and of a header entry (20_memory.md R71, R72; 45_static_protocol.md R201). -/

namespace Sys2Proof.Machine

@[simp] theorem length_byteBits (b : Byte) : (byteBits b).length = 8 := by simp [byteBits]

/-- The low `n` bits of a byte, highest first, are its value below 2^n. -/
theorem bitsValue_low (b : Byte) (n : Nat) :
    bitsValue ((List.range n).map fun j => b.getLsbD (n - 1 - j)) = b.toNat % 2 ^ n := by
  induction n with
  | zero => simp [bitsValue, Nat.mod_one]
  | succ n ih =>
    have htail : ((fun j => b.getLsbD (n + 1 - 1 - j)) ∘ Nat.succ) = fun j => b.getLsbD (n - 1 - j) := by
      funext j
      simp only [Function.comp_apply]
      congr 1
      omega
    rw [List.range_succ_eq_map, List.map_cons, List.map_map, bitsValue_cons, htail, ih, Nat.mod_pow_succ,
      ← Nat.toNat_testBit]
    simp [BitVec.getLsbD]
    ring

theorem bitsValue_byteBits (b : Byte) : bitsValue (byteBits b) = b.toNat :=
  (bitsValue_low b 8).trans (Nat.mod_eq_of_lt b.isLt)

/-- A byte's bits determine it, and leave nothing over in an entry of eight bits. -/
theorem eq_of_byteBits_append {v b : Byte} {xs : List Bool} (h : byteBits v ++ xs = byteBits b) :
    v = b ∧ xs = [] := by
  obtain ⟨hbits, rfl⟩ := List.append_inj (h.trans (List.append_nil _).symm) (by simp)
  exact ⟨BitVec.eq_of_toNat_eq (by rw [← bitsValue_byteBits, hbits, bitsValue_byteBits]), rfl⟩

@[simp] theorem length_unreadBits (s : State) : s.unreadBits.length = s.biNrem.val := by simp [State.unreadBits]

/-- A byte's bits are its bit 7 and those left unread once that is taken (44_bitstream.md R182). -/
theorem byteBits_eq_cons (b : Byte) (s : State) :
    byteBits b = b.getLsbD 7 :: State.unreadBits { s with biByte := b, biNrem := 7 } := by
  simp [byteBits, State.unreadBits, List.range_succ_eq_map]

/-- An entry of the header is the byte of its length (R201). -/
theorem headerBits_eq_byteBits (v : BitVec 31) : headerBits v = byteBits (BitVec.ofNat 8 v.toNat) := by
  refine List.map_congr_left fun j _ => ?_
  rw [BitVec.getLsbD_ofNat, decide_eq_true (by omega : 7 - j < 8), Bool.true_and]
  rfl

end Sys2Proof.Machine
end

section
/-! SUPPORT. The lengths of a legal tree are a complete code, which ToTree() accepts (42_canonical_code.md R150, R153). -/

namespace Sys2Proof.Machine

variable {tr : CodeTree}

/-- A symbol has a positive length where it has a leaf: the root of a legal tree is internal. -/
theorem CodeTree.Legal.treeLength_pos_iff {lim x : Nat} (h : tr.Legal lim) :
    0 < treeLength (some tr) x ↔ x ∈ tr.symbols := by
  cases hc : tr.code x with
  | none => exact iff_of_false (by simp [treeLength, hc]) (code_eq_none_iff.1 hc)
  | some c =>
    refine iff_of_true (treeLength_of_code hc ▸ h.length_code_pos hc) (by_contra fun hx => ?_)
    rw [code_eq_none_iff.2 hx] at hc
    cases hc

/-- The lengths of a legal tree over its symbols make a complete code (42_canonical_code.md R153). -/
theorem CodeTree.Legal.kraftSum_eq_one {lim : Nat} (h : tr.Legal lim) :
    kraftSum ((List.range lim).map (treeLength (some tr))) = 1 := by
  have hpos := fun x => h.treeLength_pos_iff (x := x)
  obtain ⟨-, hnd, hlt⟩ := h
  have hperm : ((List.range lim).filter fun x => 0 < treeLength (some tr) x).Perm tr.symbols :=
    (List.perm_ext_iff_of_nodup (List.nodup_range.filter _) hnd).2 fun x => by
      simp only [List.mem_filter, List.mem_range, decide_eq_true_eq, hpos]
      exact and_iff_right_of_imp (hlt x)
  rw [kraftSum, List.filter_map, List.map_map]
  exact ((hperm.map _).sum_eq).trans (codeSum_eq_one hnd)

/-- ToTree() accepts the lengths of a legal tree. -/
theorem CodeTree.Legal.exists_toTree {lim : Nat} (h : tr.Legal lim) :
    ∃ tr', toTree ((List.range lim).map (treeLength (some tr))) = .ok tr' := by
  rw [exists_toTree_iff, rootNodes_iff, ← kraftSum_eq_levelSum, h.kraftSum_eq_one, Nat.cast_one]

end Sys2Proof.Machine
end

section
/-! SUPPORT. SC_HEADER by its positions: its first segment up to the header, and one entry of the header
(45_static_protocol.md R201). -/

namespace Sys2Proof.Machine

variable {s : State} {w a : Word} {p : Pos} {it : Item} {tr : CodeTree}

/-! ## The positions and the entries -/

/-- With no bit left to put, the next entry's length is checked first (R8). -/
theorem emitHeader_tooLong {left : Nat} (h : 256 ≤ (s.len (256 - left)).toNat) :
    emitHeader (left + 1) [] s = .next (s.failed .codeTooLong (symWord (256 - left))) := if_pos h

/-- From an empty cursor the next entry's eight bits are one byte, and the segment ends at its PushOut. -/
theorem emitHeader_byte {left : Nat} (hs : s.seq = .running w a p) (h0 : s.boNbits = 0)
    (h : (s.len (256 - left)).toNat < 256) :
    emitHeader (left + 1) [] s = .next { s with
      boBuf := 0,
      seq := .running w a (.pushOut (.byte (BitVec.ofNat 8 (s.len (256 - left)).toNat)) (.header left [])) } := by
  obtain ⟨v, xs, hput, hbits⟩ := putBits_fill (headerBits (s.len (256 - left))) s (by simp [headerBits])
  have hpend : s.pendingBits = [] := by simp [State.pendingBits, h0]
  rw [hpend, List.nil_append, headerBits_eq_byteBits] at hbits
  obtain ⟨rfl, rfl⟩ := eq_of_byteBits_append hbits
  have hentry : emitHeader (left + 1) [] s = emitHeader left (headerBits (s.len (256 - left))) s :=
    if_neg (Nat.not_le.2 h)
  have hpark : emitHeader left (headerBits (s.len (256 - left))) s =
      parkAt (.pushOut (.byte (BitVec.ofNat 8 (s.len (256 - left)).toNat)) (.header left [])) s.resetBO := by
    cases left <;> simp only [emitHeader, hput]
  rw [hentry, hpark, parkAt, State.park_of_running (s := s.resetBO) hs, h0]
  rfl

theorem exec_scHeader_start (hs : s.seq = .running w a .start) (hl : s.limit = 257) :
    exec .scHeader s = installing (emitHeader 257 []) s.resetBO.forceEof.optimalLengths := by
  simp only [exec, execScHeader, State.pos_eq_some.2 ⟨w, a, hs⟩]
  exact checkByteAlphabet_of_eq _ hl

theorem exec_scHeader_push {left : Nat} {bits : List Bool} (hs : s.seq = .running w a (.pushOut it (.header left bits)))
    (hq : s.outQ.length < Config.outDepth) :
    exec .scHeader s = emitHeader left bits { s with outQ := s.outQ ++ [it] } := by
  simp only [exec, execScHeader, State.pos_eq_some.2 ⟨w, a, hs⟩]
  exact pushOut_room _ hq

theorem installing_ok (k : State → Out) (ht : toTree s.lengthList = .ok tr) :
    installing k s = k { s with tree := some tr } := by
  rw [installing, ht]

theorem freq_forceEof (s : State) (k : Nat) :
    s.forceEof.freq k = if k = 256 ∧ s.freq 256 = 0 then 1 else s.freq k := by
  by_cases h0 : s.freq 256 = 0
  · have hset : s.forceEof = s.setFreq 256 1 := by rw [State.forceEof, if_pos h0]; rfl
    rw [hset, State.freq_setFreq]
    simp [h0]
  · have hkeep : s.forceEof = s := by rw [State.forceEof, if_neg h0]
    rw [hkeep, if_neg fun h => h0 h.2]

/-! ## The first segment -/

theorem toNat_len_optimalLengths {k : Nat} (hl : s.limit = 257) (ht : buildTree s.ft 257 = some tr) (hk : k < 257) :
    (s.optimalLengths.len k).toNat = treeLength (some tr) k := by
  have hle := (buildTree_legal (by omega) ht).treeLength_le k
  rw [State.optimalLengths, hl, ht, State.len_fillLen, if_pos ⟨by omega, hk⟩, BitVec.toNat_ofNat,
    Nat.mod_eq_of_lt (by omega)]

theorem lengthList_optimalLengths (hl : s.limit = 257) (ht : buildTree s.ft 257 = some tr) :
    s.optimalLengths.lengthList = (List.range 257).map (treeLength (some tr)) := by
  have hlen : s.optimalLengths.limit = 257 := hl
  refine List.ext_getElem (by simp [State.lengthList, hlen]) fun k hk hk' => ?_
  have hlt : k < 257 := by simpa using hk'
  rw [← List.getD_eq_getElem _ 0 hk, getD_lengthList hlen.le (hlt.trans_eq hlen.symm),
    toNat_len_optimalLengths hl ht hlt, List.getElem_map, List.getElem_range]

/-- SC_HEADER's first segment up to the header: the lengths of Build()'s tree are those of a legal tree, so ToTree()
accepts them. -/
theorem exec_scHeader_installs (hs : s.seq = .running w a .start) (hl : s.limit = 257) :
    ∃ u tr, exec .scHeader s = emitHeader 257 [] u ∧
      u = { s with ft := u.ft, cl := u.cl, tree := some tr, boBuf := 0, boNbits := 0 } ∧
      toTree u.lengthList = .ok tr ∧
      (∀ k, k < 257 → (u.len k).toNat = treeLength (buildTree u.ft 257) k) ∧
      ∀ k, u.freq k = if k = 256 ∧ s.freq 256 = 0 then 1 else s.freq k := by
  have hlu : s.resetBO.forceEof.limit = 257 := hl
  obtain ⟨best, hbest⟩ := exists_buildTree s.resetBO.forceEof.ft (lim := 257) (by omega)
  obtain ⟨tr, htr⟩ := (buildTree_legal (by omega) hbest).exists_toTree
  rw [← lengthList_optimalLengths hlu hbest] at htr
  refine ⟨_, tr, (exec_scHeader_start hs hl).trans (installing_ok _ htr), rfl, htr, fun k hk => ?_,
    freq_forceEof s.resetBO⟩
  exact (toNat_len_optimalLengths hlu hbest hk).trans (congrArg (treeLength · k) hbest.symm)

end Sys2Proof.Machine
end



section
/-! The statements about SC_HEADER (45_static_protocol.md R201). -/

namespace Sys2Proof.Proofs

open Sys2Proof Sys2Proof.Machine

/-- Settles O33: the optimal lengths are those of a legal tree, so ToTree() accepts them; the header's first entry
follows. -/
theorem scHeaderBuildsTheCanonicalCode : Obligations.ScHeaderBuildsTheCanonicalCode := by
  intro s w a hs
  refine ⟨fun hl => ?_, exec_protocol_otherLimit rfl hs⟩
  obtain ⟨u, tr, hexec, hu, htr, hopt, hfreq⟩ := exec_scHeader_installs hs hl
  have hlim : u.limit = 257 := by rw [hu]; exact hl
  have hlegal : tr.Legal 257 := hlim ▸ toTree_lengthList_legal htr
  have hcode : ∀ k, k < 257 → treeLength (some tr) k = (u.len k).toNat := fun k hk => by
    rw [treeLength_toTree htr, getD_lengthList hlim.le (hk.trans_eq hlim.symm)]
  have heof : u.freq 256 = if s.freq 256 = 0 then 1 else s.freq 256 := by simpa using hfreq 256
  have hother : ∀ k, k ≠ 256 → u.freq k = s.freq k := fun k hk => by rw [hfreq, if_neg fun h => hk h.1]
  rcases Nat.lt_or_ge (u.len 0).toNat 256 with h | h
  · refine ⟨_, tr, hexec.trans (emitHeader_byte (left := 256) (by rw [hu]; exact hs) (by rw [hu]) h),
      by rw [hu], htr, hlegal, hcode, hopt, heof, hother, fun _ => by rw [hu]; rfl,
      fun h' => absurd h (Nat.not_lt.2 h')⟩
  · refine ⟨_, tr, hexec.trans (emitHeader_tooLong (left := 256) h), by rw [hu]; rfl, htr, hlegal, hcode, hopt, heof,
      hother, fun h' => absurd h' (Nat.not_lt.2 h), fun _ => by rw [hu]; rfl⟩

/-- Settles O34: a push leaves the cursor empty, and the next entry follows. -/
theorem scHeaderPushesEachLength : Obligations.ScHeaderPushesEachLength := by
  intro s w a it h0 hq
  refine ⟨fun left _ hs => ⟨fun h => ?_, fun h => (exec_scHeader_push hs hq).trans (emitHeader_tooLong h)⟩,
    fun hs => exec_scHeader_push hs hq⟩
  exact (exec_scHeader_push hs hq).trans (emitHeader_byte (s := { s with outQ := s.outQ ++ [it] }) hs h0 h)

end Sys2Proof.Proofs
end

section
/-! SUPPORT. SC_ENCODE by its positions (45_static_protocol.md R202). -/

namespace Sys2Proof.Machine

variable {s : State} {w a : Word} {p : Pos} {it : Item} {rest : List Item}

theorem exec_scEncode_start (hs : s.seq = .running w a .start) (hl : s.limit = 257) :
    exec .scEncode s = .next { s with seq := .running w a (.popIn .item) } := by
  simp only [exec, execScEncode, State.pos_eq_some.2 ⟨w, a, hs⟩]
  exact (checkByteAlphabet_of_eq _ hl).trans (congrArg Host.Outcome.next (State.park_of_running hs))

/-- END is encoded as symbol 256. -/
theorem scEncodeItem_eq (it : Item) (s : State) : scEncodeItem it s = encodeSym it.sym (scEncoded it.sym) s := by
  cases it <;> rfl

theorem exec_scEncode_popped (hs : s.seq = .running w a (.popIn .item)) (hq : s.inQ = it :: rest) :
    exec .scEncode s = encodeSym it.sym (scEncoded it.sym) { s with inQ := rest } := by
  simp only [exec, execScEncode, State.pos_eq_some.2 ⟨w, a, hs⟩]
  exact (popIn_cons _ hq).trans (scEncodeItem_eq it _)

theorem exec_scEncode_code {sym : Nat} {bits : List Bool} (hs : s.seq = .running w a (.pushOut it (.code sym bits)))
    (hq : s.outQ.length < Config.outDepth) :
    exec .scEncode s = emitCode sym (scEncoded sym) bits { s with outQ := s.outQ ++ [it] } := by
  simp only [exec, execScEncode, State.pos_eq_some.2 ⟨w, a, hs⟩]
  exact pushOut_room _ hq

theorem exec_scEncode_pad (hs : s.seq = .running w a (.pushOut it .pad)) (hq : s.outQ.length < Config.outDepth) :
    exec .scEncode s = closeOut { s with outQ := s.outQ ++ [it] } := by
  simp only [exec, execScEncode, State.pos_eq_some.2 ⟨w, a, hs⟩]
  exact pushOut_room _ hq

theorem exec_scEncode_close (hs : s.seq = .running w a (.pushOut it .close)) (hq : s.outQ.length < Config.outDepth) :
    exec .scEncode s = .next (State.toIdle { s with outQ := s.outQ ++ [it] }) := by
  simp only [exec, execScEncode, State.pos_eq_some.2 ⟨w, a, hs⟩]
  exact pushOut_room _ hq

theorem SameButBO.seq {u : State} (h : SameButBO s u) : u.seq = s.seq := by
  rw [SameButBO] at h
  rw [h]

/-- What follows Encode(sym) answers as ScEncoded says. -/
theorem scEncoded_outcome (sym : Nat) (hs : s.seq = .running w a p) :
    ∃ t, scEncoded sym s = .next t ∧ ScEncoded w a sym s t := by
  by_cases h : sym = 256
  · obtain ⟨t, ht, hclose⟩ := closeOut_outcome s hs
    exact ⟨t, (if_pos h).trans ht, fun hne => absurd h hne, fun _ => hclose⟩
  · exact ⟨_, if_neg h, fun _ => State.park_of_running hs, fun heq => absurd heq h⟩

end Sys2Proof.Machine
end

section
/-! The statement about SC_ENCODE (45_static_protocol.md R202). -/

namespace Sys2Proof.Proofs

open Sys2Proof Sys2Proof.Machine

/-- Settles O35: what putting a code and CloseOut() answer, from the state each blocking point leaves. -/
theorem scEncodeSegments : Obligations.ScEncodeSegments := by
  intro s w a
  refine ⟨exec_scEncode_start, exec_protocol_otherLimit rfl, fun it rest hs hq => ?_, fun it sym bits hs hq => ?_,
    fun it hs hq => ?_, fun it => exec_scEncode_close⟩
  · rw [exec_scEncode_popped hs hq]
    exact encodeSym_outcome it.sym _ _ { s with inQ := rest } hs fun u hu => scEncoded_outcome it.sym (hu.seq.trans hs)
  · rw [exec_scEncode_code hs hq]
    exact emitCode_outcome sym _ _ bits { s with outQ := s.outQ ++ [it] } hs fun u hu =>
      scEncoded_outcome sym (hu.seq.trans hs)
  · rw [exec_scEncode_pad hs hq]
    exact closeOut_outcome { s with outQ := s.outQ ++ [it] } hs

end Sys2Proof.Proofs
end

section
/-! SUPPORT. SD_DECODE by its positions, and its header read one entry at a time (45_static_protocol.md R203). -/

namespace Sys2Proof.Machine

variable {s u : State} {w a : Word} {p : Pos} {it : Item} {rest : List Item} {l r : CodeTree}

/-! ## The positions -/

theorem exec_sdDecode_start (hs : s.seq = .running w a .start) (hl : s.limit = 257) :
    exec .sdDecode s = readHeader sdHeaderRead 2056 0 s.resetBI.resetBO := by
  simp only [exec, execSdDecode, State.pos_eq_some.2 ⟨w, a, hs⟩]
  exact checkByteAlphabet_of_eq _ hl

theorem exec_sdDecode_header {left v : Nat} (hs : s.seq = .running w a (.popIn (.header left v)))
    (hq : s.inQ = it :: rest) : exec .sdDecode s = sdHeaderItem left v it { s with inQ := rest } := by
  simp only [exec, execSdDecode, State.pos_eq_some.2 ⟨w, a, hs⟩]
  exact popIn_cons _ hq

theorem exec_sdDecode_walk (hs : s.seq = .running w a (.popIn (.walk l r))) (hq : s.inQ = it :: rest) :
    exec .sdDecode s = resumeWalk sdDecoded l r it { s with inQ := rest } := by
  simp only [exec, execSdDecode, State.pos_eq_some.2 ⟨w, a, hs⟩]
  exact popIn_cons _ hq

theorem exec_sdDecode_data {sym : Nat} (hs : s.seq = .running w a (.pushOut it (.data sym)))
    (hq : s.outQ.length < Config.outDepth) :
    exec .sdDecode s = decodeSym sdDecoded { s with outQ := s.outQ ++ [it] } := by
  simp only [exec, execSdDecode, State.pos_eq_some.2 ⟨w, a, hs⟩]
  exact pushOut_room _ hq

theorem exec_sdDecode_drain (hs : s.seq = .running w a (.popIn .drain)) (hq : s.inQ = it :: rest) :
    exec .sdDecode s = drained drainDone it { s with inQ := rest } := by
  simp only [exec, execSdDecode, State.pos_eq_some.2 ⟨w, a, hs⟩]
  exact popIn_cons _ hq

theorem exec_sdDecode_finish (hs : s.seq = .running w a (.pushOut it .finish)) (hq : s.outQ.length < Config.outDepth) :
    exec .sdDecode s = .next (State.resetBI { s with outQ := s.outQ ++ [it] }).toIdle := by
  simp only [exec, execSdDecode, State.pos_eq_some.2 ⟨w, a, hs⟩]
  exact pushOut_room _ hq

/-! ## The drain -/

theorem drained_byte (k : State → Out) (b : Byte) (hs : s.seq = .running w a (.popIn .drain)) :
    drained k (.byte b) s = .next s := congrArg Host.Outcome.next (State.park_of_self hs)

theorem drained_drainDone_end (hs : s.seq = .running w a p) :
    drained drainDone .endItem s = .next { s with seq := .running w a (.pushOut .endItem .finish) } :=
  congrArg Host.Outcome.next (State.park_of_running hs)

/-! ## The header -/

theorem readHeader_of_empty (k : State → Out) (left v : Nat) (hs : s.seq = .running w a p) (he : s.biEof = false)
    (hn : s.biNrem = 0) :
    readHeader k (left + 1) v s = .next { s with seq := .running w a (.popIn (.header left v)) } := by
  rw [readHeader, getBit_of_empty he hn]
  exact congrArg Host.Outcome.next (State.park_of_running hs)

/-- The unread bits are the rest of an entry, `c` the bits read of it: they complete the entry, and the next one
begins. -/
theorem readHeader_rest (k : State → Out) (n : Nat) (c bs : List Bool) (he : s.biEof = false) (hb : s.unreadBits = bs)
    (h0 : bs ≠ []) :
    readHeader k (8 * n + bs.length) (bitsValue c) s =
      readHeader k (8 * n) 0
        (State.setLen { s with biNrem := 0 } (256 - n) (BitVec.ofNat 31 (bitsValue (c ++ bs)))) := by
  induction bs generalizing s c with
  | nil => exact absurd rfl h0
  | cons b bs ih =>
    have hlen : bs.length + 1 = s.biNrem.val := by rw [← length_unreadBits, hb, List.length_cons]
    obtain ⟨u, hget, hu, hbs⟩ := State.unreadBits_cons he hb
    have hsnoc : 2 * bitsValue c + b.toNat = bitsValue (c ++ [b]) := by
      rw [bitsValue_append]
      simp [bitsValue]
      ring
    have hstep : readHeader k (8 * n + (b :: bs).length) (bitsValue c) s =
        readHeader k (8 * n + bs.length) (headerBit (8 * n + bs.length) (bitsValue c) b u).1
          (headerBit (8 * n + bs.length) (bitsValue c) b u).2 := by
      rw [List.length_cons, ← Nat.add_assoc, readHeader, hget]
      rfl
    rw [hstep, headerBit, hsnoc]
    cases bs with
    | nil =>
      have hn : u.biNrem = 0 := Fin.ext (by rw [← length_unreadBits, hbs]; rfl)
      rw [hn] at hu
      rw [List.length_nil, Nat.add_zero, if_pos (Nat.mul_mod_right 8 n), Nat.mul_div_cancel_left n (by omega), hu]
    | cons b' bs =>
      rw [if_neg (by simp only [List.length_cons] at hlen ⊢; omega)]
      refine (ih (s := u) (c ++ [b]) (by rw [hu]; exact he) hbs (List.cons_ne_nil _ _)).trans ?_
      rw [List.append_assoc, hu]
      rfl

/-- A byte taken at the start of an entry is the entry's length (20_memory.md R72). -/
theorem sdHeaderItem_byte (n : Nat) (b : Byte) (he : s.biEof = false) :
    sdHeaderItem (8 * n + 7) 0 (.byte b) s =
      readHeader sdHeaderRead (8 * n) 0
        (State.setLen { s with biByte := b, biNrem := 0 } (256 - n) (BitVec.ofNat 31 b.toNat)) := by
  have hlen : (State.unreadBits { s with biByte := b, biNrem := 7 }).length = 7 := length_unreadBits _
  have hrest := readHeader_rest (s := { s with biByte := b, biNrem := 7 }) sdHeaderRead n [b.getLsbD 7] _ he rfl
    (List.ne_nil_of_length_pos (by omega))
  rw [List.singleton_append, ← byteBits_eq_cons, bitsValue_byteBits, hlen] at hrest
  refine Eq.trans ?_ hrest
  have hfirst : headerBit (8 * n + 7) 0 (b.getLsbD 7) { s with biByte := b, biNrem := 7 } =
      (bitsValue [b.getLsbD 7], { s with biByte := b, biNrem := 7 }) := if_neg (by omega)
  rw [sdHeaderItem, gotItem, Got.andThen, hfirst]

theorem sdHeaderItem_end (left v : Nat) (s : State) :
    sdHeaderItem left v .endItem s = .next (State.withError { s with biEof := true } 5 1 0) := rfl

/-- A byte taken at the start of the entry of symbol 256 - n gives its length and nothing else in CL. -/
theorem exec_sdDecode_entry {n : Nat} {b : Byte} (hs : s.seq = .running w a (.popIn (.header (8 * n + 7) 0)))
    (hq : s.inQ = .byte b :: rest) (he : s.biEof = false) :
    ∃ u, exec .sdDecode s = readHeader sdHeaderRead (8 * n) 0 u ∧
      u = { s with inQ := rest, cl := u.cl, biByte := b, biNrem := 0 } ∧
      (u.len (256 - n)).toNat = b.toNat ∧ ∀ k, k ≠ 256 - n → u.len k = s.len k := by
  refine ⟨_, (exec_sdDecode_header hs hq).trans (sdHeaderItem_byte (s := { s with inQ := rest }) n b he), rfl, ?_,
    fun k hk => ?_⟩
  · rw [State.len_setLen, if_pos ⟨rfl, by omega⟩, BitVec.toNat_ofNat, Nat.mod_eq_of_lt (by omega)]
  · exact (State.len_setLen _ _ _ _).trans (if_neg fun h => hk h.1)

/-! ## After the header -/

theorem sdHeaderRead_ok (hs : s.seq = .running w a p) (he : s.biEof = false) (hn : s.biNrem = 0)
    (hc : checkLengths s.lengthList = .ok ()) :
    ∃ l r, toTree s.lengthList = .ok (.node l r) ∧
      sdHeaderRead s = .next { s with tree := some (.node l r), seq := .running w a (.popIn (.walk l r)) } := by
  obtain ⟨tr, htr⟩ := exists_toTree_iff.2 (checkLengths_ok_iff.1 hc)
  obtain ⟨⟨l, r, rfl⟩, -⟩ := toTree_legal htr
  refine ⟨l, r, htr, ?_⟩
  rw [sdHeaderRead, checking, hc]
  refine (installing_ok _ htr).trans ((walk_node_of_empty (s := { s with tree := some (.node l r) }) _ he hn).trans ?_)
  exact congrArg Host.Outcome.next (State.park_of_running (s := { s with tree := some (.node l r) }) hs)

theorem sdHeaderRead_error (hc : checkLengths s.lengthList ≠ .ok ()) :
    ∃ detail info, CheckFails s.lengthList detail info ∧ sdHeaderRead s = .next (s.withError 1 detail info) := by
  cases hcheck : checkLengths s.lengthList with
  | ok => exact absurd hcheck hc
  | error f =>
    obtain ⟨hcode, hfails⟩ := checkLengths_error hcheck
    refine ⟨_, _, hfails, ?_⟩
    rw [sdHeaderRead, checking, hcheck, ← hcode]
    rfl

theorem SameButBI.seq (h : SameButBI s u) : u.seq = s.seq := by
  rw [SameButBI] at h
  rw [h]

/-- What follows Decode() answers as SdDecoded says. -/
theorem sdDecoded_outcome (sym : Nat) (hs : s.seq = .running w a p) :
    ∃ t, sdDecoded sym s = .next t ∧ SdDecoded w a sym s t := by
  by_cases h : sym = 256
  · exact ⟨_, if_pos h, fun hlt => absurd h hlt.ne, fun _ => State.park_of_running hs⟩
  · exact ⟨_, if_neg h, fun _ => State.park_of_running hs, fun heq => absurd heq h⟩

end Sys2Proof.Machine
end

section
/-! The statements about SD_DECODE (45_static_protocol.md R203). -/

namespace Sys2Proof.Proofs

open Sys2Proof Sys2Proof.Machine

/-- Settles O36: a byte is the eight bits of one entry, after which the cursor is empty again. -/
theorem sdDecodeReadsTheHeader : Obligations.SdDecodeReadsTheHeader := by
  intro s w a
  refine ⟨fun hs hl => ?_, exec_protocol_otherLimit rfl, fun n b rest hn hs hq he => ?_,
    fun left v rest hs hq => (exec_sdDecode_header hs hq).trans (sdHeaderItem_end left v _)⟩
  · exact (exec_sdDecode_start hs hl).trans (readHeader_of_empty _ 2055 0 (s := s.resetBI.resetBO) hs rfl rfl)
  · have hidx : 256 - (n + 1) = 255 - n := by omega
    obtain ⟨u, hexec, hu, hlen, hother⟩ := exec_sdDecode_entry (n := n + 1) hs hq he
    rw [hidx] at hlen hother
    have hpark := readHeader_of_empty sdHeaderRead (8 * n + 7) 0 (s := u) (by rw [hu]; exact hs) (by rw [hu]; exact he)
      (by rw [hu])
    exact ⟨_, hexec.trans hpark, hlen, hother, by rw [hu]⟩

/-- Settles O37: the last entry's byte, then Check() and ToTree() by their laws; the walks by their outcomes; the drain
and the last push. -/
theorem sdDecodeRebuildsAndFinishes : Obligations.SdDecodeRebuildsAndFinishes := by
  intro s w a hl
  refine ⟨fun b rest hs hq he => ?_, fun l r b rest hs hq he => ?_,
    fun l r rest hs hq => (exec_sdDecode_walk hs hq).trans (resumeWalk_end _ l r _), fun it sym hs hq => ?_,
    fun b rest hs hq => (exec_sdDecode_drain hs hq).trans (drained_byte _ b hs),
    fun rest hs hq => (exec_sdDecode_drain hs hq).trans (drained_drainDone_end hs), fun it => exec_sdDecode_finish⟩
  · obtain ⟨u, hexec, hu, hlen, hother⟩ := exec_sdDecode_entry (n := 0) hs hq he
    by_cases hc : checkLengths u.lengthList = .ok ()
    · obtain ⟨l, r, htr, hread⟩ := sdHeaderRead_ok (s := u) (by rw [hu]; exact hs) (by rw [hu]; exact he)
        (by rw [hu]) hc
      exact ⟨_, hexec.trans hread, hlen, hother, fun _ => ⟨l, r, htr, by rw [hu]⟩, fun h => absurd hc h⟩
    · obtain ⟨detail, info, hfails, hread⟩ := sdHeaderRead_error hc
      exact ⟨_, hexec.trans hread, hlen, hother, fun h => absurd h hc,
        fun _ => ⟨detail, info, hfails, by rw [hu]; rfl⟩⟩
  · rw [exec_sdDecode_walk hs hq]
    exact resumeWalk_outcome _ _ l r b { s with inQ := rest } hs he fun x u hu => sdDecoded_outcome x (hu.seq.trans hs)
  · rw [exec_sdDecode_data hs hq]
    exact decodeSym_outcome _ _ { s with outQ := s.outQ ++ [it] } hs fun x u hu =>
      sdDecoded_outcome x (hu.seq.trans hs)

end Sys2Proof.Proofs
end

section
/-! SUPPORT. Build() over frequencies that are nearly equal, row by row, and the flat tree's codes (40_freq_table.md
R110; 46_adaptive_protocol.md R226). -/

namespace Sys2Proof.Machine

variable {q rest : List Entry} {x y u v e : Entry} {tr : CodeTree} {a b n : Nat}

/-! ## Merging a queue in ascending order -/

/-- The entries of `q` are in ascending order of (w, r). -/
def Ascending (q : List Entry) : Prop := q.Pairwise fun x y => x.before y = true

/-- Steps 3 and 4 of Build() merge the entries of `q`, in whatever order the queue holds them, to the tree `tr`. -/
def Builds (q : List Entry) (tr : CodeTree) : Prop := ∀ q' : List Entry, q'.Perm q → mergeAll q'.length q' = some tr

theorem Ascending.append (h : Ascending q) (g : Ascending rest) (hw : ∀ x ∈ q, ∀ y ∈ rest, x.w < y.w) :
    Ascending (q ++ rest) :=
  List.pairwise_append.2 ⟨h, g, fun x hx y hy => Entry.before_iff.2 (.inl (hw x hx y hy))⟩

theorem Entry.merge_before (h : x.before u = true) (g : y.before v = true) :
    (x.merge y).before (u.merge v) = true := by
  rw [Entry.before_iff] at h g ⊢
  simp only [Entry.merge]
  omega

/-- ExtractMin(Q) takes the entry that is before every other. -/
theorem extractMin_of_before (hp : q.Perm (x :: rest)) (hx : ∀ e ∈ rest, x.before e = true) :
    ∃ q1, extractMin q = some (x, q1) ∧ q1.Perm rest := by
  cases hq : extractMin q with
  | none => exact absurd (extractMin_none hq ▸ hp) (by simp)
  | some p =>
    obtain ⟨m, q1⟩ := p
    have hm : (x :: rest).Perm (m :: q1) := hp.symm.trans (extractMin_perm hq)
    obtain rfl : m = x := by
      by_contra hne
      have hxm := hx m ((List.mem_cons.1 (hm.symm.subset List.mem_cons_self)).resolve_left hne)
      have hmx := extractMin_atMost hq x ((List.mem_cons.1 (hm.subset List.mem_cons_self)).resolve_left (Ne.symm hne))
      rw [Entry.before_iff] at hxm
      unfold Entry.AtMost at hmx
      omega
    exact ⟨q1, rfl, hm.symm.cons_inv⟩

theorem builds_singleton (e : Entry) : Builds [e] e.t := by
  intro q hq
  rw [List.perm_singleton.1 hq]
  rfl

/-- The two least entries give place to their merge. -/
theorem Builds.merge (hs : Ascending (x :: y :: q)) (h : Builds (q ++ [x.merge y]) tr) : Builds (x :: y :: q) tr := by
  intro q' hq'
  obtain ⟨hx, hs⟩ := List.pairwise_cons.1 hs
  obtain ⟨q1, hq1, hp1⟩ := extractMin_of_before hq' hx
  obtain ⟨q2, hq2, hp2⟩ := extractMin_of_before hp1 (List.pairwise_cons.1 hs).1
  rw [mergeAll_merge hq1 hq2]
  exact h (x.merge y :: q2) ((hp2.cons _).trans (List.perm_append_singleton _ _).symm)

/-! ## A row of merges -/

/-- The entries merged two at a time. -/
def mergeRow : List Entry → List Entry
  | x :: y :: q => x.merge y :: mergeRow q
  | _ => []

theorem map_t_mergeRow : (q : List Entry) → (mergeRow q).map Entry.t = pairUp (q.map Entry.t)
  | [] | [_] => rfl
  | x :: y :: q => congrArg (CodeTree.node x.t y.t :: ·) (map_t_mergeRow q)

theorem length_mergeRow (q : List Entry) : (mergeRow q).length = q.length / 2 := by
  rw [← List.length_map Entry.t, map_t_mergeRow, length_pairUp, List.length_map]

theorem exists_of_mem_mergeRow : (q : List Entry) → e ∈ mergeRow q → ∃ u ∈ q, ∃ v ∈ q, e = u.merge v
  | [], h | [_], h => nomatch h
  | x :: y :: q, h => by
    rcases List.mem_cons.1 h with rfl | h
    · exact ⟨x, by simp, y, by simp, rfl⟩
    · obtain ⟨u, hu, v, hv, he⟩ := exists_of_mem_mergeRow q h
      exact ⟨u, by simp [hu], v, by simp [hv], he⟩

theorem w_mergeRow (h : ∀ e ∈ q, a ≤ e.w ∧ e.w ≤ b) : ∀ e ∈ mergeRow q, 2 * a ≤ e.w ∧ e.w ≤ 2 * b := by
  intro e he
  obtain ⟨u, hu, v, hv, rfl⟩ := exists_of_mem_mergeRow q he
  have hwu := h u hu
  have hwv := h v hv
  simp only [Entry.merge]
  omega

theorem Ascending.mergeRow : {q : List Entry} → Ascending q → Ascending (mergeRow q)
  | [], _ | [_], _ => .nil
  | x :: y :: q, h => by
    obtain ⟨hx, h⟩ := List.pairwise_cons.1 h
    obtain ⟨hy, h⟩ := List.pairwise_cons.1 h
    refine List.pairwise_cons.2 ⟨fun e he => ?_, Ascending.mergeRow h⟩
    obtain ⟨u, hu, v, hv, rfl⟩ := exists_of_mem_mergeRow q he
    exact Entry.merge_before (hx u (.tail _ hu)) (hy v hv)

/-- The head of the queue merges two at a time, where the merges come after the whole queue. -/
theorem Builds.row : (q : List Entry) → {rest : List Entry} → q.length % 2 = 0 →
    Ascending (q ++ rest ++ mergeRow q) → Builds (rest ++ mergeRow q) tr → Builds (q ++ rest) tr
  | [], rest, _, _, h => by simpa [mergeRow] using h
  | [_], _, he, _, _ => nomatch he
  | x :: y :: q, rest, he, hs, h => by
    have hq : q ++ rest ++ x.merge y :: mergeRow q = q ++ (rest ++ [x.merge y]) ++ mergeRow q := by simp
    have hsub : Ascending (q ++ (rest ++ [x.merge y]) ++ mergeRow q) := hq ▸ hs.tail.tail
    refine .merge (q := q ++ rest) (hs.sublist (List.sublist_append_left ..)) ?_
    rw [List.append_assoc]
    refine Builds.row q (by rw [List.length_cons, List.length_cons] at he; omega) hsub ?_
    simpa [mergeRow] using h

/-- Weights within a factor of two: every merge outweighs the whole row, so the rows pair up to a perfect tree. -/
theorem builds_of_weights (hlen : q.length = 2 ^ n) (hs : Ascending q) (hab : b < 2 * a)
    (hw : ∀ e ∈ q, a ≤ e.w ∧ e.w ≤ b) : ∃ tr, pairUp^[n] (q.map Entry.t) = [tr] ∧ Builds q tr := by
  induction n generalizing a b q with
  | zero =>
    obtain ⟨e, rfl⟩ := List.length_eq_one_iff.1 hlen
    exact ⟨e.t, rfl, builds_singleton e⟩
  | succ n ih =>
    have hrow : ∀ e ∈ mergeRow q, 2 * a ≤ e.w ∧ e.w ≤ 2 * b := w_mergeRow hw
    obtain ⟨tr, htr, hb⟩ := ih (by rw [length_mergeRow, hlen]; omega) hs.mergeRow (by omega) hrow
    have hlt : ∀ x ∈ q, ∀ y ∈ mergeRow q, x.w < y.w := fun x hx y hy =>
      (hw x hx).2.trans_lt (hab.trans_le (hrow y hy).1)
    refine ⟨tr, by rw [Function.iterate_succ_apply, ← map_t_mergeRow, htr], ?_⟩
    rw [← List.append_nil q]
    exact .row q (by omega) (by simpa using hs.append hs.mergeRow hlt) hb

theorem mergeRow_append : {q : List Entry} → q.length % 2 = 0 → mergeRow (q ++ [x, y]) = mergeRow q ++ [x.merge y]
  | [], _ => rfl
  | [_], h => nomatch h
  | u :: v :: q, h =>
    congrArg (u.merge v :: ·) (mergeRow_append (by rw [List.length_cons, List.length_cons] at h; omega))

/-- One weight but for the last entry, which weighs one more. -/
theorem builds_of_heavier_last (hlen : (q ++ [e]).length = 2 ^ n) (hs : Ascending q) (ha : 1 < a)
    (hw : ∀ u ∈ q, u.w = a) (he : e.w = a + 1) :
    ∃ tr, pairUp^[n] ((q ++ [e]).map Entry.t) = [tr] ∧ Builds (q ++ [e]) tr := by
  refine builds_of_weights hlen (hs.append (List.pairwise_singleton ..) fun u hu => ?_) (a := a) (b := a + 1) (by omega)
    (List.forall_mem_append.2 ⟨fun u hu => ?_, List.forall_mem_singleton.2 ?_⟩)
  · rw [List.forall_mem_singleton, hw u hu, he]
    exact Nat.lt_succ_self a
  · rw [hw u hu]
    omega
  · rw [he]
    omega

/-- An odd row of weight 1: its last entry, left over, takes the first merge as its 1-child, and the rest pair up before
it. -/
theorem builds_of_odd_row (hlen : q.length = 2 ^ (n + 1) - 2) (hs : Ascending (x :: y :: q ++ [e]))
    (hw : ∀ u ∈ x :: y :: q ++ [e], u.w = 1) :
    ∃ tr, pairUp^[n + 1] (q.map Entry.t ++ [e.t, .node x.t y.t]) = [tr] ∧ Builds (x :: y :: q ++ [e]) tr := by
  have hpos := Nat.two_pow_pos n
  have hpairs : Ascending (x :: y :: q) := hs.sublist (List.sublist_append_left ..)
  have hsrow : Ascending (x.merge y :: mergeRow q) := hpairs.mergeRow
  have hrow : ∀ u ∈ x.merge y :: mergeRow q, u.w = 2 := fun u hu => by
    have hone : ∀ v ∈ x :: y :: q, 1 ≤ v.w ∧ v.w ≤ 1 := fun v hv => by simp [hw v (List.mem_append_left _ hv)]
    have := w_mergeRow hone u hu
    omega
  have hnext : mergeRow (q ++ [e, x.merge y]) = mergeRow q ++ [e.merge (x.merge y)] := mergeRow_append (by omega)
  obtain ⟨tr, htr, hb⟩ := builds_of_heavier_last (q := mergeRow q) (e := e.merge (x.merge y)) (n := n)
    (by rw [← hnext, length_mergeRow, List.length_append, hlen]; simp; omega) (List.pairwise_cons.1 hsrow).2
    one_lt_two (fun u hu => hrow u (.tail _ hu)) (by simp [Entry.merge, hw])
  rw [← hnext, map_t_mergeRow, ← Function.iterate_succ_apply, List.map_append] at htr
  refine ⟨tr, htr, .row (x :: y :: q) (by rw [List.length_cons, List.length_cons]; omega) (hs.append hsrow ?_)
    (.merge (List.pairwise_cons.2 ⟨?_, hsrow⟩) hb)⟩
  · exact fun u hu v hv => by rw [hw u hu, hrow v hv]; exact one_lt_two
  · exact fun u hu => Entry.before_iff.2 (.inl (by rw [hw e (by simp), hrow u hu]; exact one_lt_two))

/-! ## The leaves of a perfect tree -/

theorem follow_append (c d : List Bool) : tr.follow (c ++ d) = (tr.follow c).bind fun t => t.follow d := by
  induction c generalizing tr with
  | nil => cases d <;> simp [CodeTree.follow]
  | cons b c ih =>
    cases tr with
    | leaf x => simp [CodeTree.follow]
    | node l r => cases b <;> simpa [CodeTree.follow] using ih

theorem getElem?_pairUp {l r : CodeTree} : {ts : List CodeTree} → {i : Nat} → ts[2 * i]? = some l →
    ts[2 * i + 1]? = some r → (pairUp ts)[i]? = some (.node l r)
  | [], _, h, _ => by simp at h
  | [_], i, _, h => by simp at h
  | t :: t' :: ts, 0, hl, hr => by simp_all [pairUp]
  | t :: t' :: ts, i + 1, hl, hr => getElem?_pairUp (ts := ts) (i := i) hl hr

/-- Trees paired up row by row to one tree stand in it as the binary numbers of their positions say. -/
theorem follow_of_pairUp {ts : List CodeTree} {t : CodeTree} {c : List Bool} (h : pairUp^[c.length] ts = [tr])
    (hlen : ts.length = 2 ^ c.length) (ht : ts[bitsValue c]? = some t) : tr.follow c = some t := by
  induction c using List.reverseRecOn generalizing ts t with
  | nil =>
    obtain rfl : ts = [tr] := h
    simpa [bitsValue, CodeTree.follow] using ht
  | append_singleton c b ih =>
    rw [List.length_append, List.length_singleton] at h hlen
    rw [bitsValue_append, List.length_singleton, pow_one, Nat.mul_comm] at ht
    obtain ⟨hlt, rfl⟩ := List.getElem?_eq_some_iff.1 ht
    have hpair := getElem?_pairUp (ts := ts) (i := bitsValue c) (List.getElem?_eq_getElem (by omega))
      (List.getElem?_eq_getElem (by omega))
    rw [follow_append, ih h (by rw [length_pairUp, hlen]; omega) hpair]
    cases b <;> simp [bitsValue, CodeTree.follow]

/-- A path to a leaf is its symbol's code where no symbol has two leaves. -/
theorem code_of_follow {x : Nat} {c : List Bool} (hnd : tr.symbols.Nodup) (h : tr.follow c = some (.leaf x)) :
    tr.code x = some c := by
  induction tr generalizing c with
  | leaf y => cases c <;> simp_all [CodeTree.follow, CodeTree.code]
  | node l r ihl ihr =>
    obtain ⟨hl, hr, hdisj⟩ := List.nodup_append.1 hnd
    match c, h with
    | false :: c, h => exact code_node_eq_some.2 (.inl ⟨c, rfl, ihl hl (by simpa [CodeTree.follow] using h)⟩)
    | true :: c, h =>
      have hc : r.code x = some c := ihr hr (by simpa [CodeTree.follow] using h)
      have hxr : x ∈ r.symbols := by
        by_contra hx
        simp [code_eq_none_iff.2 hx] at hc
      exact code_node_eq_some.2 (.inr ⟨c, rfl, code_eq_none_iff.2 fun hx => hdisj x hx x hxr rfl, hc⟩)

/-! ## The flat tree -/

theorem range_eq_ends (m : Nat) : List.range (m + 3) = 0 :: 1 :: List.range' 2 m ++ [m + 2] := by
  rw [List.range_succ, List.range_eq_range', List.range'_succ, List.range'_succ]

/-- The trees that pair up to the flat one over the symbols 0 to m + 1: the leaves from symbol 2 on, then the node over
the first two symbols. -/
def flatRow (m : Nat) : List CodeTree := (List.range' 2 m).map .leaf ++ [.node (.leaf 0) (.leaf 1)]

@[simp] theorem length_flatRow (m : Nat) : (flatRow m).length = m + 1 := by simp [flatRow]

theorem flatRow_leaf {m i : Nat} (h : i < m) : (flatRow m)[i]? = some (.leaf (i + 2)) := by
  simp [flatRow, List.getElem?_append_left, h, Nat.add_comm]

theorem flatRow_last (m : Nat) : (flatRow m)[m]? = some (.node (.leaf 0) (.leaf 1)) := by
  simp [flatRow]

/-- 2^(n+1) + 1 symbols of frequency 1: the last takes the pair of the first two as its 1-child. -/
theorem builds_flat (n : Nat) : ∃ tr, pairUp^[n + 1] (flatRow (2 ^ (n + 1) - 1)) = [tr] ∧
    Builds ((List.range (2 ^ (n + 1) + 1)).map fun k => leafEntry (k, 1)) tr := by
  obtain ⟨m, hm⟩ : ∃ m, 2 ^ (n + 1) = m + 2 := ⟨2 ^ (n + 1) - 2, by have := Nat.two_pow_pos n; omega⟩
  have hbefore : ∀ {i j}, i < j → (leafEntry (i, 1)).before (leafEntry (j, 1)) = true := fun hlt =>
    Entry.before_iff.2 (.inr ⟨rfl, hlt⟩)
  have hasc : Ascending ((List.range (m + 3)).map fun k => leafEntry (k, 1)) :=
    List.pairwise_map.2 (List.pairwise_lt_range.imp hbefore)
  have hone : ∀ u ∈ (List.range (m + 3)).map fun k => leafEntry (k, 1), u.w = 1 := List.forall_mem_map.2 fun _ _ => rfl
  have hrow : flatRow (m + 1) =
      ((List.range' 2 m).map fun k => leafEntry (k, 1)).map Entry.t ++ [.leaf (m + 2), .node (.leaf 0) (.leaf 1)] := by
    rw [flatRow, List.range'_1_concat, Nat.add_comm 2 m]
    simp [leafEntry, Function.comp_def]
  rw [range_eq_ends, List.map_append] at hasc hone
  rw [hm, show m + 2 - 1 = m + 1 from rfl, hrow, range_eq_ends, List.map_append]
  exact builds_of_odd_row (by simp [hm]) hasc hone

/-- Build() over the flat table pairs its row up (R226). -/
theorem exists_buildTree_flat {ft : Table Word} (h : ∀ k, k < 257 → tableGet ft k 0 = 1) :
    ∃ tr, pairUp^[8] (flatRow 255) = [tr] ∧ buildTree ft 257 = some tr := by
  have hqueue : buildQueue ft 257 = (List.range 257).map fun k => leafEntry (k, 1) := by
    rw [buildQueue_eq ft le_rfl, queuedSymbols_of_all_positive fun k hk => by rw [h k hk]; decide]
    exact List.map_congr_left fun k hk => by rw [h k (List.mem_range.1 hk)]
  obtain ⟨tr, htr, hb⟩ := builds_flat 7
  exact ⟨tr, htr, hb _ (.of_eq hqueue)⟩

/-- Build() over the flat table gives the flat codes (R226): a code is the position of its symbol's tree in the row. -/
theorem flatCodes_buildTree {ft : Table Word} (h : ∀ k, k < 257 → tableGet ft k 0 = 1) :
    ∃ l r, buildTree ft 257 = some (.node l r) ∧ FlatCodes (.node l r) := by
  obtain ⟨tr, htr, hb⟩ := exists_buildTree_flat h
  obtain ⟨⟨l, r, rfl⟩, hnd, -⟩ := buildTree_legal (by omega) hb
  have hpair : (CodeTree.node l r).follow (List.replicate 8 true) = some (.node (.leaf 0) (.leaf 1)) :=
    follow_of_pairUp (c := List.replicate 8 true) htr (by simp) (flatRow_last 255)
  refine ⟨l, r, hb, fun k h2 h256 => code_of_follow hnd (follow_of_pairUp (ts := flatRow 255) ?_ ?_ ?_),
    code_of_follow hnd (by rw [follow_append, hpair]; rfl), code_of_follow hnd ?_⟩
  · rwa [length_byteBits]
  · simp
  · rw [bitsValue_byteBits, BitVec.toNat_ofNat, Nat.mod_eq_of_lt (by omega), flatRow_leaf (by omega),
      Nat.sub_add_cancel h2]
  · rw [List.replicate_succ', follow_append, hpair]
    rfl

end Sys2Proof.Machine
end

section
/-! SUPPORT. The checkpoint schedule (46_adaptive_protocol.md R220, R221). -/

namespace Sys2Proof.Machine

variable {n : Nat}

theorem isPow2_iff : isPow2 n = true ↔ ∃ k, n = 2 ^ k := by
  simp only [isPow2, Bool.and_eq_true, decide_eq_true_eq, beq_iff_eq]
  constructor
  · rintro ⟨hpos, hand⟩
    exact (Nat.and_sub_one_eq_zero_iff_isPowerOfTwo (by omega)).1 hand
  · rintro ⟨k, rfl⟩
    have hpos := Nat.two_pow_pos k
    exact ⟨hpos, (Nat.and_sub_one_eq_zero_iff_isPowerOfTwo (by omega)).2 ⟨k, rfl⟩⟩

theorem epochEnds_iff : epochEnds n = true ↔ n ≠ 0 ∧ n % 262144 = 0 := by
  simp [epochEnds]

theorem rebuildsAt_iff :
    rebuildsAt n = true ↔ (n < 262144 ∧ ∃ k, n = 2 ^ k) ∨ (n ≠ 0 ∧ n % 262144 = 0) := by
  rw [rebuildsAt, Bool.or_eq_true, Bool.and_eq_true, isPow2_iff, epochEnds_iff, decide_eq_true_iff]

/-- EPOCH is 2^18, so the powers of two below it are the first 18. -/
theorem exists_pow_below_epoch_iff : (n < 262144 ∧ ∃ k, n = 2 ^ k) ↔ ∃ k, k < 18 ∧ n = 2 ^ k := by
  have hlt : ∀ k, 2 ^ k < 262144 ↔ k < 18 := fun k => Nat.pow_lt_pow_iff_right (m := 18) (by omega)
  constructor
  · rintro ⟨h, k, rfl⟩
    exact ⟨k, (hlt k).1 h, rfl⟩
  · rintro ⟨k, h, rfl⟩
    exact ⟨(hlt k).2 h, k, rfl⟩

end Sys2Proof.Machine
end

section
/-! The statements about Checkpoint() (46_adaptive_protocol.md R220, R221). -/

namespace Sys2Proof.Proofs

open Sys2Proof Sys2Proof.Machine

/-- Settles O38, by the equivalences of both schedules. -/
theorem checkpointSchedule : Obligations.CheckpointSchedule := by
  intro n
  rw [rebuildsAt_iff, epochEnds_iff, exists_pow_below_epoch_iff, Nat.dvd_iff_mod_eq_zero]
  exact ⟨.rfl, .rfl⟩

/-- Settles O39: Checkpoint() branches on CNT as the schedule says. -/
theorem checkpointRebuildsThenFlattens : Obligations.CheckpointRebuildsThenFlattens := by
  intro s
  have hcnt : s.cnt ≠ 0 ↔ s.cnt.toNat ≠ 0 := BitVec.toNat_ne
  rw [hcnt, ← rebuildsAt_iff, ← epochEnds_iff]
  refine ⟨rfl, fun h => if_pos h, fun h => if_neg h, fun h k hk => ?_, fun h => if_neg h⟩
  rw [State.freq, State.checkpoint_ft, if_pos h, tableGet_fill, if_pos ⟨hk, hk⟩]

end Sys2Proof.Proofs
end

section
/-! SUPPORT. The adaptive start, and what follows a symbol in both commands (46_adaptive_protocol.md R222, R223). -/

namespace Sys2Proof.Machine

variable {s : State} {w a : Word} {p : Pos} {it : Item} {rest : List Item} {l r : CodeTree}

/-! ## The start (R222, R223, R226) -/

theorem freq_adaptiveStart (s : State) {k : Nat} (hk : k < 257) : s.adaptiveStart.freq k = 1 :=
  (State.freq_fillFreq s 257 k 1).trans (if_pos ⟨hk, hk⟩)

/-- The adaptive start installs the flat tree. -/
theorem adaptiveStart_flat (hl : s.limit = 257) : ∃ l r, buildTree s.adaptiveStart.ft 257 = some (.node l r) ∧
    FlatCodes (.node l r) ∧
    s.adaptiveStart = { s with ft := s.adaptiveStart.ft, tree := some (.node l r), cnt := 0 } := by
  obtain ⟨l, r, hb, hflat⟩ := flatCodes_buildTree (ft := s.adaptiveStart.ft) fun k => freq_adaptiveStart s
  have htree : s.adaptiveStart.tree = some (.node l r) := by
    rw [← hb, ← hl]
    rfl
  exact ⟨l, r, hb, hflat, by rw [← htree]; rfl⟩

/-! ## AC_ENCODE by its positions (R222) -/

theorem exec_acEncode_start (hs : s.seq = .running w a .start) (hl : s.limit = 257) :
    exec .acEncode s = .next { s.resetBO.adaptiveStart with seq := .running w a (.popIn .item) } := by
  simp only [exec, execAcEncode, State.pos_eq_some.2 ⟨w, a, hs⟩]
  exact (checkByteAlphabet_of_eq _ hl).trans
    (congrArg Host.Outcome.next (State.park_of_running (s := s.resetBO.adaptiveStart) hs))

/-- END is encoded as symbol 256. -/
theorem acEncodeItem_eq (it : Item) (s : State) : acEncodeItem it s = encodeSym it.sym (acEncoded it.sym) s := by
  cases it <;> rfl

theorem exec_acEncode_popped (hs : s.seq = .running w a (.popIn .item)) (hq : s.inQ = it :: rest) :
    exec .acEncode s = encodeSym it.sym (acEncoded it.sym) { s with inQ := rest } := by
  simp only [exec, execAcEncode, State.pos_eq_some.2 ⟨w, a, hs⟩]
  exact (popIn_cons _ hq).trans (acEncodeItem_eq it _)

theorem exec_acEncode_code {sym : Nat} {bits : List Bool} (hs : s.seq = .running w a (.pushOut it (.code sym bits)))
    (hq : s.outQ.length < Config.outDepth) :
    exec .acEncode s = emitCode sym (acEncoded sym) bits { s with outQ := s.outQ ++ [it] } := by
  simp only [exec, execAcEncode, State.pos_eq_some.2 ⟨w, a, hs⟩]
  exact pushOut_room _ hq

theorem exec_acEncode_pad (hs : s.seq = .running w a (.pushOut it .pad)) (hq : s.outQ.length < Config.outDepth) :
    exec .acEncode s = closeOut { s with outQ := s.outQ ++ [it] } := by
  simp only [exec, execAcEncode, State.pos_eq_some.2 ⟨w, a, hs⟩]
  exact pushOut_room _ hq

theorem exec_acEncode_close (hs : s.seq = .running w a (.pushOut it .close)) (hq : s.outQ.length < Config.outDepth) :
    exec .acEncode s = .next (State.toIdle { s with outQ := s.outQ ++ [it] }) := by
  simp only [exec, execAcEncode, State.pos_eq_some.2 ⟨w, a, hs⟩]
  exact pushOut_room _ hq

theorem Item.sym_le (it : Item) : it.sym ≤ 256 := by
  cases it with
  | byte b => exact b.isLt.le
  | endItem => exact le_rfl

theorem countData_of_max {sym : Nat} (k : State → Out) (hc : s.cnt = 0xFFFFFFFFFFFFFFFF) :
    countData sym k s = .next (s.withError 6 2 0) := if_pos hc

/-- What follows Encode(sym) answers as AcEncoded says. -/
theorem acEncoded_outcome {sym : Nat} (hsym : sym ≤ 256) (hs : s.seq = .running w a p) :
    ∃ t, acEncoded sym s = .next t ∧ AcEncoded w a sym s t := by
  by_cases h : sym = 256
  · obtain ⟨t, ht, hclose⟩ := closeOut_outcome (s.countSym 256) hs
    exact ⟨t, (if_pos h).trans ht, fun hne => absurd h hne, fun _ => ⟨_, countSym_added s 256 le_rfl, hclose⟩⟩
  · have hdata : acEncoded sym s = countData sym (parkAt (.popIn .item)) s := if_neg h
    by_cases hc : s.cnt = 0xFFFFFFFFFFFFFFFF
    · exact ⟨_, hdata.trans (countData_of_max _ hc), fun _ => ⟨fun _ => rfl, fun hne => absurd hc hne⟩,
        fun heq => absurd heq h⟩
    · obtain ⟨u, hu, hcount⟩ := countData_outcome s sym (parkAt (.popIn .item)) hsym hc
      have hus : u.checkpoint.seq = .running w a p := by rw [State.checkpoint_seq, hu.1]; exact hs
      exact ⟨_, hdata.trans hcount, fun _ => ⟨fun heq => absurd heq hc, fun _ => ⟨u, hu, State.park_of_running hus⟩⟩,
        fun heq => absurd heq h⟩

/-! ## AD_DECODE by its positions (R223) -/

theorem exec_adDecode_start (hs : s.seq = .running w a .start) (hl : s.limit = 257) :
    exec .adDecode s = decodeSym adDecoded s.resetBI.resetBO.adaptiveStart := by
  simp only [exec, execAdDecode, State.pos_eq_some.2 ⟨w, a, hs⟩]
  exact checkByteAlphabet_of_eq _ hl

theorem exec_adDecode_walk (hs : s.seq = .running w a (.popIn (.walk l r))) (hq : s.inQ = it :: rest) :
    exec .adDecode s = resumeWalk adDecoded l r it { s with inQ := rest } := by
  simp only [exec, execAdDecode, State.pos_eq_some.2 ⟨w, a, hs⟩]
  exact popIn_cons _ hq

theorem exec_adDecode_data {sym : Nat} (hs : s.seq = .running w a (.pushOut it (.data sym)))
    (hq : s.outQ.length < Config.outDepth) :
    exec .adDecode s = countData sym (decodeSym adDecoded) { s with outQ := s.outQ ++ [it] } := by
  simp only [exec, execAdDecode, State.pos_eq_some.2 ⟨w, a, hs⟩]
  exact pushOut_room _ hq

theorem exec_adDecode_drain (hs : s.seq = .running w a (.popIn .drain)) (hq : s.inQ = it :: rest) :
    exec .adDecode s = drained drainDone it { s with inQ := rest } := by
  simp only [exec, execAdDecode, State.pos_eq_some.2 ⟨w, a, hs⟩]
  exact popIn_cons _ hq

theorem exec_adDecode_finish (hs : s.seq = .running w a (.pushOut it .finish)) (hq : s.outQ.length < Config.outDepth) :
    exec .adDecode s = .next (State.resetBI { s with outQ := s.outQ ++ [it] }).toIdle := by
  simp only [exec, execAdDecode, State.pos_eq_some.2 ⟨w, a, hs⟩]
  exact pushOut_room _ hq

/-- What follows Decode() answers as AdDecoded says. -/
theorem adDecoded_outcome (sym : Nat) (hs : s.seq = .running w a p) :
    ∃ t, adDecoded sym s = .next t ∧ AdDecoded w a sym s t := by
  by_cases h : sym = 256
  · exact ⟨_, if_pos h, fun hlt => absurd h hlt.ne, fun _ =>
      ⟨_, countSym_added s 256 le_rfl, State.park_of_running (s := s.countSym 256) hs⟩⟩
  · exact ⟨_, if_neg h, fun _ => State.park_of_running hs, fun heq => absurd heq h⟩

end Sys2Proof.Machine
end

section
/-! The statements about AC_ENCODE and AD_DECODE (46_adaptive_protocol.md R222, R223). -/

namespace Sys2Proof.Proofs

open Sys2Proof Sys2Proof.Machine

/-- Settles O40: the flat start, then what putting a code and CloseOut() answer from the state each blocking point
leaves. -/
theorem acEncodeSegments : Obligations.AcEncodeSegments := by
  intro s w a
  refine ⟨fun hs hl => ?_, exec_protocol_otherLimit rfl, fun it rest hs hq => ?_, fun it sym bits hsym hs hq => ?_,
    fun it hs hq => ?_, fun it => exec_acEncode_close⟩
  · obtain ⟨l, r, hb, hflat, hstart⟩ := adaptiveStart_flat (s := s.resetBO) hl
    exact ⟨_, _, exec_acEncode_start hs hl, fun k => freq_adaptiveStart s.resetBO, hb, hflat, by rw [hstart]; rfl⟩
  · rw [exec_acEncode_popped hs hq]
    exact encodeSym_outcome it.sym _ _ { s with inQ := rest } hs fun u hu =>
      acEncoded_outcome it.sym_le (hu.seq.trans hs)
  · rw [exec_acEncode_code hs hq]
    exact emitCode_outcome sym _ _ bits { s with outQ := s.outQ ++ [it] } hs fun u hu =>
      acEncoded_outcome hsym (hu.seq.trans hs)
  · rw [exec_acEncode_pad hs hq]
    exact closeOut_outcome { s with outQ := s.outQ ++ [it] } hs

/-- Settles O41: the flat start waits in the flat tree; the walks by their outcomes, a pushed symbol counted before the
next one; the drain and the last push. -/
theorem adDecodeSegments : Obligations.AdDecodeSegments := by
  intro s w a
  refine ⟨fun hs hl => ?_, exec_protocol_otherLimit rfl, fun l r b rest hs hq he => ?_,
    fun l r rest hs hq => (exec_adDecode_walk hs hq).trans (resumeWalk_end _ l r _), fun it sym hs hq hsym => ⟨?_, ?_⟩,
    fun b rest hs hq => (exec_adDecode_drain hs hq).trans (drained_byte _ b hs),
    fun rest hs hq => (exec_adDecode_drain hs hq).trans (drained_drainDone_end hs), fun it => exec_adDecode_finish⟩
  · obtain ⟨l, r, hb, hflat, hstart⟩ := adaptiveStart_flat (s := s.resetBI.resetBO) hl
    have hexec : exec .adDecode s =
        parkAt (.popIn (.walk l r)) s.resetBI.resetBO.adaptiveStart :=
      (exec_adDecode_start hs hl).trans
        ((decodeSym_some _ (by rw [hstart])).trans (walk_node_of_empty _ rfl rfl))
    refine ⟨_, l, r, hexec, fun k => freq_adaptiveStart s.resetBI.resetBO, hb, hflat, ?_⟩
    rw [State.park_of_running (s := s.resetBI.resetBO.adaptiveStart) hs, hstart]
    rfl
  · rw [exec_adDecode_walk hs hq]
    exact resumeWalk_outcome _ _ l r b { s with inQ := rest } hs he fun x u hu => adDecoded_outcome x (hu.seq.trans hs)
  · exact fun hc => (exec_adDecode_data hs hq).trans (countData_of_max _ hc)
  · intro hc
    obtain ⟨u, hu, hcount⟩ := countData_outcome { s with outQ := s.outQ ++ [it] } sym (decodeSym adDecoded) hsym.le hc
    have hus : u.checkpoint.seq = .running w a (.pushOut it (.data sym)) := by
      rw [State.checkpoint_seq, hu.1]
      exact hs
    obtain ⟨t, ht, hout⟩ := decodeSym_outcome adDecoded (AdDecoded w a) u.checkpoint hus fun x v hv =>
      adDecoded_outcome x (hv.seq.trans hus)
    exact ⟨u, t, hu, (exec_adDecode_data hs hq).trans (hcount.trans ht), hout⟩

end Sys2Proof.Proofs
end

section
/-! SUPPORT. SET_SYMLIM from its start, and the tables it leaves (47_control.md R242). -/

namespace Sys2Proof.Machine

open Sys2Proof

variable {s : State} {w a : Word}

theorem exec_setSymlim_start (hs : s.seq = .running w a .start) :
    exec .setSymlim s =
      if a.toNat < 2 then raise .tooFewSymbols a s
      else if Config.maxSym < a.toNat then raise .capacity a s
      else complete (s.withLimit a) := by
  rw [exec, execSetSymlim, atStart_running _ hs]

@[simp] theorem State.withLimit_freq (s : State) (a : Word) (k : Nat) : (s.withLimit a).freq k = 0 :=
  freq_fillFreq_zero s k

@[simp] theorem State.withLimit_len (s : State) (a : Word) (k : Nat) : (s.withLimit a).len k = 0 := by
  by_cases hk : k < 257
  · exact (tableGet_fill _ _ _ _ _).trans (if_pos ⟨hk, hk⟩)
  · exact State.len_of_ge _ k (not_lt.1 hk)

end Sys2Proof.Machine
end

section
/-! The statement about SET_SYMLIM (47_control.md R242). -/

namespace Sys2Proof.Proofs

open Sys2Proof Sys2Proof.Machine

/-- Settles O43, by the range of the argument: too small, too large, or a legal limit. -/
theorem setSymlimClearsTheTables : Obligations.SetSymlimClearsTheTables := by
  intro s w a hs
  rw [exec_setSymlim_start hs]
  refine ⟨fun hlow => if_pos hlow, fun hhigh => ?_, fun hlow hhigh => ?_⟩
  · have hlow : ¬ a.toNat < 2 := by omega
    exact (if_neg hlow).trans (if_pos hhigh)
  · exact ⟨_, (if_neg hlow.not_gt).trans (if_neg hhigh.not_gt), limit_withLimit (s := s) hhigh,
      fun k => ⟨State.withLimit_freq s a k, State.withLimit_len s a k⟩, rfl⟩

end Sys2Proof.Proofs
end

section
/-! SUPPORT. How a segment leaves the error state (60_exceptions.md R262, R268), and the block reset
(70_reset_and_hazards.md R290, R291). -/

namespace Sys2Proof.Machine

open Sys2Proof

variable {s t : State} {i : Instr} {v : Word}

theorem writes_error (h : writes i .error = true) : i = .errClear := by
  cases i <;> simp [writes, pieces] at h ⊢

/-- A segment that may not write the error state keeps it or ends by an error. -/
theorem Segment.error (h : Segment i s t) (hw : writes i .error = false) :
    (t.err = s.err ∧ t.errCode = s.errCode ∧ t.errDetail = s.errDetail ∧ t.errInfo = s.errInfo) ∨
    ∃ u e info, t = State.failed e info u := by
  cases h with
  | waits ht => exact .inl (ht ▸ ⟨rfl, rfl, rfl, rfl⟩)
  | completes u v hm hv ht => exact .inl (ht ▸ hm.error hw)
  | fails u e info hm ht => exact .inr ⟨u, e, info, ht⟩
  | parks u p hm hp ht => exact .inl (ht ▸ hm.error hw)

theorem writeReg_ctrl : writeReg 0x30 v s = s.writeCtrl v := rfl

theorem writeCtrl_reset (hv : v.getLsbD 0 = true) : s.writeCtrl v = s.resetBlock := if_pos hv

theorem writeCtrl_clear (hv : v.getLsbD 0 = false) : s.writeCtrl v = s := if_neg (Bool.eq_false_iff.1 hv)

theorem step_of_resetInput {rest : List Turn} (h : s.script = .resetInput :: rest) :
    step s = .next (State.resetBlock { s with script := rest }) := by
  unfold step takeTurn
  rw [h]

end Sys2Proof.Machine
end

section
/-! The statements about errors (60_exceptions.md) and the resets (70_reset_and_hazards.md). -/

namespace Sys2Proof.Proofs

open Sys2Proof Sys2Proof.Machine

/-- Settles O44: ERR_CLEAR alone writes the error state otherwise than by failing, and a failed command is IDLE. -/
theorem errorsEndTheCommand : Obligations.ErrorsEndTheCommand := by
  intro i s t h hi
  rcases (exec_segment h).error (writes_false writes_error hi) with hkept | ⟨u, e, info, rfl⟩
  · exact .inl hkept
  · exact .inr ⟨rfl, rfl, e, rfl, rfl⟩

/-- Settles O54: both resets are the block reset, which looks at nothing of the block. -/
theorem resetFromEveryState : Obligations.ResetFromEveryState := by
  intro s v
  rw [hostAccess_write (by decide) rfl, writeReg_ctrl]
  exact ⟨fun hv => congrArg _ (writeCtrl_reset hv), fun hv => congrArg _ (writeCtrl_clear hv),
    fun _ => step_of_resetInput⟩

end Sys2Proof.Proofs
end
